-- ==== Sys2Proof/Word.lean ====
section
/-! DEFINITION. The plainest data of TAPCTL: bits, bit-strings, descriptor words, bytes, and the
levels of the four output lines. -/

namespace Sys2Proof

/-- One bit (00_scope.md R10): `true` is 1, `false` is 0. -/
abbrev Bit := Bool

/-- A bit-string, head first (00_scope.md R10): the first list element is `s[0]`, the head. -/
abbrev Bits := List Bit

/-- One word of a leg descriptor (30_encoding.md R71). -/
abbrev Word := BitVec 32

/-- One byte of the codec's byte sequences (40_codec.md R103). -/
abbrev Byte := BitVec 8

/-- The levels of the output lines, in the order of 10_state.md R31: `(tck, tms, tdi, srst)`. -/
structure Lines where
  tck : Bit
  tms : Bit
  tdi : Bit
  srst : Bit
  deriving DecidableEq, Repr, Inhabited

end Sys2Proof
end

