-- ==== Sys2Proof/Syntax.lean ====
section
/-! DEFINITION. The legs of TAPCTL, which are its instructions (30_encoding.md R70, R73): one
constructor for each row of spec/opcode_table.json. -/

namespace Sys2Proof

/-- The ten leg kinds (30_encoding.md R73). -/
inductive Kind where
  | dr
  | ir
  | reset
  | longDelay
  | idle
  | irPause
  | irDirect
  | drConfig
  | drConfigReadback
  | drRecoveryReadback
  deriving DecidableEq, Repr

/-- A leg: its kind and its payload (30_encoding.md R70). A control leg keeps the payload it was
given, though no rule reads it (R77). The label is not part of a leg (10_state.md R34). -/
inductive Instr where
  | dr (payload : Bits)
  | ir (payload : Bits)
  | reset (payload : Bits)
  | longDelay (payload : Bits)
  | idle (payload : Bits)
  | irPause (payload : Bits)
  | irDirect (payload : Bits)
  | drConfig (payload : Bits)
  | drConfigReadback (payload : Bits)
  | drRecoveryReadback (payload : Bits)
  deriving DecidableEq, Repr

/-- The kind of a leg. -/
def Instr.kind : Instr → Kind
  | .dr _ => .dr
  | .ir _ => .ir
  | .reset _ => .reset
  | .longDelay _ => .longDelay
  | .idle _ => .idle
  | .irPause _ => .irPause
  | .irDirect _ => .irDirect
  | .drConfig _ => .drConfig
  | .drConfigReadback _ => .drConfigReadback
  | .drRecoveryReadback _ => .drRecoveryReadback

/-- The payload of a leg. -/
def Instr.payload : Instr → Bits
  | .dr p => p
  | .ir p => p
  | .reset p => p
  | .longDelay p => p
  | .idle p => p
  | .irPause p => p
  | .irDirect p => p
  | .drConfig p => p
  | .drConfigReadback p => p
  | .drRecoveryReadback p => p

/-- The leg `(kind, payload)`. -/
def Instr.ofKind (k : Kind) (p : Bits) : Instr :=
  match k with
  | .dr => .dr p
  | .ir => .ir p
  | .reset => .reset p
  | .longDelay => .longDelay p
  | .idle => .idle p
  | .irPause => .irPause p
  | .irDirect => .irDirect p
  | .drConfig => .drConfig p
  | .drConfigReadback => .drConfigReadback p
  | .drRecoveryReadback => .drRecoveryReadback p

/-- The same leg with another payload: `S.cur.payload <- p'` (42_tap_step.md R146). -/
def Instr.withPayload (i : Instr) (p : Bits) : Instr := Instr.ofKind i.kind p

/-- The shift kinds of the class column of 30_encoding.md R73; the others are control kinds. -/
def Kind.isShift : Kind → Bool
  | .dr => true
  | .ir => true
  | .reset => false
  | .longDelay => false
  | .idle => false
  | .irPause => true
  | .irDirect => true
  | .drConfig => true
  | .drConfigReadback => true
  | .drRecoveryReadback => true

/-- The four DR kinds (00_scope.md glossary, 30_encoding.md R73). -/
def Kind.isDr : Kind → Bool
  | .dr => true
  | .ir => false
  | .reset => false
  | .longDelay => false
  | .idle => false
  | .irPause => false
  | .irDirect => false
  | .drConfig => true
  | .drConfigReadback => true
  | .drRecoveryReadback => true

/-- The two readback kinds (00_scope.md glossary, 30_encoding.md R73). -/
def Kind.isReadback : Kind → Bool
  | .dr => false
  | .ir => false
  | .reset => false
  | .longDelay => false
  | .idle => false
  | .irPause => false
  | .irDirect => false
  | .drConfig => false
  | .drConfigReadback => true
  | .drRecoveryReadback => true

end Sys2Proof
end

