-- ==== Sys2Proof/Decode.lean ====
section
/-! DEFINITION. Leg descriptors (30_encoding.md R71 to R73): the decoder, total on every list of words
and refusing by name; then the encoder, from the same tables; then the decoder's view of an opcode
table word. -/

namespace Sys2Proof

/-- `val(s)` of 00_scope.md R11: the head is the most significant bit. The empty sum is 0; where a
rule would read `val("")` the machine uses a free value instead (`Machine.captured`). -/
def val : Bits → Nat
  | [] => 0
  | b :: s => b.toNat * 2 ^ s.length + val s

/-- Kind codes (30_encoding.md R73). -/
def Kind.code : Kind → BitVec 4
  | .dr => 0#4
  | .ir => 1#4
  | .reset => 2#4
  | .longDelay => 3#4
  | .idle => 4#4
  | .irPause => 5#4
  | .irDirect => 6#4
  | .drConfig => 7#4
  | .drConfigReadback => 8#4
  | .drRecoveryReadback => 9#4

/-- The kind a code names; codes 10 to 15 are reserved (30_encoding.md R73, R75). -/
def Kind.ofCode (c : BitVec 4) : Option Kind :=
  match c.toNat with
  | 0 => some .dr
  | 1 => some .ir
  | 2 => some .reset
  | 3 => some .longDelay
  | 4 => some .idle
  | 5 => some .irPause
  | 6 => some .irDirect
  | 7 => some .drConfig
  | 8 => some .drConfigReadback
  | 9 => some .drRecoveryReadback
  | _ => none

/-- Why a list of words is no descriptor. -/
inductive DecodeError where
  /-- There is no header word. -/
  | noHeader
  /-- The kind code is 10 to 15 (30_encoding.md R75). -/
  | badKind
  /-- Fewer payload words than the header's length needs (30_encoding.md R71). -/
  | truncated
  deriving DecidableEq, Repr

/-- `H[3:0]` (30_encoding.md R71). -/
def headerKind (h : Word) : BitVec 4 := h.extractLsb' 0 4

/-- `H[31:4]`, the payload length in bits (30_encoding.md R71). -/
def headerLen (h : Word) : Nat := (h.extractLsb' 4 28).toNat

/-- `ceil(len/32)`, the number of payload words (30_encoding.md R71). -/
def payloadWords (len : Nat) : Nat := (len + 31) / 32

/-- Payload bit `p[i]` is bit `31 - (i mod 32)` of payload word `floor(i/32)` (30_encoding.md R72). -/
def payloadBit (words : Nat → Word) (i : Nat) : Bit := (words (i / 32)).getLsbD (31 - i % 32)

/-- The payload of `len` bits carried by the payload words; pad bits are ignored (30_encoding.md R72). -/
def unpack (len : Nat) (words : Nat → Word) : Bits := (List.range len).map (payloadBit words)

/-- Decodes the leg whose header is `h`, given how many payload words follow and what they are. -/
def decodeFrom (h : Word) (available : Nat) (words : Nat → Word) : Except DecodeError Instr :=
  match Kind.ofCode (headerKind h) with
  | none => .error .badKind
  | some k =>
    if available < payloadWords (headerLen h) then .error .truncated
    else .ok (Instr.ofKind k (unpack (headerLen h) words))

/-- Decodes one descriptor from the front of a list of words, and gives the words after it. -/
def decode : List Word → Except DecodeError (Instr × List Word)
  | [] => .error .noHeader
  | h :: ws =>
    match decodeFrom h ws.length (fun j => ws.getD j 0#32) with
    | .error e => .error e
    | .ok i => .ok (i, ws.drop (payloadWords (headerLen h)))

/-- The header word of a leg (30_encoding.md R71). -/
def encodeHeader (i : Instr) : Word :=
  BitVec.ofNat 32 (i.payload.length * 16 + i.kind.code.toNat)

/-- Payload word `j`: the 32 payload bits from `p[32 j]` on, head at bit 31, zeros after the end
(30_encoding.md R72). -/
def packWord (p : Bits) (j : Nat) : Word :=
  BitVec.ofNat 32 (val ((List.range 32).map fun k => p.getD (32 * j + k) false))

/-- The descriptor of a leg (30_encoding.md R71, R72), for payloads that the length field can count. -/
def encode (i : Instr) : List Word :=
  encodeHeader i :: (List.range (payloadWords i.payload.length)).map (packWord i.payload)

/-- Word `j` of an opcode table number: bit 0 of the number is bit 0 of the first word, later words
count on from it, and every bit from `nbits` up is 0. -/
def tableWord (nbits w j : Nat) : Word := BitVec.ofNat 32 ((w % 2 ^ nbits) >>> (32 * j))

/-- The instruction the decoder reads from an opcode table word. -/
def decodeTableWord (nbits w : Nat) : Option Instr :=
  match decodeFrom (tableWord nbits w 0) (payloadWords (headerLen (tableWord nbits w 0)))
      (fun j => tableWord nbits w (j + 1)) with
  | .error _ => none
  | .ok i => some i

end Sys2Proof
end

