-- ==== Sys2Proof/Config.lean ====
section
/-! DEFINITION. What an implementation fixes (00_scope.md R9), and the free values: constants with no
body, of which nothing can be proved but what holds for every value. -/

namespace Sys2Proof

/-- The implementation parameters of 00_scope.md R9 that a rule of the engine or of ENQUEUE reads. -/
structure Params where
  /-- P_MAX_PAYLOAD_BITS: open, at most 2^28 - 1 (92 D14, D2). -/
  maxPayloadBits : Nat
  /-- P_SHORTCUT_DR_KINDS: which DR kinds take the UPDATE shortcut (92 D9). -/
  shortcutDrKinds : List Kind
  /-- P_RESULT_CAPACITY: `none` is the unbounded store of the model (20_memory.md R55, 92 D24). -/
  resultCapacity : Option Nat
  deriving DecidableEq, Repr

/-- P_MAX_PAYLOAD_BITS of this implementation: OPEN (00_scope.md R9). -/
opaque Config.maxPayloadBits : Nat

/-- P_MNEMONIC: the names of the instruction codes other than IDCODE and BYPASS, OPEN
(46_mnemonic.md R221). -/
opaque Config.mnemonicTable : List (Nat × String)

/-- The value the target shows on TDO at the k-th pulse: a free draw (10_state.md R30, 92 D29). -/
opaque Config.tdoSample : Nat → Bit

/-- Whether the k-th line access fails: a free draw (60_exceptions.md R233). -/
opaque Config.lineAccessFails : Nat → Bool

/-- The line levels after the k-th line access failed: any value (41_phy.md R129, 93 U9). -/
opaque Config.linesAfterFailure : Nat → Lines

/-- `val("")`, which 00_scope.md R11 leaves undefined: a free value, needed only in states that no
run reaches. -/
opaque Config.valueOfEmpty : Nat → Nat

end Sys2Proof
end

