-- ==== Sys2Proof/Machine/State.lean ====
section
/-! DEFINITION. The state of TAPCTL as plain data: the Engine Session of 10_state.md, the line trace,
the ADVANCE call in progress, the host, the parameters and the free draws; and the state after
reset. -/

namespace Sys2Proof.Machine

/-- The nine TAP states of 10_state.md R22. -/
inductive TapState where
  | reset
  | idle
  | select
  | capture
  | shift
  | exit1
  | pause
  | exit2
  | update
  deriving DecidableEq, Repr

/-- The error codes of 60_exceptions.md R231. -/
inductive ErrorCode where
  | badKind
  | emptyPayload
  | payloadTooLong
  | faulted
  | busy
  | noReadout
  | codecRange
  | codecChunk
  | phyIo
  | resultOverflow
  | internal
  deriving DecidableEq, Repr

/-- The four kinds of line event (41_phy.md R124). -/
inductive LineEvent where
  /-- `P(tdi,tms)->t` -/
  | pulse (tdi tms sampled : Bit)
  /-- `D(LONG)` -/
  | delayLong
  /-- `SRST(v)` -/
  | srst (level : Bit)
  /-- `D(SETTLE)` -/
  | delaySettle
  deriving DecidableEq, Repr

/-- What the host may do (45_sequencer.md R200, R206; 70_reset_and_hazards.md R260). -/
inductive HostAction where
  /-- ENQUEUE of a leg in its abstract form (30_encoding.md R70, 45 R201). -/
  | enqueueLeg (leg : Instr)
  /-- ENQUEUE of a descriptor: header word and payload words (30 R71, 45 R201). -/
  | enqueue (header : Word) (payload : List Word)
  /-- ADVANCE (45 R202). -/
  | advance
  /-- PULSE_RESET (45 R207). -/
  | pulseReset
  /-- READ_RESULTS (45 R208). -/
  | readResults
  /-- READ_LAST_READOUT (45 R208). -/
  | readLastReadout
  /-- READ_STATUS (45 R208). -/
  | readStatus
  /-- The host's loop DRAIN (45 R206): no operation of the block, but ADVANCE until drained or faulted. -/
  | drain
  /-- The host discards the session and creates a new one (60 R241, 70 R260). -/
  | newSession
  deriving DecidableEq, Repr

/-- What a host operation returns (45_sequencer.md R200, R208). -/
inductive Reply where
  /-- ENQUEUE accepted the leg. -/
  | accepted
  /-- The operation was refused with this code (60_exceptions.md R231). -/
  | refused (code : ErrorCode)
  /-- ADVANCE returned; the fault register at its return (45 R202, R211). -/
  | advanced (fault : Option ErrorCode)
  /-- PULSE_RESET returned; the fault register at its return. The spec names nothing that PULSE_RESET hands
  back (45_sequencer.md R207, R212), so this is the model's choice (log entry 31). -/
  | resetPulsed (fault : Option ErrorCode)
  /-- READ_RESULTS: the whole ordered list. -/
  | results (values : List Nat)
  /-- READ_LAST_READOUT: the register's value. -/
  | lastReadout (value : Nat)
  /-- READ_STATUS: state, leg pending, queue length, drained, fault. -/
  | status (state : BitVec 4) (pending : Bool) (queued : Nat) (drained : Bool) (fault : Option ErrorCode)
  deriving DecidableEq, Repr

/-- A sequence of free draws: those already settled, next first, and how many were taken so far. Past
the settled ones the draws are those of an uninterpreted function of the count. -/
structure Draws where
  settled : List Bool
  taken : Nat
  deriving DecidableEq, Repr

/-- Why the machine stops. -/
inductive Fault where
  /-- Raised when a leg is asked to run in a session whose fault register is set: "no engine step is
  enabled afterwards" (60_exceptions.md R238, 42_tap_step.md R140). Safe. -/
  | noStepEnabled
  /-- Raised by `step` when no agent has an enabled step: no ADVANCE is in progress and the host does
  nothing more (00_scope.md R13 "Stuck", 45_sequencer.md R210). Safe. -/
  | stuck
  deriving DecidableEq, Repr

/-- Why the machine gives no meaning. -/
inductive Refusal where
  /-- An instruction of the opcode table that has no meaning yet. -/
  | notModelled (mnemonic : String)
  /-- Raised by ENQUEUE of words that are no descriptor: not as many payload words as the header's
  length says (30_encoding.md R71 gives such words no meaning). Safe. -/
  | malformedDescriptor
  deriving DecidableEq, Repr

/-- The state of TAPCTL. The first ten fields are the registers of 10_state.md R33. -/
@[ext]
structure State where
  /-- `S.state`, 4 bits (R22). -/
  tap : BitVec 4
  /-- `S.cur`, the current leg, its payload the JTAG shift-out register (R23). -/
  cur : Option Instr
  /-- `S.acc`, the capture accumulator (R24). -/
  acc : Bits
  /-- `S.pause`, the pause-requested flag (R25). -/
  pause : Bit
  /-- `S.readback`, the want-readback flag (R26). -/
  readback : Bit
  /-- `S.queue`, the Leg Queue, head first (R27). -/
  queue : List Instr
  /-- `S.results`, the Result Store, oldest first (R28). -/
  results : List Nat
  /-- `S.last_readout` (R29). -/
  lastReadout : Option Nat
  /-- `S.lines`, the levels last driven (R31). -/
  lines : Lines
  /-- `S.fault`, the fault register (R32). -/
  fault : Option ErrorCode
  /-- The line trace, oldest event first (41_phy.md R124). -/
  trace : List LineEvent
  /-- The ADVANCE call in progress: its count `n` of completed legs (45_sequencer.md R202). -/
  call : Option Nat
  /-- What the host does next, in order (00_scope.md R7, 45 R200). -/
  host : List HostAction
  /-- What the host got back, oldest first (45 R200, R208). -/
  replies : List Reply
  /-- The implementation parameters (00_scope.md R9). The model's own field: no step writes it. -/
  params : Params
  /-- The TDO samples to come (10_state.md R30). The model's own field. -/
  tdoDraws : Draws
  /-- Whether the line accesses to come fail (60_exceptions.md R233). The model's own field. -/
  ioDraws : Draws
  deriving DecidableEq, Repr

/-- The parameters of this hardware: P_SHORTCUT_DR_KINDS is all four DR kinds, P_RESULT_CAPACITY
unbounded, P_MAX_PAYLOAD_BITS open (00_scope.md R9). -/
def hardwareParams : Params where
  maxPayloadBits := Config.maxPayloadBits
  shortcutDrKinds := [.dr, .drConfig, .drConfigReadback, .drRecoveryReadback]
  resultCapacity := none

/-- The state after reset, that is after the creation of a session (70_reset_and_hazards.md R261). -/
def State.reset : State where
  tap := 1#4
  cur := none
  acc := []
  pause := false
  readback := false
  queue := []
  results := []
  lastReadout := none
  lines := ⟨false, false, false, true⟩
  fault := none
  trace := []
  call := none
  host := []
  replies := []
  params := hardwareParams
  tdoDraws := ⟨[], 0⟩
  ioDraws := ⟨[], 0⟩

end Sys2Proof.Machine
end

