-- ==== Sys2Proof/Machine/Operands.lean ====
section
/-! DEFINITION. Operand forms: the encodings of the state register and of the error codes, the bit-string
primitives, and the kind decode table of 30_encoding.md R74. -/

namespace Sys2Proof.Machine

/-- The 4-bit code of a TAP state (10_state.md R22). -/
def TapState.code : TapState → BitVec 4
  | .reset => 0#4
  | .idle => 1#4
  | .select => 2#4
  | .capture => 3#4
  | .shift => 4#4
  | .exit1 => 5#4
  | .pause => 6#4
  | .exit2 => 7#4
  | .update => 8#4

/-- The TAP state a code names; 9 to 15 name none (10_state.md R22). -/
def TapState.ofCode (c : BitVec 4) : Option TapState :=
  match c.toNat with
  | 0 => some .reset
  | 1 => some .idle
  | 2 => some .select
  | 3 => some .capture
  | 4 => some .shift
  | 5 => some .exit1
  | 6 => some .pause
  | 7 => some .exit2
  | 8 => some .update
  | _ => none

/-- The number of an error code; 0 means `none` (60_exceptions.md R231). -/
def ErrorCode.number : ErrorCode → Nat
  | .badKind => 1
  | .emptyPayload => 2
  | .payloadTooLong => 3
  | .faulted => 4
  | .busy => 5
  | .noReadout => 6
  | .codecRange => 7
  | .codecChunk => 8
  | .phyIo => 9
  | .resultOverflow => 10
  | .internal => 11

/-- The codes whose outcome is a fault; the others are refusals (60_exceptions.md R231). -/
def ErrorCode.isFault : ErrorCode → Bool
  | .badKind => false
  | .emptyPayload => false
  | .payloadTooLong => false
  | .faulted => false
  | .busy => false
  | .noReadout => false
  | .codecRange => false
  | .codecChunk => false
  | .phyIo => true
  | .resultOverflow => true
  | .internal => true

/-- Which end of the payload is shifted first (20_memory.md R57). -/
inductive Order where
  | head
  | tail
  deriving DecidableEq, Repr

/-- How a kind takes the UPDATE shortcut (30_encoding.md R74, its two shortcut columns). -/
inductive Shortcut where
  /-- Not eligible. -/
  | never
  /-- Eligible as a DR kind: no extra pulse. -/
  | dr
  /-- Eligible as IR_PAUSE or IR_DIRECT: one extra pulse before the pop. -/
  | ir
  deriving DecidableEq, Repr

/-- The row of a shift kind in the kind decode table (30_encoding.md R74). -/
structure ShiftRow where
  /-- How many mode=1 pulses enter SELECT from IDLE. -/
  entryPulses : Nat
  /-- `S.pause` on entry from IDLE; `none` is "unchanged". -/
  pauseOnEntry : Option Bit
  /-- `S.readback` on entry; `none` is "unchanged". -/
  readbackOnEntry : Option Bit
  order : Order
  sampleNonFinal : Bool
  sampleFinal : Bool
  shortcut : Shortcut
  deriving DecidableEq, Repr

/-- What a control kind does in IDLE (30_encoding.md R74, 42_tap_step.md R152). -/
inductive ControlAction where
  | resetBurst
  | longDelay
  | idleClock
  deriving DecidableEq, Repr

/-- A row of the kind decode table. -/
inductive KindRow where
  | shift (row : ShiftRow)
  | control (action : ControlAction)
  deriving DecidableEq, Repr

/-- The kind decode table (30_encoding.md R74). -/
def kindRow : Kind → KindRow
  | .dr => .shift ⟨1, none, some false, .tail, true, true, .dr⟩
  | .ir => .shift ⟨2, some false, none, .tail, true, true, .never⟩
  | .reset => .control .resetBurst
  | .longDelay => .control .longDelay
  | .idle => .control .idleClock
  | .irPause => .shift ⟨2, some true, none, .tail, true, true, .ir⟩
  | .irDirect => .shift ⟨2, some false, none, .tail, true, true, .ir⟩
  | .drConfig => .shift ⟨1, none, some false, .head, false, true, .dr⟩
  | .drConfigReadback => .shift ⟨1, none, some true, .head, true, true, .dr⟩
  | .drRecoveryReadback => .shift ⟨1, none, some true, .tail, true, true, .dr⟩

/-- `head(s)`; there is none of `""` (00_scope.md R10). -/
def headBit : Bits → Option Bit
  | [] => none
  | b :: _ => some b

/-- `drop_head(s)`; there is none of `""` (00_scope.md R10). -/
def dropHead : Bits → Option Bits
  | [] => none
  | _ :: s => some s

/-- `last(s)`; there is none of `""` (00_scope.md R10). -/
def lastBit (s : Bits) : Option Bit := s.getLast?

/-- `drop_last(s)`; there is none of `""` (00_scope.md R10). -/
def dropLastBit (s : Bits) : Option Bits :=
  match s with
  | [] => none
  | b :: r => some (b :: r).dropLast

/-- The next bit to shift and the payload left after it, in the kind's order (20_memory.md R57,
42_tap_step.md R146); `none` of an empty payload. -/
def takeBit (o : Order) (p : Bits) : Option (Bit × Bits) :=
  match o with
  | .head =>
    match headBit p, dropHead p with
    | some b, some r => some (b, r)
    | _, _ => none
  | .tail =>
    match lastBit p, dropLastBit p with
    | some b, some r => some (b, r)
    | _, _ => none

/-- The bits of a payload in the order in which TDI carries them (20_memory.md R57). -/
def shiftSequence (o : Order) (p : Bits) : Bits :=
  match o with
  | .head => p
  | .tail => p.reverse

end Sys2Proof.Machine
end

