-- ==== Sys2Proof/Machine/Flags.lean ====
section
/-! DEFINITION. The two flags, `S.pause` and `S.readback` (10_state.md R25, R26): every write of them.
There are no condition codes (R35). -/

namespace Sys2Proof.Machine

/-- The flags as a leg of a shift kind is entered from IDLE (42_tap_step.md R142, R143;
30_encoding.md R74). -/
def flagsOnIdleEntry (r : ShiftRow) (s : State) : State :=
  { s with pause := r.pauseOnEntry.getD s.pause, readback := r.readbackOnEntry.getD s.readback }

/-- `S.readback` as the shortcut starts a leg of a DR kind (42_tap_step.md R151, 92 D10). -/
def readbackOnShortcut (k : Kind) (s : State) : State := { s with readback := k.isReadback }

/-- `S.pause` as the shortcut starts an IR_PAUSE or IR_DIRECT leg: written 1 for IR_PAUSE, else
unchanged (42_tap_step.md R151). -/
def pauseOnShortcut (k : Kind) (s : State) : State :=
  if k = .irPause then { s with pause := true } else s

/-- EXIT1 clears `S.pause` when it takes the PAUSE branch (42_tap_step.md R147). -/
def clearPause (s : State) : State := { s with pause := false }

/-- UPDATE with `S.readback = 1` overwrites the last readout and clears the flag
(42_tap_step.md R150). -/
def consumeReadback (v : Nat) (s : State) : State :=
  if s.readback then { s with lastReadout := some v, readback := false } else s

end Sys2Proof.Machine
end

