-- ==== Sys2Proof/Machine/Ops.lean ====
section
/-! DEFINITION. The shared operations: the fault register, the free draws, the line primitives of
41_phy.md, the leg queue and the Result Store of 20_memory.md. -/

namespace Sys2Proof.Machine

/-- Raising a fault, the block's only kind of exception: the code is written once, "a later fault does
not overwrite it", and nothing else is saved (60_exceptions.md R238). There is no return from it
(R241). -/
def raise (e : ErrorCode) (s : State) : State :=
  match s.fault with
  | none => { s with fault := some e }
  | some _ => s

/-- The draw that comes `k` draws from now. -/
def Draws.peek (free : Nat → Bool) (d : Draws) (k : Nat) : Bool :=
  match d.settled[k]? with
  | some b => b
  | none => free (d.taken + k)

/-- The draws after `n` more were taken. -/
def Draws.skip (n : Nat) (d : Draws) : Draws := ⟨d.settled.drop n, d.taken + n⟩

/-- The TDO sample of the pulse that comes `k` pulses from now (10_state.md R30). -/
def tdoAt (s : State) (k : Nat) : Bit := s.tdoDraws.peek Config.tdoSample k

/-- Whether the line access that comes `k` accesses from now fails (60_exceptions.md R233). -/
def failsAt (s : State) (k : Nat) : Bool := s.ioDraws.peek Config.lineAccessFails k

/-- The next `n` line accesses succeed. -/
def accessesSucceed (n : Nat) (s : State) : Bool := (List.range n).all fun k => !failsAt s k

/-- One line access has been made. -/
def takeAccess (s : State) : State := { s with ioDraws := s.ioDraws.skip 1 }

/-- One TDO sample has been taken. -/
def takeSample (s : State) : State := { s with tdoDraws := s.tdoDraws.skip 1 }

/-- Drives the output lines (41_phy.md R121). -/
def drive (l : Lines) (s : State) : State := { s with lines := l }

/-- Appends an event to the line trace (41_phy.md R124). -/
def emit (e : LineEvent) (s : State) : State := { s with trace := s.trace ++ [e] }

/-- A failed line access: `E_PHY_IO`, any line levels, no event (41_phy.md R129,
60_exceptions.md R233, R238). -/
def failAccess (s : State) : State :=
  raise .phyIo (drive (Config.linesAfterFailure s.ioDraws.taken) (takeAccess s))

/-- How a piece of a step ends: with a value, or stopped by a fault at some access
(42_tap_step.md R140). In both cases the state holds every write made so far. -/
inductive Phy (α : Type) where
  | done (value : α) (s : State)
  | stopped (s : State)
  deriving DecidableEq, Repr

/-- Goes on after a piece that ended with a value; a stopped step makes no further write. -/
def Phy.andThen {α β : Type} (x : Phy α) (f : α → State → Phy β) : Phy β :=
  match x with
  | .done a s => f a s
  | .stopped s => .stopped s

/-- The levels of the three drive phases of a pulse, in order (41_phy.md R121). -/
def pulsePhases (tdi tms srst : Bit) : List Lines :=
  [⟨false, tms, tdi, srst⟩, ⟨true, tms, tdi, srst⟩, ⟨false, tms, tdi, srst⟩]

/-- What a pulse that no access failure stops leaves: the three drive phases, then the event with the
sample taken before them (41_phy.md R121). -/
def pulsed (tdi tms : Bit) (s : State) : State :=
  emit (.pulse tdi tms (tdoAt s 0))
    ((pulsePhases tdi tms s.lines.srst).foldl (fun u l => drive l u) (takeSample (takeAccess s)))

/-- `Pulse(tdi, tms)`: sample TDO, drive the three phases, return the sample (41_phy.md R121). The
pulse is one access that may fail (R129, 60_exceptions.md R233). -/
def pulse (tdi tms : Bit) (s : State) : Phy Bit :=
  if failsAt s 0 then .stopped (failAccess s) else .done (tdoAt s 0) (pulsed tdi tms s)

/-- `PulseW(tdi, tms)`: a pulse whose sample is discarded (41_phy.md R123). -/
def pulseW (tdi tms : Bit) (s : State) : Phy Unit := (pulse tdi tms s).andThen fun _ u => .done () u

/-- `n` pulses one after another, their samples discarded. -/
def pulseTimes (tdi tms : Bit) : Nat → State → Phy Unit
  | 0, s => .done () s
  | n + 1, s => (pulseW tdi tms s).andThen fun _ u => pulseTimes tdi tms n u

/-- What driving SRST leaves when the access succeeds (41_phy.md R127). -/
def srstDriven (level : Bit) (s : State) : State :=
  emit (.srst level) (drive { s.lines with srst := level } (takeAccess s))

/-- Drives SRST and appends the event; one access that may fail (41_phy.md R127, R129). -/
def driveSrst (level : Bit) (s : State) : Phy Unit :=
  if failsAt s 0 then .stopped (failAccess s) else .done () (srstDriven level s)

/-- `Delay(P_T_LONG_DELAY)`: only the event; the model keeps no time (41_phy.md R126, 92 D19). -/
def delayLong (s : State) : State := emit .delayLong s

/-- `Delay(P_T_SETTLE)` (41_phy.md R126). -/
def delaySettle (s : State) : State := emit .delaySettle s

/-- `PulseReset()`: assert low, wait, release high (41_phy.md R127). -/
def pulseReset (s : State) : Phy Unit :=
  (driveSrst false s).andThen fun _ u => driveSrst true (delaySettle u)

/-- `S.state <- t`. -/
def goTo (t : TapState) (s : State) : State := { s with tap := t.code }

/-- `QPop()`: the queue head becomes the current leg; of an empty queue, `S.cur <- none`
(20_memory.md R52). -/
def qPop (s : State) : State :=
  match s.queue with
  | [] => { s with cur := none }
  | i :: q => { s with cur := some i, queue := q }

/-- `QPeekKind()` (20_memory.md R53). -/
def qPeekKind (s : State) : Option Kind :=
  match s.queue with
  | [] => none
  | i :: _ => some i.kind

/-- P_MAX_PAYLOAD_BITS, at most 2^28 - 1 because of the length field (00_scope.md R9). -/
def payloadLimit (p : Params) : Nat := min p.maxPayloadBits 268435455

/-- The Result Store of an implementation with a finite capacity is full (20_memory.md R55). -/
def resultsFull (s : State) : Bool :=
  match s.params.resultCapacity with
  | none => false
  | some c => decide (c ≤ s.results.length)

/-- The captured value at UPDATE: `val(S.acc)` (42_tap_step.md R150), and a free value where
`val("")` is undefined (00_scope.md R11). -/
def captured (s : State) : Nat :=
  match s.acc with
  | [] => Config.valueOfEmpty s.results.length
  | b :: r => val (b :: r)

/-- UPDATE, first part: the value is appended, the readback flag consumed, the accumulator cleared
(42_tap_step.md R150). -/
def retire (s : State) : State :=
  let v := captured s
  let s1 := consumeReadback v { s with results := s.results ++ [v] }
  { s1 with acc := [] }

/-- How the leg at the queue head takes the shortcut, if it does (42_tap_step.md R151): a DR kind
takes it when it is in P_SHORTCUT_DR_KINDS. -/
def shortcutOf (p : Params) (k : Kind) : Shortcut :=
  match kindRow k with
  | .control _ => .never
  | .shift r =>
    match r.shortcut with
    | .never => .never
    | .ir => .ir
    | .dr => if p.shortcutDrKinds.contains k then .dr else .never

/-- The engine is drained (45_sequencer.md R206). -/
def drained (s : State) : Bool :=
  s.queue.isEmpty && s.cur.isNone && decide (s.tap = TapState.idle.code)

/-- `S.state` is RESET or IDLE (45_sequencer.md R202). -/
def resting (s : State) : Bool :=
  decide (s.tap = TapState.reset.code) || decide (s.tap = TapState.idle.code)

end Sys2Proof.Machine
end

