-- ==== Sys2Proof/Machine/Tap.lean ====
section
/-! DEFINITION. The TAP state machine: `Step()` of 42_tap_step.md, one definition for each state's
branch, the actions of the control kinds (44_control_legs.md), and a leg's run of steps to its
completion (43_shift_legs.md R170). The Boolean a branch ends with is the completion bit (R154). -/

namespace Sys2Proof.Machine

/-- `StepRESET()` (42_tap_step.md R141). -/
def stepReset (s : State) : Phy Bool :=
  (pulseW false false s).andThen fun _ u => .done false (goTo .idle u)

/-- `StepIDLE()` with a leg of a shift kind pending (42_tap_step.md R142, R143): the row's number of
mode=1 pulses, then the flags, then SELECT. -/
def enterFromIdle (r : ShiftRow) (s : State) : Phy Bool :=
  (pulseTimes false true r.entryPulses s).andThen fun _ u =>
    .done false (goTo .select (flagsOnIdleEntry r u))

/-- The RESET leg's action: twelve mode=1 pulses (44_control_legs.md R190). -/
def resetBurst (s : State) : Phy Bool :=
  (pulseTimes false true 12 s).andThen fun _ u => .done true (qPop (goTo .reset u))

/-- The LONG_DELAY leg's action (44_control_legs.md R192). -/
def longDelayAction (s : State) : Phy Bool := .done true (qPop (delayLong s))

/-- The IDLE leg's action (44_control_legs.md R193). -/
def idleClock (s : State) : Phy Bool :=
  (pulseW false false s).andThen fun _ u => .done true (qPop u)

/-- `StepIDLE()` with a control kind pending (42_tap_step.md R152). -/
def controlStep (c : ControlAction) (s : State) : Phy Bool :=
  match c with
  | .resetBurst => resetBurst s
  | .longDelay => longDelayAction s
  | .idleClock => idleClock s

/-- `StepIDLE()` with no leg pending: pop, or the quiescent hold (42_tap_step.md R153). -/
def idleNoLeg (s : State) : Phy Bool :=
  if s.queue.isEmpty then (pulseW false false s).andThen fun _ u => .done false u
  else .done false (qPop s)

/-- `StepIDLE()` (42_tap_step.md R142, R143, R152, R153). -/
def stepIdle (s : State) : Phy Bool :=
  match s.cur with
  | none => idleNoLeg s
  | some i =>
    match kindRow i.kind with
    | .shift r => enterFromIdle r s
    | .control c => controlStep c s

/-- `StepSELECT()` (42_tap_step.md R144). -/
def stepSelect (s : State) : Phy Bool :=
  (pulseW false false s).andThen fun _ u => .done false (goTo .capture u)

/-- `StepCAPTURE()` (42_tap_step.md R145). -/
def stepCapture (s : State) : Phy Bool :=
  (pulseW false false s).andThen fun _ u => .done false (goTo .shift { u with acc := [] })

/-- A sample kept by SHIFT is prepended to the accumulator (42_tap_step.md R146). -/
def keepSample (keep : Bool) (t : Bit) (s : State) : State :=
  if keep then { s with acc := t :: s.acc } else s

/-- SHIFT of bit `b` of leg `i`, whose payload becomes `rest` (42_tap_step.md R146): TMS is 1 on the
final bit, which also ends the leg's stay in `S.cur`. -/
def shiftBit (r : ShiftRow) (i : Instr) (b : Bit) (rest : Bits) (s : State) : Phy Bool :=
  let final := decide (i.payload.length = 1)
  (pulse b final s).andThen fun t u =>
    let v := keepSample (if final then r.sampleFinal else r.sampleNonFinal) t u
    if final then .done false (goTo .exit1 { v with cur := none })
    else .done false { v with cur := some (i.withPayload rest) }

/-- `StepSHIFT()` (42_tap_step.md R146); without a pending shift leg that has a bit left it raises
E_INTERNAL (R156). -/
def stepShift (s : State) : Phy Bool :=
  match s.cur with
  | none => .stopped (raise .internal s)
  | some i =>
    match kindRow i.kind with
    | .control _ => .stopped (raise .internal s)
    | .shift r =>
      match takeBit r.order i.payload with
      | none => .stopped (raise .internal s)
      | some (b, rest) => shiftBit r i b rest s

/-- `StepEXIT1()` (42_tap_step.md R147). -/
def stepExit1 (s : State) : Phy Bool :=
  if s.pause then (pulseW false false s).andThen fun _ u => .done false (clearPause (goTo .pause u))
  else (pulseW false true s).andThen fun _ u => .done false (goTo .update u)

/-- `StepPAUSE()` (42_tap_step.md R148). -/
def stepPause (s : State) : Phy Bool :=
  (pulseW false true s).andThen fun _ u => .done false (goTo .exit2 u)

/-- `StepEXIT2()` (42_tap_step.md R149). -/
def stepExit2 (s : State) : Phy Bool :=
  (pulseW false true s).andThen fun _ u => .done false (goTo .update u)

/-- The shortcut into a leg of a DR kind: pop, readback flag, one pulse (42_tap_step.md R151). -/
def shortcutDr (k : Kind) (s : State) : Phy Bool :=
  (pulseW false true (readbackOnShortcut k (qPop s))).andThen fun _ u => .done true (goTo .select u)

/-- The shortcut into an IR_PAUSE or IR_DIRECT leg: the extra pulse, pause flag, pop, one pulse
(42_tap_step.md R151). -/
def shortcutIr (k : Kind) (s : State) : Phy Bool :=
  (pulseW false true s).andThen fun _ u =>
    (pulseW false true (qPop (pauseOnShortcut k u))).andThen fun _ w => .done true (goTo .select w)

/-- UPDATE's return to IDLE (42_tap_step.md R151). -/
def returnToIdle (s : State) : Phy Bool :=
  (pulseW false false s).andThen fun _ u => .done true (goTo .idle u)

/-- `StepUPDATE()`, second part: the shortcut or the return to IDLE (42_tap_step.md R151). -/
def leaveUpdate (s : State) : Phy Bool :=
  match qPeekKind s with
  | none => returnToIdle s
  | some k =>
    match shortcutOf s.params k with
    | .never => returnToIdle s
    | .dr => shortcutDr k s
    | .ir => shortcutIr k s

/-- `StepUPDATE()` (42_tap_step.md R150, R151): a full Result Store is checked before the append
(60_exceptions.md R239). -/
def stepUpdate (s : State) : Phy Bool :=
  if resultsFull s then .stopped (raise .resultOverflow s) else leaveUpdate (retire s)

/-- The branch of `Step()` for `S.state` (42_tap_step.md R140). -/
def stepBranch (s : State) : Phy Bool :=
  match TapState.ofCode s.tap with
  | some .reset => stepReset s
  | some .idle => stepIdle s
  | some .select => stepSelect s
  | some .capture => stepCapture s
  | some .shift => stepShift s
  | some .exit1 => stepExit1 s
  | some .pause => stepPause s
  | some .exit2 => stepExit2 s
  | some .update => stepUpdate s
  | none => .stopped (raise .internal s)

/-- The state and the completion bit a step ends with; a stopped step completes no leg. -/
def Phy.finish (x : Phy Bool) : State × Bool :=
  match x with
  | .done c s => (s, c)
  | .stopped s => (s, false)

/-- `Step()` (42_tap_step.md R140): in a faulted session no step is enabled (60_exceptions.md R238). -/
def tapStep (s : State) : State × Bool :=
  if s.fault.isSome then (s, false) else (stepBranch s).finish

/-- The state that `n` calls of `Step()` lead to (42_tap_step.md R140). -/
def tapSteps : Nat → State → State
  | 0, s => s
  | n + 1, s => tapSteps n (tapStep s).1

/-- Steps until one of them completes a leg or faults, at most `fuel` of them (42_tap_step.md R154). -/
def runSteps : Nat → State → State
  | 0, s => s
  | fuel + 1, s =>
    let r := tapStep s
    if r.2 || r.1.fault.isSome then r.1 else runSteps fuel r.1

/-- More steps than a leg needs with `n` payload bits: from RESET, n bits and eight other steps
(43_shift_legs.md R170, 42_tap_step.md R141). -/
def legFuel (i : Instr) : Nat := i.payload.length + 8

/-- Runs leg `i` as the current leg, from the TAP state the engine is in to the step that completes it
(43_shift_legs.md R170, 44_control_legs.md). In a faulted session no step is enabled
(60_exceptions.md R238). -/
def runLeg (i : Instr) (s : State) : Host.Outcome State Fault Refusal :=
  if s.fault.isSome then .fault .noStepEnabled
  else .next (runSteps (legFuel i) { s with cur := some i })

end Sys2Proof.Machine
end

