-- ==== Sys2Proof/Machine/Control.lean ====
section
/-! DEFINITION. The meanings of the three control legs (44_control_legs.md R190, R192, R193). Their payload
is kept with the leg and never read (30_encoding.md R77). -/

namespace Sys2Proof.Machine

/-- RESET: twelve mode=1 pulses, then state RESET and the next leg popped (44_control_legs.md R190). -/
def execReset (p : Bits) (s : State) : Host.Outcome State Fault Refusal := runLeg (.reset p) s

/-- LONG_DELAY: one wait, no pulse, then the next leg popped (R192). -/
def execLongDelay (p : Bits) (s : State) : Host.Outcome State Fault Refusal := runLeg (.longDelay p) s

/-- IDLE: one mode=0 pulse, then the next leg popped (R193). -/
def execIdle (p : Bits) (s : State) : Host.Outcome State Fault Refusal := runLeg (.idle p) s

end Sys2Proof.Machine
end

