-- ==== Sys2Proof/Machine/Shift.lean ====
section
/-! DEFINITION. The meanings of the seven shift legs (43_shift_legs.md R171 to R177). Each is the run of
steps R170 of its own leg; what belongs to one kind alone is its row of 30_encoding.md R74, which the
steps read. -/

namespace Sys2Proof.Machine

/-- DR: one entry pulse, tail first, every pulse sampled (43_shift_legs.md R171). -/
def execDr (p : Bits) (s : State) : Host.Outcome State Fault Refusal := runLeg (.dr p) s

/-- IR: two entry pulses, pause flag cleared, tail first, never by the shortcut (R172). -/
def execIr (p : Bits) (s : State) : Host.Outcome State Fault Refusal := runLeg (.ir p) s

/-- IR_PAUSE: as IR, pause flag set, out through PAUSE and EXIT2 (R173). -/
def execIrPause (p : Bits) (s : State) : Host.Outcome State Fault Refusal := runLeg (.irPause p) s

/-- IR_DIRECT: as IR, and eligible for the shortcut (R174). -/
def execIrDirect (p : Bits) (s : State) : Host.Outcome State Fault Refusal := runLeg (.irDirect p) s

/-- DR_CONFIG: head first, only the final bit sampled (R175). -/
def execDrConfig (p : Bits) (s : State) : Host.Outcome State Fault Refusal := runLeg (.drConfig p) s

/-- DR_CONFIG_READBACK: head first, every pulse sampled, the last readout written (R176). -/
def execDrConfigReadback (p : Bits) (s : State) : Host.Outcome State Fault Refusal :=
  runLeg (.drConfigReadback p) s

/-- DR_RECOVERY_READBACK: tail first, every pulse sampled, the last readout written (R177). -/
def execDrRecoveryReadback (p : Bits) (s : State) : Host.Outcome State Fault Refusal :=
  runLeg (.drRecoveryReadback p) s

end Sys2Proof.Machine
end

