-- ==== Sys2Proof/Machine/Dispatch.lean ====
section
/-! DEFINITION. One arm for each leg kind (30_encoding.md R73). -/

namespace Sys2Proof.Machine

def exec (i : Instr) (s : State) : Host.Outcome State Fault Refusal :=
  match i with
  | .dr p => Sys2Proof.Machine.execDr p s
  | .ir p => Sys2Proof.Machine.execIr p s
  | .reset p => Sys2Proof.Machine.execReset p s
  | .longDelay p => Sys2Proof.Machine.execLongDelay p s
  | .idle p => Sys2Proof.Machine.execIdle p s
  | .irPause p => Sys2Proof.Machine.execIrPause p s
  | .irDirect p => Sys2Proof.Machine.execIrDirect p s
  | .drConfig p => Sys2Proof.Machine.execDrConfig p s
  | .drConfigReadback p => Sys2Proof.Machine.execDrConfigReadback p s
  | .drRecoveryReadback p => Sys2Proof.Machine.execDrRecoveryReadback p s

end Sys2Proof.Machine
end

