-- ==== Sys2Proof/WellFormed.lean ====
section
/-! DEFINITION. What ENQUEUE accepts of a leg whose kind is one of the ten (30_encoding.md R76, R77). -/

namespace Sys2Proof

/-- A shift leg needs at least one payload bit, "zero-length payloads are not valid"
(30_encoding.md R76); a control leg may have none (R77). -/
def Instr.hasBits (i : Instr) : Bool := !i.kind.isShift || !i.payload.isEmpty

/-- No leg is longer than the limit, P_MAX_PAYLOAD_BITS (30_encoding.md R76, R77). -/
def Instr.fits (limit : Nat) (i : Instr) : Bool := decide (i.payload.length ≤ limit)

/-- A leg is well-formed under a payload limit when ENQUEUE accepts it (30_encoding.md R76). -/
def Instr.wf (limit : Nat) (i : Instr) : Bool := i.hasBits && i.fits limit

end Sys2Proof
end

