-- ==== Sys2Proof/Machine/Sequencer.lean ====
section
/-! DEFINITION. The sequencer and the host interface (45_sequencer.md): the host operations, the stop rule
of ADVANCE, and what one step of the machine is. -/

namespace Sys2Proof.Machine

/-- The host gets a reply. -/
def reply (r : Reply) (s : State) : State := { s with replies := s.replies ++ [r] }

/-- A refusal: the code is returned and nothing in the session changes (60_exceptions.md R231). -/
def refuse (e : ErrorCode) (s : State) : State := reply (.refused e) s

/-- The checks of ENQUEUE on kind and length, in order (45_sequencer.md R201). -/
def enqueueCheck (p : Params) (k : Kind) (len : Nat) : Option ErrorCode :=
  if k.isShift && decide (len = 0) then some .emptyPayload
  else if payloadLimit p < len then some .payloadTooLong
  else none

/-- The leg goes to the tail of the queue (45_sequencer.md R201, 20_memory.md R50). -/
def enqueue (i : Instr) (s : State) : State := reply .accepted { s with queue := s.queue ++ [i] }

/-- `ENQUEUE(kind, payload)` (45_sequencer.md R201). -/
def enqueueLeg (i : Instr) (s : State) : State :=
  if s.fault.isSome then refuse .faulted s
  else
    match enqueueCheck s.params i.kind i.payload.length with
    | some e => refuse e s
    | none => enqueue i s

/-- `ENQUEUE(descriptor)` (45_sequencer.md R201). Words that pass the header's checks but are not the
payload words the header calls for are no descriptor, and have no meaning (30_encoding.md R71). -/
def enqueueDescriptor (h : Word) (ws : List Word) (s : State) : Host.Outcome State Fault Refusal :=
  if s.fault.isSome then .next (refuse .faulted s)
  else
    match Kind.ofCode (headerKind h) with
    | none => .next (refuse .badKind s)
    | some k =>
      match enqueueCheck s.params k (headerLen h) with
      | some e => .next (refuse e s)
      | none =>
        match decode (h :: ws) with
        | .ok (i, []) => .next (enqueue i s)
        | .ok (_, _ :: _) => .refused .malformedDescriptor
        | .error _ => .refused .malformedDescriptor

/-- ADVANCE returns; the host sees the fault register (45_sequencer.md R202, R211). -/
def endCall (s : State) : State := reply (.advanced s.fault) { s with call := none }

/-- `ADVANCE()` is called (45_sequencer.md R202): refused in a faulted session; with nothing pending
and nothing queued, one step and back (R203); else the loop begins with `n = 0`. -/
def advance (s : State) : State :=
  if s.fault.isSome then refuse .faulted s
  else if resting s && s.cur.isNone && s.queue.isEmpty then endCall (tapStep s).1
  else { s with call := some 0 }

/-- The loop of ADVANCE after a step that ended with completion bit `c`: a fault ends the call at once;
`n <- n + c`; the call ends when a leg has completed and the state is RESET or IDLE
(45_sequencer.md R202). -/
def afterStep (n : Nat) (c : Bool) (s : State) : State :=
  if s.fault.isSome then endCall s
  else if decide (1 ≤ n + c.toNat) && resting s then endCall s
  else { s with call := some (n + c.toNat) }

/-- `PULSE_RESET` (45_sequencer.md R207). R207 and R212 name nothing that it hands back, with or without a
failed access: DESIGN CHOICE, the fault register at its return (log entry 31). -/
def pulseResetOp (s : State) : State :=
  if s.fault.isSome then refuse .faulted s
  else
    match pulseReset s with
    | .done _ u => reply (.resetPulsed u.fault) u
    | .stopped u => reply (.resetPulsed u.fault) u

/-- `READ_RESULTS` (45_sequencer.md R208). -/
def readResults (s : State) : State := reply (.results s.results) s

/-- `READ_LAST_READOUT`, refused while nothing was read out (45_sequencer.md R208,
60_exceptions.md R236). -/
def readLastReadout (s : State) : State :=
  match s.lastReadout with
  | none => refuse .noReadout s
  | some v => reply (.lastReadout v) s

/-- `READ_STATUS` (45_sequencer.md R208). -/
def readStatus (s : State) : State :=
  reply (.status s.tap s.cur.isSome s.queue.length (drained s) s.fault) s

/-- A new session: every register at its reset value (70_reset_and_hazards.md R260, R261). The host,
what it was told, the parameters and the draws go on. -/
def newSession (s : State) : State :=
  { State.reset with host := s.host, replies := s.replies, params := s.params,
                     tdoDraws := s.tdoDraws, ioDraws := s.ioDraws }

/-- One pass of the host's loop DRAIN (45_sequencer.md R206): ADVANCE while neither faulted nor drained,
with the loop still ahead; otherwise the loop is over. `rest` is what the host does after it. -/
def drainPass (rest : List HostAction) (s : State) : State :=
  if s.fault.isSome || drained s then { s with host := rest } else advance s

/-- A host action, taken up when the host has its turn. An operation received while an ADVANCE is in
progress is refused with E_BUSY before any other check (45_sequencer.md R209, 60_exceptions.md
R237, R239). -/
def hostAction (a : HostAction) (s : State) : Host.Outcome State Fault Refusal :=
  if s.call.isSome then .next (refuse .busy s)
  else
    match a with
    | .enqueueLeg i => .next (enqueueLeg i s)
    | .enqueue h ws => enqueueDescriptor h ws s
    | .advance => .next (advance s)
    | .pulseReset => .next (pulseResetOp s)
    | .readResults => .next (readResults s)
    | .readLastReadout => .next (readLastReadout s)
    | .readStatus => .next (readStatus s)
    | .drain => .next (drainPass s.host s)
    | .newSession => .next (newSession s)

/-- The host's turn: its next action. DRAIN stays ahead of the host until its loop is over. With no
action left no agent has an enabled step (00_scope.md R13, 45_sequencer.md R210). -/
def hostTurn (s : State) : Host.Outcome State Fault Refusal :=
  match s.host with
  | [] => .fault .stuck
  | .drain :: rest => .next (drainPass rest s)
  | .enqueueLeg i :: rest => hostAction (.enqueueLeg i) { s with host := rest }
  | .enqueue h ws :: rest => hostAction (.enqueue h ws) { s with host := rest }
  | .advance :: rest => hostAction .advance { s with host := rest }
  | .pulseReset :: rest => hostAction .pulseReset { s with host := rest }
  | .readResults :: rest => hostAction .readResults { s with host := rest }
  | .readLastReadout :: rest => hostAction .readLastReadout { s with host := rest }
  | .readStatus :: rest => hostAction .readStatus { s with host := rest }
  | .newSession :: rest => hostAction .newSession { s with host := rest }

/-- The leg the engine runs next and the state with that leg current: the pending leg, or in IDLE the
queue head, which the pop step of 42_tap_step.md R153 takes without a pulse (43_shift_legs.md
R170). -/
def fetch (s : State) : Option (Instr × State) :=
  match s.cur with
  | some i => some (i, s)
  | none =>
    match s.queue with
    | [] => none
    | i :: _ => if s.tap = TapState.idle.code then some (i, qPop s) else none

/-- The engine's turn in an ADVANCE whose count is `n`: a whole leg when there is one to run, else one
`Step()`; then the loop's bookkeeping (45_sequencer.md R202). -/
def engineTurn (n : Nat) (s : State) : Host.Outcome State Fault Refusal :=
  if s.fault.isSome then .next (endCall s)
  else
    match fetch s with
    | none => .next (afterStep n (tapStep s).2 (tapStep s).1)
    | some (i, u) =>
      match exec i u with
      | .next t => .next (afterStep n true t)
      | .fault r => .fault r
      | .refused r => .refused r

/-- One turn: the engine's while an ADVANCE is in progress, else the host's (00_scope.md R7,
45_sequencer.md R209). -/
def turn (s : State) : Host.Outcome State Fault Refusal :=
  match s.call with
  | none => hostTurn s
  | some n => engineTurn n s

/-- Leg `i` stands where the engine takes its next leg, in an ADVANCE in progress. -/
def placeLeg (i : Instr) (s : State) : State :=
  { s with tap := TapState.idle.code, cur := none, queue := i :: s.queue, fault := none,
           call := some (s.call.getD 0) }

/-- Words that are no leg can stand only before ENQUEUE: the host's next action is to enqueue them. -/
def placeWords (h : Word) (ws : List Word) (s : State) : State :=
  { s with call := none, host := .enqueue h ws :: s.host }

end Sys2Proof.Machine
end

