-- ==== Sys2Proof/Machine/Step.lean ====
section
/-! DEFINITION. One step of the machine, and an instruction word placed where the next step fetches. -/

namespace Sys2Proof.Machine

/-- One step: one turn of the engine or of the host (00_scope.md R7). -/
def step (s : State) : Host.Outcome State Fault Refusal := turn s

/-- The state in which the very next step runs the leg of an opcode table word: the leg is at the queue
head, an ADVANCE is in progress and the engine is in IDLE with no leg pending. It stands for the
host's ENQUEUE and ADVANCE. -/
def State.withFetchWord (s : State) (nbits w : Nat) : State :=
  match decodeTableWord nbits w with
  | some i => placeLeg i s
  | none => placeWords (tableWord nbits w 0) [] s

end Sys2Proof.Machine
end

