-- ==== Sys2Proof/Machine/Codec.lean ====
section
/-! DEFINITION. The bit-vector codec (40_codec.md): a helper unit without state, which the host uses to
build payloads and the engine never calls (R107); and the numeric leg notation of 30_encoding.md
R80. -/

namespace Sys2Proof.Machine

/-- The loop of R100: `w` times, the low bit of `x` is prepended and `x` halved. -/
def fixedBits : Nat → Nat → Bits → Bits
  | 0, _, s => s
  | w + 1, x, s => fixedBits w (x / 2) (decide (x % 2 = 1) :: s)

/-- `to_fixed_width_bits(v, w)` (40_codec.md R100), refused when the value does not fit (R101). -/
def toFixedWidthBits (v w : Nat) : Except ErrorCode Bits :=
  if v < 2 ^ w then .ok (fixedBits w v []) else .error .codecRange

/-- `rev8(x)[k] = x[7-k]` (40_codec.md R103): listed head first, the bits of the result are
`x[0], ..., x[7]`. It is an involution (R106). -/
def rev8 (x : Byte) : Byte := BitVec.ofNat 8 (val ((List.range 8).map fun k => x.getLsbD k))

/-- Byte `b` of chunk `q` of the reversed block, `m` bytes a chunk (40_codec.md R103); `b ↦ m - 1 - b` is an
involution (R106). -/
def reversedByte (block : List Byte) (m q b : Nat) : Byte :=
  rev8 (block.getD (q * m + (m - 1 - b)) 0#8)

/-- The block with every chunk of `m` bytes reversed (40_codec.md R103). Reversing twice gives the block back
(R106): `rev8` and `b ↦ m - 1 - b` are involutions. -/
def reverseChunks (block : List Byte) (m : Nat) : List Byte :=
  (List.range (block.length / m)).flatMap fun q =>
    (List.range m).map fun b => reversedByte block m q b

/-- The arguments `reverse_bit_order` admits besides `c = 0` (40_codec.md R104). -/
def chunkAdmitted (block : List Byte) (c : Int) : Bool :=
  decide (0 < c) && decide (c % 8 = 0) && decide (block.length % (c / 8).toNat = 0)

/-- `reverse_bit_order(block, c)`, chunk width 32 by default (40_codec.md R103, R104); an
involution wherever it does not refuse (R106). -/
def reverseBitOrder (block : List Byte) (c : Int := 32) : Except ErrorCode (List Byte) :=
  if c = 0 then .ok block
  else if chunkAdmitted block c then .ok (reverseChunks block (c / 8).toNat)
  else .error .codecChunk

/-- `KIND#w(v)`: the leg of kind `k` whose payload is `to_fixed_width_bits(v, w)`, refused where that
is (30_encoding.md R80). -/
def numericLeg (k : Kind) (w v : Nat) : Except ErrorCode Instr :=
  match toFixedWidthBits v w with
  | .ok p => .ok (Instr.ofKind k p)
  | .error e => .error e

end Sys2Proof.Machine
end

