-- ==== Sys2Proof/Machine/Ieee.lean ====
section
/-! DEFINITION. The informative IEEE 1149.1 controller of 42_tap_step.md section 4, as the vocabulary of
claims about a target (70_reset_and_hazards.md R266). It is general knowledge (93 GK1), no part of
TAPCTL, and no step reads it. -/

namespace Sys2Proof.Machine

/-- The sixteen controller states. -/
inductive IeeeState where
  | testLogicReset
  | runTestIdle
  | selectDr
  | captureDr
  | shiftDr
  | exit1Dr
  | pauseDr
  | exit2Dr
  | updateDr
  | selectIr
  | captureIr
  | shiftIr
  | exit1Ir
  | pauseIr
  | exit2Ir
  | updateIr
  deriving DecidableEq, Repr

/-- The next state on a rising TCK edge with the given TMS (42_tap_step.md section 4). -/
def ieeeNext (tms : Bit) : IeeeState → IeeeState
  | .testLogicReset => if tms then .testLogicReset else .runTestIdle
  | .runTestIdle => if tms then .selectDr else .runTestIdle
  | .selectDr => if tms then .selectIr else .captureDr
  | .captureDr => if tms then .exit1Dr else .shiftDr
  | .shiftDr => if tms then .exit1Dr else .shiftDr
  | .exit1Dr => if tms then .updateDr else .pauseDr
  | .pauseDr => if tms then .exit2Dr else .pauseDr
  | .exit2Dr => if tms then .updateDr else .shiftDr
  | .updateDr => if tms then .selectDr else .runTestIdle
  | .selectIr => if tms then .testLogicReset else .captureIr
  | .captureIr => if tms then .exit1Ir else .shiftIr
  | .shiftIr => if tms then .exit1Ir else .shiftIr
  | .exit1Ir => if tms then .updateIr else .pauseIr
  | .pauseIr => if tms then .exit2Ir else .pauseIr
  | .exit2Ir => if tms then .updateIr else .shiftIr
  | .updateIr => if tms then .selectDr else .runTestIdle

/-- After the line events a controller that was in `q` may be in `r`. Each pulse is one rising edge of TCK
(41_phy.md R122), and a wait makes no edge (R126). What a drive of SRST does to the controller is unknown: it
may be in any state afterwards, which is what a RESET leg ends (70_reset_and_hazards.md R267, the spec's
decision D36, log entry 30). -/
def ieeeAfter : List LineEvent → IeeeState → IeeeState → Prop
  | [], q, r => r = q
  | .pulse _ tms _ :: es, q, r => ieeeAfter es (ieeeNext tms q) r
  | .delayLong :: es, q, r => ieeeAfter es q r
  | .srst _ :: es, _, r => ∃ q, ieeeAfter es q r
  | .delaySettle :: es, q, r => ieeeAfter es q r

/-- The line events a state's trace has gained over an earlier one. -/
def gained (before after : State) : List LineEvent := after.trace.drop before.trace.length

/-- Between two states of a session the target's controller may have gone from `q` to `r`. Where an access
failed in between, the target's TAP state is unknown: it may be in any state, whatever the pulses before the
failure made of it (41_phy.md R129, 93 U10). Otherwise it follows the line events. -/
def targetAfter (before after : State) (q r : IeeeState) : Prop :=
  (before.fault = none ∧ after.fault = some .phyIo) ∨ ieeeAfter (gained before after) q r

/-- The controller states an engine state stands for: one, or one on each path (42_tap_step.md
section 4, 10_state.md R22). -/
def ieeeOf (dr : Bool) : TapState → IeeeState
  | .reset => .testLogicReset
  | .idle => .runTestIdle
  | .select => if dr then .selectDr else .selectIr
  | .capture => if dr then .captureDr else .captureIr
  | .shift => if dr then .shiftDr else .shiftIr
  | .exit1 => if dr then .exit1Dr else .exit1Ir
  | .pause => if dr then .pauseDr else .pauseIr
  | .exit2 => if dr then .exit2Dr else .exit2Ir
  | .update => if dr then .updateDr else .updateIr

end Sys2Proof.Machine
end

