-- ==== Sys2Proof/Machine/LegForm.lean ====
section
/-! DEFINITION. The whole effect of a shift leg in closed form (43_shift_legs.md R170), written from that
rule and not from the steps: the vocabulary of claims that a leg's run of steps comes to this. No
step reads it. -/

namespace Sys2Proof.Machine

/-- The values a pulse drives: TDI, then TMS. -/
abbrev Drive := Bit × Bit

/-- The configuration kinds (00_scope.md glossary). -/
def isConfig (k : Kind) : Bool := decide (k = .drConfig) || decide (k = .drConfigReadback)

/-- `b_1 .. b_n`: the payload in shift order (20_memory.md R57, 43_shift_legs.md R170). -/
def legBits (k : Kind) (p : Bits) : Bits := if isConfig k then p else p.reverse

/-- The entry pulses from IDLE (43_shift_legs.md R170 (a)). -/
def entryDrives (k : Kind) : List Drive :=
  if k.isDr then [(false, true)] else [(false, true), (false, true)]

/-- The SHIFT pulses: TMS 1 on the last bit only (43_shift_legs.md R170 (b)). -/
def shiftDrives : Bits → List Drive
  | [] => []
  | [b] => [(b, true)]
  | b :: c :: r => (b, false) :: shiftDrives (c :: r)

/-- The pulses from EXIT1 to UPDATE (43_shift_legs.md R170 (c)): IR_PAUSE passes through PAUSE and
EXIT2. -/
def exitDrives (k : Kind) : List Drive :=
  if k = .irPause then [(false, false), (false, true), (false, true)] else [(false, true)]

/-- The pulses from SELECT to UPDATE (43_shift_legs.md R170). -/
def bodyDrives (k : Kind) (p : Bits) : List Drive :=
  [(false, false), (false, false)] ++ shiftDrives (legBits k p) ++ exitDrives k

/-- How the leg at the queue head leaves UPDATE by the shortcut (42_tap_step.md R151): the DR kinds of
P_SHORTCUT_DR_KINDS, and IR_PAUSE and IR_DIRECT; plain IR and the control kinds never. -/
def headShortcut (s : State) : Shortcut :=
  match s.queue with
  | [] => .never
  | j :: _ =>
    if j.kind.isDr && s.params.shortcutDrKinds.contains j.kind then .dr
    else if j.kind = .irPause ∨ j.kind = .irDirect then .ir
    else .never

/-- The pulses of the UPDATE step (42_tap_step.md R151). -/
def leaveDrives (s : State) : List Drive :=
  match headShortcut s with
  | .never => [(false, false)]
  | .dr => [(false, true)]
  | .ir => [(false, true), (false, true)]

/-- The events of pulses made from state `s` on: the k-th of them samples the k-th draw. -/
def pulseEvents (s : State) (ds : List Drive) : List LineEvent :=
  ds.mapIdx fun k d => .pulse d.1 d.2 (tdoAt s k)

/-- The line levels after pulses (41_phy.md R121). -/
def linesAfter (l : Lines) (ds : List Drive) : Lines :=
  match ds.getLast? with
  | none => l
  | some d => ⟨false, d.2, d.1, l.srst⟩

/-- What pulses that all succeed leave: events, line levels, and that many draws taken. -/
def afterPulses (ds : List Drive) (s : State) : State :=
  { s with trace := s.trace ++ pulseEvents s ds, lines := linesAfter s.lines ds,
           tdoDraws := s.tdoDraws.skip ds.length, ioDraws := s.ioDraws.skip ds.length }

/-- `t_1 .. t_n`: the samples of `n` SHIFT pulses that come after `e` entry pulses and the two of
SELECT and CAPTURE (43_shift_legs.md R170). -/
def shiftSamples (s : State) (e n : Nat) : Bits := (List.range n).map fun j => tdoAt s (e + 2 + j)

/-- The kept samples, latest first: all of them, but only the last for DR_CONFIG
(43_shift_legs.md R170, R175). -/
def keptSamples (k : Kind) (s : State) (e n : Nat) : Bits :=
  if k = .drConfig then [tdoAt s (e + 2 + (n - 1))] else (shiftSamples s e n).reverse

/-- All the pulses of a leg that is entered by the pulses `pre` from state `s`. -/
def legDrives (k : Kind) (p : Bits) (pre : List Drive) (s : State) : List Drive :=
  pre ++ bodyDrives k p ++ leaveDrives s

/-- The state after a whole shift leg entered by the pulses `pre` from state `s`
(43_shift_legs.md R170 to R177): its capture retired, the flags 0 but for those of a leg the shortcut
started, that leg popped, every other register as it was. -/
def legEnd (k : Kind) (p : Bits) (pre : List Drive) (s : State) : State :=
  let v := val (keptSamples k s pre.length p.length)
  let t := { afterPulses (legDrives k p pre s) s with
    acc := [], results := s.results ++ [v],
    lastReadout := if k.isReadback then some v else s.lastReadout }
  match headShortcut s with
  | .never => { t with tap := TapState.idle.code, cur := none, pause := false, readback := false }
  | .dr =>
    { t with tap := TapState.select.code, cur := s.queue.head?, queue := s.queue.tail, pause := false,
             readback := (s.queue.head?.map fun j => j.kind.isReadback).getD false }
  | .ir =>
    { t with tap := TapState.select.code, cur := s.queue.head?, queue := s.queue.tail,
             pause := (s.queue.head?.map fun j => decide (j.kind = .irPause)).getD false,
             readback := false }

end Sys2Proof.Machine
end

