-- ==== Sys2Proof/Machine/Mnemonic.lean ====
section
/-! DEFINITION. The instruction mnemonic table (46_mnemonic.md), a constant function that no step reads
(R223), and the leg syntax of 00_scope.md R14 and 30_encoding.md R79. -/

namespace Sys2Proof.Machine

/-- The name a table gives a code. -/
def tableName (table : List (Nat × String)) (code : Nat) : Option String := table.lookup code

/-- `decode_mnemonic(code)` with `table` for P_MNEMONIC (46_mnemonic.md R220): two fixed entries, then
the table's, and `""` for every other code, codes of more than 6 bits among them. -/
def decodeMnemonic (table : List (Nat × String)) (code : Nat) : String :=
  if code = 9 then "IDCODE"
  else if code = 63 then "BYPASS"
  else if code < 64 then (tableName table code).getD ""
  else ""

/-- What P_MNEMONIC is required to be (46_mnemonic.md R220, R221): 6-bit codes with non-empty names,
no code and no name twice, the two fixed entries left alone. -/
def admissibleMnemonics (table : List (Nat × String)) : Bool :=
  (table.all fun e => decide (e.1 < 64) && decide (e.2 ≠ "") && decide (e.1 ≠ 9) && decide (e.1 ≠ 63)
      && decide (e.2 ≠ "IDCODE") && decide (e.2 ≠ "BYPASS"))
    && decide (table.map Prod.fst).Nodup && decide (table.map Prod.snd).Nodup

/-- The mnemonic of a leg of an IR kind, keyed by `val` of its payload as enqueued
(46_mnemonic.md R222); other legs, and an empty payload, have none. -/
def legMnemonic (i : Instr) : Option String :=
  if i.kind.isShift && !i.kind.isDr && !i.payload.isEmpty then
    some (decodeMnemonic Config.mnemonicTable (val i.payload))
  else none

/-- The name of a kind, as the source writes it (30_encoding.md R73, R79). -/
def kindName : Kind → String
  | .dr => "DR"
  | .ir => "IR"
  | .reset => "RESET"
  | .longDelay => "LONG_DELAY"
  | .idle => "IDLE"
  | .irPause => "IR_PAUSE"
  | .irDirect => "IR_DIRECT"
  | .drConfig => "DR_CONFIG"
  | .drConfigReadback => "DR_CONFIG_READBACK"
  | .drRecoveryReadback => "DR_RECOVERY_READBACK"

/-- A bit-string in text form, head first (00_scope.md R10). -/
def bitsText : Bits → String
  | [] => ""
  | b :: s => (if b then "1" else "0") ++ bitsText s

/-- A leg in the short form `KIND("bits")`, or `KIND` for a control kind (30_encoding.md R79). -/
def legText (i : Instr) : String :=
  if i.kind.isShift then kindName i.kind ++ "(\"" ++ bitsText i.payload ++ "\")" else kindName i.kind

end Sys2Proof.Machine
end

