-- ==== Sys2Proof/Safety.lean ====
section
/-! DEFINITION. What a sound session is: the terms in which claims over all states are stated. -/

namespace Sys2Proof.Machine

/-- The current leg is a shift leg with a bit left to shift, and the flags are those of its kind
(10_state.md R25, R26, 42_tap_step.md R142, R143, R151). -/
def shiftLegCurrent (limit : Nat) (s : State) : Bool :=
  match s.cur with
  | none => false
  | some i =>
    i.kind.isShift && i.wf limit && decide (s.pause = decide (i.kind = .irPause))
      && decide (s.readback = i.kind.isReadback)

/-- The invariant at rest (10_state.md R36): flags 0, accumulator empty, no leg or a whole one. -/
def atRest (limit : Nat) (s : State) : Bool :=
  !s.pause && !s.readback && s.acc.isEmpty &&
    match s.cur with
    | none => true
    | some i => i.wf limit

/-- What holds in each TAP state of a session without a fault (42_tap_step.md R141 to R153, R156): a
leg with bits left from SELECT to SHIFT, a captured bit and no leg from EXIT1 to UPDATE. -/
def phaseSound (limit : Nat) (s : State) : Bool :=
  match TapState.ofCode s.tap with
  | none => false
  | some .reset => atRest limit s
  | some .idle => atRest limit s
  | some .select => shiftLegCurrent limit s && s.acc.isEmpty
  | some .capture => shiftLegCurrent limit s && s.acc.isEmpty
  | some .shift => shiftLegCurrent limit s
  | some .exit1 => s.cur.isNone && !s.acc.isEmpty && !(s.pause && s.readback)
  | some .pause => s.cur.isNone && !s.acc.isEmpty && !s.pause && !s.readback
  | some .exit2 => s.cur.isNone && !s.acc.isEmpty && !s.pause && !s.readback
  | some .update => s.cur.isNone && !s.acc.isEmpty && !s.pause

/-- Every queued leg is one that ENQUEUE accepts (60_exceptions.md R232). -/
def queueSound (s : State) : Bool := s.queue.all fun i => i.wf (payloadLimit s.params)

/-- The fault register holds no code, or that of a fault that a run can reach: E_INTERNAL is not one
(60_exceptions.md R231, R234). -/
def faultSound (s : State) : Bool :=
  match s.fault with
  | none => true
  | some e => decide (e = .phyIo) || decide (e = .resultOverflow)

/-- Between accesses TCK is low and SRST released (41_phy.md R121, R127). -/
def linesSound (s : State) : Bool := !s.lines.tck && s.lines.srst

/-- The engine's registers are sound: legs, fault register, and without a fault the phase and the
lines. -/
def engineSound (s : State) : Bool :=
  queueSound s && faultSound s &&
    (s.fault.isSome || (phaseSound (payloadLimit s.params) s && linesSound s))

/-- The bookkeeping of ADVANCE is sound: a call is in progress only without a fault, with a leg completed
only while the engine is not at rest, and never with nothing pending and nothing queued at rest;
between calls the engine is at rest or faulted (45_sequencer.md R202, R204). -/
def callSound (s : State) : Bool :=
  match s.call with
  | none => s.fault.isSome || resting s
  | some n =>
    s.fault.isNone && (decide (n = 0) || !resting s)
      && !(resting s && s.cur.isNone && s.queue.isEmpty)

/-- A sound session. -/
def sound (s : State) : Bool := engineSound s && callSound s

/-- The number of pulses among line events (42_tap_step.md R155). -/
def pulseCount : List LineEvent → Nat
  | [] => 0
  | .pulse _ _ _ :: es => pulseCount es + 1
  | .delayLong :: es => pulseCount es
  | .srst _ :: es => pulseCount es
  | .delaySettle :: es => pulseCount es

/-- The number of pulses `Step()` makes in this state when no access fails (the table of 42_tap_step.md
R155). -/
def stepPulses (s : State) : Nat :=
  match TapState.ofCode s.tap with
  | none => 0
  | some .idle =>
    match s.cur with
    | none => if s.queue = [] then 1 else 0
    | some i =>
      match i.kind with
      | .dr => 1
      | .ir => 2
      | .reset => 12
      | .longDelay => 0
      | .idle => 1
      | .irPause => 2
      | .irDirect => 2
      | .drConfig => 1
      | .drConfigReadback => 1
      | .drRecoveryReadback => 1
  | some .update => (leaveDrives s).length
  | some .reset => 1
  | some .select => 1
  | some .capture => 1
  | some .shift => 1
  | some .exit1 => 1
  | some .pause => 1
  | some .exit2 => 1

/-- What a line event drives, with the sample left out. -/
def driven : LineEvent → LineEvent
  | .pulse tdi tms _ => .pulse tdi tms false
  | .delayLong => .delayLong
  | .srst v => .srst v
  | .delaySettle => .delaySettle

/-- Whether the target, on the path the engine believes it took, is in the IEEE state of the engine's
state (70_reset_and_hazards.md R266): up to SHIFT the path is that of the current leg's kind,
after it either path. -/
def targetAgrees (s : State) (q : IeeeState) : Prop :=
  match TapState.ofCode s.tap, s.cur with
  | none, _ => False
  | some t, some i => q = ieeeOf i.kind.isDr t
  | some t, none => ∃ dr, q = ieeeOf dr t

end Sys2Proof.Machine
end

