-- ==== Sys2Proof/Certificates/Slice0/Obligations.lean ====
section
/-! DEFINITION. The statements for the provers. -/

open Sys2Proof Sys2Proof.Machine

/-! ### Encoding -/

/-- 30_encoding.md R71 to R73: a leg whose length the length field can count is read back from its own
descriptor, whatever words follow. The field places are the spec's decisions (log entry 24). -/
def Obligations.DecodeOfEncode : Prop :=
  ∀ (i : Instr) (ws : List Word), i.payload.length < 2 ^ 28 → decode (encode i ++ ws) = .ok (i, ws)

/-- 30_encoding.md R71, R72: a decoded leg has the header's kind and length, and each payload bit is the
descriptor's bit at the place R72 gives; the descriptor is the header and `ceil(len/32)` words. The field
places are the spec's decisions (log entry 24). -/
def Obligations.DecodedLegKeepsEveryBit : Prop :=
  ∀ (ws rest : List Word) (i : Instr), decode ws = .ok (i, rest) →
    ∃ (h : Word) (ps : List Word), ws = h :: (ps ++ rest) ∧
      h.extractLsb' 0 4 = i.kind.code ∧ (h.extractLsb' 4 28).toNat = i.payload.length ∧
      ps.length = (i.payload.length + 31) / 32 ∧
      ∀ j, j < i.payload.length → ∃ w, ps[j / 32]? = some w ∧ i.payload[j]? = some (w.getLsbD (31 - j % 32))

/-- The worked encodings of 30_encoding.md R81, and that code 10 is reserved (R75). The kind codes are the
spec's decision (log entry 24). -/
def Obligations.WorkedEncodings : Prop :=
  decode [0x00000050#32, 0xB0000000#32] = .ok (.dr [true, false, true, true, false], []) ∧
  decode [0x00000061#32, 0x24000000#32] = .ok (.ir [false, false, true, false, false, true], []) ∧
  decode [0x00000002#32] = .ok (.reset [], []) ∧
  decode [0x00000200#32, 0xFFFFFFFF#32] = .ok (.dr (List.replicate 32 true), []) ∧
  encode (.dr [true, false, true, true, false]) = [0x00000050#32, 0xB0000000#32] ∧
  decode [0x0000000A#32] = .error .badKind

/-! ### Codec and mnemonics -/

/-- 40_codec.md R102, the round-trip law. -/
def Obligations.FixedWidthRoundTrip : Prop :=
  ∀ v w : Nat, v < 2 ^ w → ∃ s, toFixedWidthBits v w = .ok s ∧ s.length = w ∧ val s = v

/-- 40_codec.md R100, its output: `s[i]` is bit `w-1-i` of `v`. That `w = 0` gives the empty string is the
spec's decision (log entry 24). -/
def Obligations.FixedWidthBitPlaces : Prop :=
  ∀ (v w : Nat) (s : Bits), toFixedWidthBits v w = .ok s →
    s.length = w ∧ ∀ i, i < w → s[i]? = some (v.testBit (w - 1 - i))

/-- 40_codec.md R101: a value that does not fit is refused, not truncated. -/
def Obligations.FixedWidthRefusesWideValues : Prop :=
  ∀ v w : Nat, 2 ^ w ≤ v → toFixedWidthBits v w = .error .codecRange

/-- 40_codec.md R106: applied twice with the same chunk width, the block is back, for every block and
chunk width the function admits. -/
def Obligations.ReverseBitOrderInvolution : Prop :=
  ∀ (B B' : List Byte) (c : Int), reverseBitOrder B c = .ok B' → reverseBitOrder B' c = .ok B

/-- 40_codec.md R103, 20_memory.md R60: the length stays, and bit `k` of byte `b` of a chunk of `m` bytes
goes to bit `7-k` of byte `m-1-b` of the same chunk. -/
def Obligations.ReverseBitOrderPlacesBits : Prop :=
  ∀ (B B' : List Byte) (m q b k : Nat), 0 < m → reverseBitOrder B (8 * m : Nat) = .ok B' →
    q * m + m ≤ B.length → b < m → k < 8 →
    B'.length = B.length ∧
      (B'.getD (q * m + (m - 1 - b)) 0#8).getLsbD (7 - k) = (B.getD (q * m + b) 0#8).getLsbD k

/-- 40_codec.md R103 (chunk width 0 is the identity) and R104 (what is refused, and only that). Refusing is
the spec's decision (log entry 24). -/
def Obligations.ReverseBitOrderRefusals : Prop :=
  ∀ (B : List Byte) (c : Int), reverseBitOrder B 0 = .ok B ∧
    (reverseBitOrder B c = .error .codecChunk ↔
      c < 0 ∨ (0 < c ∧ c % 8 ≠ 0) ∨ (0 < c ∧ B.length % (c / 8).toNat ≠ 0))

/-- 46_mnemonic.md R220: the two fixed entries, the table's entry of any other 6-bit code in its domain, and
`""` for every other code. The table is an open parameter; that codes outside 6 bits have no name is the
spec's decision (log entry 13). -/
def Obligations.MnemonicTableEntries : Prop :=
  ∀ (T : List (Nat × String)) (code : Nat), admissibleMnemonics T = true →
    decodeMnemonic T 9 = "IDCODE" ∧ decodeMnemonic T 63 = "BYPASS" ∧
    (∀ name, (code, name) ∈ T → decodeMnemonic T code = name) ∧
    (code ≠ 9 → code ≠ 63 → (∀ name, (code, name) ∉ T) → decodeMnemonic T code = "")

/-- 46_mnemonic.md R220, R221: no two codes share a name, whatever admissible table P_MNEMONIC is. The table
is an open parameter (log entry 13). -/
def Obligations.MnemonicsAreOneToOne : Prop :=
  ∀ (T : List (Nat × String)) (c d : Nat), admissibleMnemonics T = true →
    decodeMnemonic T c = decodeMnemonic T d → decodeMnemonic T c ≠ "" → c = d

/-! ### Line primitives -/

/-- 41_phy.md R121: the three drive phases, the sample taken before them and returned, the event; SRST and
every other register as before. A failed access is E_PHY_IO (R129). That a pulse is one access, and that a
failed one takes no sample and leaves any line levels and no event, are the model's choices (log entries 4,
5, 6). -/
def Obligations.PulseDrivesAndSamples : Prop :=
  ∀ (tdi tms : Bit) (s : State), s.fault = none →
    pulsePhases tdi tms s.lines.srst =
      [⟨false, tms, tdi, s.lines.srst⟩, ⟨true, tms, tdi, s.lines.srst⟩, ⟨false, tms, tdi, s.lines.srst⟩] ∧
    (failsAt s 0 = false → pulse tdi tms s = .done (tdoAt s 0)
      { s with lines := ⟨false, tms, tdi, s.lines.srst⟩, trace := s.trace ++ [.pulse tdi tms (tdoAt s 0)],
               tdoDraws := s.tdoDraws.skip 1, ioDraws := s.ioDraws.skip 1 }) ∧
    (failsAt s 0 = true → ∃ l, pulse tdi tms s =
      .stopped { s with fault := some .phyIo, lines := l, ioDraws := s.ioDraws.skip 1 })

/-- 41_phy.md R127, R128: the host's PULSE_RESET asserts SRST, waits, releases it, and writes no engine
register. The order of the three events is the spec's decision (log entry 19). The reply is the model's
choice (log entry 31). -/
def Obligations.PulseResetSequence : Prop :=
  ∀ s : State, s.call = none → s.fault = none → failsAt s 0 = false → failsAt s 1 = false →
    hostAction .pulseReset s = .next
      { s with trace := s.trace ++ [.srst false, .delaySettle, .srst true],
               lines := ⟨s.lines.tck, s.lines.tms, s.lines.tdi, true⟩,
               ioDraws := s.ioDraws.skip 2, replies := s.replies ++ [.resetPulsed none] }

/-- 41_phy.md R129, 60_exceptions.md R238: a failed SRST access ends PULSE_RESET there, with E_PHY_IO, the
events made before it, any line levels, and no engine register written. What counts as one access, and that
a failed one leaves any line levels, are log entries 5 and 6. What stays is the spec's decision (log entry
21), and the reply is the model's choice (log entry 31). -/
def Obligations.PulseResetStopsAtFailedAccess : Prop :=
  ∀ s : State, s.call = none → s.fault = none →
    (failsAt s 0 = true → ∃ l, hostAction .pulseReset s = .next
      { s with fault := some .phyIo, lines := l, ioDraws := s.ioDraws.skip 1,
               replies := s.replies ++ [.resetPulsed (some .phyIo)] }) ∧
    (failsAt s 0 = false → failsAt s 1 = true → ∃ l, hostAction .pulseReset s = .next
      { s with fault := some .phyIo, lines := l, ioDraws := s.ioDraws.skip 2,
               trace := s.trace ++ [.srst false, .delaySettle],
               replies := s.replies ++ [.resetPulsed (some .phyIo)] })

/-! ### Steps of the TAP state machine -/

/-- 42_tap_step.md R141, R144, R145, R148, R149: the steps that make one fixed pulse, in closed form. That
TDI is 0 is a choice, the spec's D5 (log entry 14). -/
def Obligations.OnePulseSteps : Prop :=
  ∀ s : State, s.fault = none → failsAt s 0 = false →
    (s.tap = TapState.reset.code →
      tapStep s = ({ afterPulses [(false, false)] s with tap := TapState.idle.code }, false)) ∧
    (s.tap = TapState.select.code →
      tapStep s = ({ afterPulses [(false, false)] s with tap := TapState.capture.code }, false)) ∧
    (s.tap = TapState.capture.code →
      tapStep s = ({ afterPulses [(false, false)] s with tap := TapState.shift.code, acc := [] }, false)) ∧
    (s.tap = TapState.pause.code →
      tapStep s = ({ afterPulses [(false, true)] s with tap := TapState.exit2.code }, false)) ∧
    (s.tap = TapState.exit2.code →
      tapStep s = ({ afterPulses [(false, true)] s with tap := TapState.update.code }, false))

/-- 42_tap_step.md R142: entry of a DR kind from IDLE. That TDI is 0 is a choice, the spec's D5 (log entry
14). -/
def Obligations.IdleEntryOfDrKinds : Prop :=
  ∀ (s : State) (i : Instr), s.fault = none → s.tap = TapState.idle.code → s.cur = some i →
    i.kind.isDr = true → accessesSucceed 1 s = true →
    tapStep s = ({ afterPulses [(false, true)] s with
      tap := TapState.select.code,
      readback := decide (i.kind = .drConfigReadback ∨ i.kind = .drRecoveryReadback) }, false)

/-- 42_tap_step.md R143: entry of an IR kind from IDLE. That TDI is 0 is a choice, the spec's D5 (log entry
14). -/
def Obligations.IdleEntryOfIrKinds : Prop :=
  ∀ (s : State) (i : Instr), s.fault = none → s.tap = TapState.idle.code → s.cur = some i →
    (i.kind = .ir ∨ i.kind = .irDirect ∨ i.kind = .irPause) → accessesSucceed 2 s = true →
    tapStep s = ({ afterPulses [(false, true), (false, true)] s with
      tap := TapState.select.code, pause := decide (i.kind = .irPause) }, false)

/-- 42_tap_step.md R153: IDLE with no leg pending pops without a pulse, or holds with one. That TDI is 0 is
a choice, the spec's D5 (log entry 14). -/
def Obligations.IdleWithoutLeg : Prop :=
  ∀ s : State, s.fault = none → s.tap = TapState.idle.code → s.cur = none →
    (∀ i q, s.queue = i :: q → tapStep s = ({ s with cur := some i, queue := q }, false)) ∧
    (s.queue = [] → failsAt s 0 = false → tapStep s = (afterPulses [(false, false)] s, false))

/-- 42_tap_step.md R147: EXIT1 goes to PAUSE and clears the flag, or to UPDATE. That TDI is 0 is a choice,
the spec's D5 (log entry 14). -/
def Obligations.Exit1Branches : Prop :=
  ∀ s : State, s.fault = none → s.tap = TapState.exit1.code → failsAt s 0 = false →
    (s.pause = true →
      tapStep s = ({ afterPulses [(false, false)] s with tap := TapState.pause.code, pause := false }, false)) ∧
    (s.pause = false →
      tapStep s = ({ afterPulses [(false, true)] s with tap := TapState.update.code }, false))

/-- 42_tap_step.md R146: one payload bit, from the head for the configuration kinds and from the tail for
the others; TMS 1 and the leg gone on the last bit; every sample kept but a DR_CONFIG leg's non-final ones.
One bit a step and the sample of DR_CONFIG's last bit are the spec's decisions (log entry 15). TMS on
configuration bits and the order of captured bits are log entry 27. -/
def Obligations.ShiftStepMovesOneBit : Prop :=
  ∀ (s : State) (i : Instr) (b : Bit) (rest : Bits), s.fault = none → s.tap = TapState.shift.code →
    s.cur = some i → i.kind.isShift = true → failsAt s 0 = false →
    (if isConfig i.kind then i.payload = b :: rest else i.payload = rest ++ [b]) →
    (rest ≠ [] → tapStep s =
      ({ afterPulses [(b, false)] s with
         cur := some (Instr.ofKind i.kind rest),
         acc := if i.kind = .drConfig then s.acc else tdoAt s 0 :: s.acc }, false)) ∧
    (rest = [] → tapStep s =
      ({ afterPulses [(b, true)] s with
         tap := TapState.exit1.code, cur := none, acc := tdoAt s 0 :: s.acc }, false))

/-- 42_tap_step.md R150, R151: UPDATE appends the captured value, consumes the readback flag, clears the
accumulator, and goes to SELECT with the next leg by the shortcut or to IDLE. Where a DR kind is outside
P_SHORTCUT_DR_KINDS, or the head is IR or a control leg, it goes to IDLE. Which DR kinds take the shortcut
and the readback flag through it are the spec's decisions (log entries 28 and 16), and so is TDI 0 (log
entry 14). -/
def Obligations.UpdateStepRetiresAndLeaves : Prop :=
  ∀ s : State, s.fault = none → s.tap = TapState.update.code → s.acc ≠ [] → resultsFull s = false →
    accessesSucceed (leaveDrives s).length s = true →
    let t := { afterPulses (leaveDrives s) s with
      acc := [], results := s.results ++ [val s.acc], readback := false,
      lastReadout := if s.readback then some (val s.acc) else s.lastReadout }
    (headShortcut s = .never → tapStep s = ({ t with tap := TapState.idle.code }, true)) ∧
    (∀ j q, s.queue = j :: q → headShortcut s = .dr → tapStep s =
      ({ t with tap := TapState.select.code, cur := some j, queue := q,
                readback := decide (j.kind = .drConfigReadback ∨ j.kind = .drRecoveryReadback) }, true)) ∧
    (∀ j q, s.queue = j :: q → headShortcut s = .ir → tapStep s =
      ({ t with tap := TapState.select.code, cur := some j, queue := q,
                pause := if j.kind = .irPause then true else s.pause }, true))

/-- 20_memory.md R55, 60_exceptions.md R239: a full finite Result Store faults before the append, and
nothing else is written. The overflow fault is the spec's decision (log entry 23). -/
def Obligations.FullResultStoreFaults : Prop :=
  ∀ (s : State) (c : Nat), s.fault = none → s.tap = TapState.update.code →
    s.params.resultCapacity = some c → c ≤ s.results.length →
    tapStep s = ({ s with fault := some .resultOverflow }, false)

/-- 42_tap_step.md R156, R146: a step raises E_INTERNAL in exactly these states, and then writes nothing
else. -/
def Obligations.InternalFaultsExactly : Prop :=
  ∀ s : State, s.fault = none →
    ((tapStep s).1.fault = some .internal ↔
      9 ≤ s.tap.toNat ∨ (s.tap = TapState.shift.code ∧
        ∀ i, s.cur = some i → i.kind.isShift = false ∨ i.payload = [])) ∧
    ((tapStep s).1.fault = some .internal → tapStep s = ({ s with fault := some .internal }, false))

/-- 42_tap_step.md R155: the pulses of a step that does not fault are those of its branch's row. -/
def Obligations.PulsesPerStep : Prop :=
  ∀ s : State, s.fault = none → (tapStep s).1.fault = none →
    pulseCount (gained s (tapStep s).1) = stepPulses s

/-- 60_exceptions.md R238 point 2, 42_tap_step.md R140: a step stopped by a failed access completes no leg
and stays in its state. Outside UPDATE it has made the pulses before that access, all of them mode=1, and
written no register. In UPDATE the retired result, the cleared accumulator and the consumed readback flag
stay; so do the pop and the flag of the shortcut, once they were made: before the pulse of the DR shortcut,
and between the two pulses of the IR shortcut. Nothing after the access is written. What stays is the spec's
decision (log entry 21); a pulse is one access (log entry 5); the line levels are free (log entry 6); TDI 0,
the flag through the shortcut and the shortcut's kinds are log entries 14, 16 and 28. -/
def Obligations.FailedStepKeepsEarlierWrites : Prop :=
  ∀ s : State, s.fault = none → (tapStep s).1.fault = some .phyIo →
    (tapStep s).2 = false ∧ (tapStep s).1.tap = s.tap ∧
    (s.tap ≠ TapState.update.code → ∃ k l, k < stepPulses s ∧ accessesSucceed k s = true ∧ failsAt s k = true ∧
      (tapStep s).1 = { afterPulses (List.replicate k (false, true)) s with
        fault := some .phyIo, lines := l, ioDraws := s.ioDraws.skip (k + 1) }) ∧
    (s.tap = TapState.update.code →
      let t := { s with
        acc := [], results := s.results ++ [captured s], readback := false,
        lastReadout := if s.readback then some (captured s) else s.lastReadout,
        fault := some .phyIo, ioDraws := s.ioDraws.skip 1 }
      (headShortcut s = .never → ∃ l, (tapStep s).1 = { t with lines := l }) ∧
      (∀ j q, s.queue = j :: q → headShortcut s = .dr → ∃ l, (tapStep s).1 =
        { t with lines := l, cur := some j, queue := q,
                 readback := decide (j.kind = .drConfigReadback ∨ j.kind = .drRecoveryReadback) }) ∧
      (headShortcut s = .ir → failsAt s 0 = true → ∃ l, (tapStep s).1 = { t with lines := l }) ∧
      (∀ j q, s.queue = j :: q → headShortcut s = .ir → failsAt s 0 = false → ∃ l, (tapStep s).1 =
        { t with lines := l, cur := some j, queue := q,
                 pause := if j.kind = .irPause then true else s.pause,
                 trace := s.trace ++ [.pulse false true (tdoAt s 0)],
                 tdoDraws := s.tdoDraws.skip 1, ioDraws := s.ioDraws.skip 2 }))

/-! ### Whole legs -/

/-- 43_shift_legs.md R170 to R177: a shift leg of any of the seven kinds, from IDLE with the flags 0, ends
in the state R170 gives, in closed form: the pulses of entry, SELECT, CAPTURE, every bit, exit and UPDATE,
one Result Store entry, the last readout for the readback kinds, the next leg by the shortcut; every other
register is as it was. TDI outside SHIFT, the sample of DR_CONFIG's last bit, the flag through the shortcut
and the shortcut's kinds are the spec's decisions (log entries 14, 15, 16, 28). TMS on configuration bits
and the order of captured bits are log entry 27. -/
def Obligations.ShiftLegFromIdle : Prop :=
  ∀ (i : Instr) (s : State), i.kind.isShift = true → i.payload ≠ [] →
    s.fault = none → s.tap = TapState.idle.code → s.pause = false → s.readback = false →
    resultsFull s = false →
    accessesSucceed (legDrives i.kind i.payload (entryDrives i.kind) s).length s = true →
    exec i s = .next (legEnd i.kind i.payload (entryDrives i.kind) s)

/-- 43_shift_legs.md R170 (a), its third entry: a leg the shortcut brought to SELECT, with the flags of its
kind, ends in the same closed form without entry pulses of its own. The same decisions are in it (log
entries 14, 15, 16, 27, 28). -/
def Obligations.ShiftLegThroughShortcut : Prop :=
  ∀ (i : Instr) (s : State), i.kind.isShift = true → i.payload ≠ [] →
    s.fault = none → s.tap = TapState.select.code →
    s.pause = decide (i.kind = .irPause) → s.readback = i.kind.isReadback →
    resultsFull s = false →
    accessesSucceed (legDrives i.kind i.payload [] s).length s = true →
    exec i s = .next (legEnd i.kind i.payload [] s)

/-- 42_tap_step.md R141, 44_control_legs.md R191: a leg pending in RESET makes the pulse to IDLE and then
runs from IDLE. That `exec` of a leg starts from the TAP state the engine is in is the model's granularity
(log entry 1). That TDI is 0 is a choice, the spec's D5 (log entry 14). -/
def Obligations.LegPendingInReset : Prop :=
  ∀ (i : Instr) (s : State), s.fault = none → s.tap = TapState.reset.code → failsAt s 0 = false →
    exec i s = exec i { afterPulses [(false, false)] s with tap := TapState.idle.code }

/-- 44_control_legs.md R190: the RESET leg from IDLE. That TDI is 0 is a choice, the spec's D5 (log entry
14). -/
def Obligations.ResetLeg : Prop :=
  ∀ (p : Bits) (s : State), s.fault = none → s.tap = TapState.idle.code → accessesSucceed 12 s = true →
    exec (.reset p) s = .next { afterPulses (List.replicate 12 (false, true)) s with
      tap := TapState.reset.code, cur := s.queue.head?, queue := s.queue.tail }

/-- 44_control_legs.md R192: the LONG_DELAY leg from IDLE; it makes no access, so none can fail. Time is not
modelled (log entry 20). -/
def Obligations.LongDelayLeg : Prop :=
  ∀ (p : Bits) (s : State), s.fault = none → s.tap = TapState.idle.code →
    exec (.longDelay p) s = .next { s with
      trace := s.trace ++ [.delayLong], cur := s.queue.head?, queue := s.queue.tail }

/-- 44_control_legs.md R193: the IDLE leg from IDLE. That TDI is 0 is a choice, the spec's D5 (log entry
14). -/
def Obligations.IdleLeg : Prop :=
  ∀ (p : Bits) (s : State), s.fault = none → s.tap = TapState.idle.code → failsAt s 0 = false →
    exec (.idle p) s = .next { afterPulses [(false, false)] s with
      cur := s.queue.head?, queue := s.queue.tail }

/-- 44_control_legs.md R194, 30_encoding.md R77: from IDLE or RESET, whatever accesses fail, a control leg
leaves the Result Store, the last readout, both flags and the accumulator, and its payload makes no
difference. -/
def Obligations.ControlLegsKeepCaptures : Prop :=
  ∀ (i : Instr) (p : Bits) (s : State), i.kind.isShift = false → s.fault = none → resting s = true →
    ∃ t, exec i s = .next t ∧ t.results = s.results ∧ t.lastReadout = s.lastReadout ∧
      t.pause = s.pause ∧ t.readback = s.readback ∧ t.acc = s.acc ∧
      ∃ u, exec (Instr.ofKind i.kind p) s = .next u ∧ u.trace = t.trace ∧ u.tap = t.tap ∧
        u.queue = t.queue ∧ u.fault = t.fault

/-- 60_exceptions.md R238, 41_phy.md R129: a shift leg from IDLE whose access `k` is the first to fail stops
there: E_PHY_IO, and the trace has gained the events of the `k` pulses before it and no more. A pulse is one
access, and the failed one takes no sample (log entries 5 and 21). The drives rest on log entries 14, 27 and
28. -/
def Obligations.LegStopsAtFirstFailedAccess : Prop :=
  ∀ (i : Instr) (s : State) (k : Nat), i.kind.isShift = true → i.payload ≠ [] →
    s.fault = none → s.tap = TapState.idle.code → s.pause = false → s.readback = false →
    resultsFull s = false →
    k < (legDrives i.kind i.payload (entryDrives i.kind) s).length →
    accessesSucceed k s = true → failsAt s k = true →
    ∃ t, exec i s = .next t ∧ t.fault = some .phyIo ∧
      t.trace = s.trace ++ (pulseEvents s (legDrives i.kind i.payload (entryDrives i.kind) s)).take k ∧
      t.ioDraws = s.ioDraws.skip (k + 1)

/-- 42_tap_step.md R154, 43_shift_legs.md R170: in a session without a fault, from every TAP state, a leg's
meaning is the engine's own run with that leg as the current one. It makes steps that neither return the
completion bit 1 nor fault, then one step that does exactly one of the two, and answers the state after that
step: fewer than `n + 8` steps before it, for `n` payload bits. That `exec` runs to the completion bit is the
model's granularity (log entry 1). -/
def Obligations.LegRunsToCompletion : Prop :=
  ∀ (i : Instr) (s : State), s.fault = none →
    ∃ k, k < i.payload.length + 8 ∧
      (∀ j < k, (tapStep (tapSteps j { s with cur := some i })).2 = false ∧
        (tapStep (tapSteps j { s with cur := some i })).1.fault = none) ∧
      ∃ t c, tapStep (tapSteps k { s with cur := some i }) = (t, c) ∧ (c = true ↔ t.fault = none) ∧
        exec i s = .next t

/-- 43_shift_legs.md R175, 92 D6: of a DR_CONFIG leg the Result Store gains the last sample alone, 0 or 1.
That the last bit is sampled is the spec's decision (log entry 15). -/
def Obligations.DrConfigKeepsFinalSample : Prop :=
  ∀ (p : Bits) (s : State), p ≠ [] → s.fault = none → s.tap = TapState.idle.code →
    s.pause = false → s.readback = false → resultsFull s = false →
    accessesSucceed (legDrives .drConfig p (entryDrives .drConfig) s).length s = true →
    ∃ t, exec (.drConfig p) s = .next t ∧ t.lastReadout = s.lastReadout ∧
      t.results = s.results ++ [(tdoAt s (p.length + 2)).toNat]

/-- 20_memory.md R59: when every sample of the shift equals the bit driven with it, a tail-order leg
captures `val(p)`, and a DR_CONFIG_READBACK leg the value of the reversed payload, also as last readout. The
order of captured bits is log entry 27. -/
def Obligations.EchoCapturesPayload : Prop :=
  ∀ (i : Instr) (s : State), i.kind.isShift = true → i.kind ≠ .drConfig → i.payload ≠ [] →
    s.fault = none → s.tap = TapState.idle.code → s.pause = false → s.readback = false →
    resultsFull s = false →
    accessesSucceed (legDrives i.kind i.payload (entryDrives i.kind) s).length s = true →
    shiftSamples s (entryDrives i.kind).length i.payload.length = legBits i.kind i.payload →
    let v := if i.kind = .drConfigReadback then val i.payload.reverse else val i.payload
    ∃ t, exec i s = .next t ∧ t.results = s.results ++ [v] ∧
      t.lastReadout = if i.kind.isReadback then some v else s.lastReadout

/-- 43_shift_legs.md R178: the pulses of a shift leg from IDLE back to IDLE: `n + 5` for a DR kind, `n + 6`
for IR and IR_DIRECT, `n + 8` for IR_PAUSE. -/
def Obligations.PulseCountOfShiftLegs : Prop :=
  ∀ (i : Instr) (s : State), i.kind.isShift = true → i.payload ≠ [] →
    s.fault = none → s.tap = TapState.idle.code → s.pause = false → s.readback = false →
    resultsFull s = false → headShortcut s = .never →
    accessesSucceed (legDrives i.kind i.payload (entryDrives i.kind) s).length s = true →
    ∃ t, exec i s = .next t ∧ t.tap = TapState.idle.code ∧
      pulseCount (gained s t) =
        i.payload.length + (if i.kind.isDr then 5 else if i.kind = .irPause then 8 else 6)

/-! ### Sequencer and host interface -/

/-- 45_sequencer.md R201: the checks of ENQUEUE in their order, and what an accepted descriptor appends. The
order of the checks is the spec's decision (log entry 24). -/
def Obligations.EnqueueFollowsItsChecks : Prop :=
  ∀ (h : Word) (ws : List Word) (s : State), s.call = none →
    let k := (h.extractLsb' 0 4).toNat
    let n := (h.extractLsb' 4 28).toNat
    let refused := fun e => hostAction (.enqueue h ws) s = .next { s with replies := s.replies ++ [.refused e] }
    let shift := k ≠ 2 ∧ k ≠ 3 ∧ k ≠ 4
    (s.fault ≠ none → refused .faulted) ∧
    (s.fault = none → 9 < k → refused .badKind) ∧
    (s.fault = none → k ≤ 9 → shift → n = 0 → refused .emptyPayload) ∧
    (s.fault = none → k ≤ 9 → ¬(shift ∧ n = 0) → payloadLimit s.params < n → refused .payloadTooLong) ∧
    (s.fault = none → k ≤ 9 → ¬(shift ∧ n = 0) → n ≤ payloadLimit s.params → ws.length = (n + 31) / 32 →
      ∃ i : Instr, i.kind.code.toNat = k ∧ i.payload.length = n ∧
        (∀ j, j < n → i.payload[j]? = some ((ws.getD (j / 32) 0#32).getLsbD (31 - j % 32))) ∧
        hostAction (.enqueue h ws) s =
          .next { s with queue := s.queue ++ [i], replies := s.replies ++ [.accepted] })

/-- 30_encoding.md R70, R71, 45_sequencer.md R201: a leg enqueued in its abstract form and as its descriptor
have the same effect. The descriptor is the spec's decision (log entry 24). -/
def Obligations.EnqueueLegAgreesWithDescriptor : Prop :=
  ∀ (i : Instr) (h : Word) (ws : List Word) (s : State), i.payload.length < 2 ^ 28 → encode i = h :: ws →
    hostAction (.enqueue h ws) s = hostAction (.enqueueLeg i) s

/-- The model's choice, log entry 11: words that pass every check of ENQUEUE but are not as many payload words
as the header calls for have no meaning, and the machine refuses to go on. -/
def Obligations.MalformedDescriptorHasNoMeaning : Prop :=
  ∀ (h : Word) (ws : List Word) (s : State) (k : Kind), s.call = none → s.fault = none →
    Kind.ofCode (headerKind h) = some k → enqueueCheck s.params k (headerLen h) = none →
    ws.length ≠ (headerLen h + 31) / 32 →
    hostAction (.enqueue h ws) s = .refused .malformedDescriptor

/-- 60_exceptions.md R238 point 4, 45_sequencer.md R211: in a faulted session ENQUEUE, ADVANCE and
PULSE_RESET are refused with E_FAULTED, no leg runs, and no step is enabled. That it is `exec` which answers
`noStepEnabled` is the model's form of it (log entry 21). -/
def Obligations.FaultedSessionRefuses : Prop :=
  ∀ (s : State) (e : ErrorCode) (i : Instr) (h : Word) (ws : List Word), s.call = none → s.fault = some e →
    let r := { s with replies := s.replies ++ [.refused .faulted] }
    hostAction (.enqueueLeg i) s = .next r ∧ hostAction (.enqueue h ws) s = .next r ∧
    hostAction .advance s = .next r ∧ hostAction .pulseReset s = .next r ∧
    exec i s = .fault .noStepEnabled ∧ tapStep s = (s, false)

/-- 45_sequencer.md R209, 60_exceptions.md R239: an operation received while an ADVANCE is in progress is
refused with E_BUSY, before every other check, and changes nothing. E_BUSY is the spec's decision (log entry
25). It is said of every host action: that DRAIN and a new session are host actions, and so are refused here
too, is the model's choice (log entry 10). -/
def Obligations.BusyBeforeEveryCheck : Prop :=
  ∀ (a : HostAction) (s : State) (n : Nat), s.call = some n →
    hostAction a s = .next { s with replies := s.replies ++ [.refused .busy] }

/-- 45_sequencer.md R208: what the three reads return, in a faulted session too; they change no register.
What the reads return and when the engine is drained are the spec's decisions (log entries 25 and 10). -/
def Obligations.ReadsReturnRegisters : Prop :=
  ∀ s : State, s.call = none →
    hostAction .readResults s = .next { s with replies := s.replies ++ [.results s.results] } ∧
    (s.lastReadout = none →
      hostAction .readLastReadout s = .next { s with replies := s.replies ++ [.refused .noReadout] }) ∧
    (∀ v, s.lastReadout = some v →
      hostAction .readLastReadout s = .next { s with replies := s.replies ++ [.lastReadout v] }) ∧
    hostAction .readStatus s = .next { s with replies := s.replies ++
      [.status s.tap (decide (s.cur ≠ none)) s.queue.length
        (decide (s.queue = [] ∧ s.cur = none ∧ s.tap = TapState.idle.code)) s.fault] }

/-- 45_sequencer.md R203: ADVANCE with nothing pending and nothing queued is one pulse, to IDLE, with no
Result Store entry. That TDI is 0 is a choice, the spec's D5 (log entry 14). The reply in the state is the
model's choice (log entry 9), and that the call returns after one step is the spec's decision D12 (log entry
25). -/
def Obligations.NoOpAdvance : Prop :=
  ∀ s : State, s.call = none → s.fault = none → s.cur = none → s.queue = [] →
    (s.tap = TapState.idle.code ∨ s.tap = TapState.reset.code) → failsAt s 0 = false →
    hostAction .advance s = .next { afterPulses [(false, false)] s with
      tap := TapState.idle.code, replies := s.replies ++ [.advanced none] }

/-- 42_tap_step.md R153, 45_sequencer.md R202: in an ADVANCE with count `n`, the pending leg, or in IDLE the
leg at the queue head, is what `step` runs; the call then ends at a fault or at rest, and else goes on with
`n + 1`. That one machine step is a whole leg is the model's granularity (log entry 1); the stop rule is the
spec's decision (log entry 25). -/
def Obligations.StepRunsNextLeg : Prop :=
  ∀ (s u t : State) (i : Instr) (n : Nat), s.call = some n → s.fault = none →
    ((s.cur = some i ∧ u = s) ∨
      (∃ q, s.cur = none ∧ s.tap = TapState.idle.code ∧ s.queue = i :: q ∧
        u = { s with cur := some i, queue := q })) →
    exec i u = .next t →
    ((t.fault ≠ none ∨ t.tap = TapState.idle.code ∨ t.tap = TapState.reset.code) →
      step s = .next { t with call := none, replies := t.replies ++ [.advanced t.fault] }) ∧
    (t.fault = none → t.tap ≠ TapState.idle.code → t.tap ≠ TapState.reset.code →
      step s = .next { t with call := some (n + 1) })

/-- The very next step after an opcode table word is placed runs the leg the decoder reads from it (the
model's `withFetchWord`, log entry 3). What the call does after the leg is log entry 25. -/
def Obligations.PlacedWordRuns : Prop :=
  ∀ (s : State) (nbits w : Nat) (i : Instr), decodeTableWord nbits w = some i →
    ∃ t, exec i { s with tap := TapState.idle.code, cur := some i, fault := none,
                         call := some (s.call.getD 0) } = .next t ∧
      step (s.withFetchWord nbits w) = .next (afterStep (s.call.getD 0) true t)

/-- 45_sequencer.md R201, R202, 42_tap_step.md R153: words that decode to a leg ENQUEUE accepts, then an
ADVANCE: the third step runs that leg as `exec` says. The host's actions as a list in the state are the
model's (log entry 9). That the third machine step runs the whole leg is the model's granularity (log
entries 1 and 3), and how the call then ends or goes on is the spec's decision D12 (log entry 25). -/
def Obligations.EnqueueAdvanceRunsLeg : Prop :=
  ∀ (s : State) (h : Word) (ws : List Word) (rest : List HostAction) (i : Instr),
    s.host = .enqueue h ws :: .advance :: rest → s.call = none → s.fault = none →
    s.tap = TapState.idle.code → s.cur = none → s.queue = [] →
    decode (h :: ws) = .ok (i, []) → i.wf (payloadLimit s.params) = true →
    ∃ t, exec i { s with host := rest, cur := some i, replies := s.replies ++ [.accepted],
                         call := some 0 } = .next t ∧
      Sys2Proof.core.run 3 s = .next (afterStep 0 true t)

/-- 45_sequencer.md R204 point 1, R202: in a sound session an ADVANCE in progress returns, with the state
RESET or IDLE or with a fault, within as many machine steps as legs are queued and six more. The bound
counts the model's machine steps, each a whole leg where there is one (log entry 1); R204's own counts steps
of the engine. The stop rule is the spec's decision (log entry 25). -/
def Obligations.AdvanceReturns : Prop :=
  ∀ (s : State) (n : Nat), sound s = true → s.call = some n →
    ∃ k t, k ≤ s.queue.length + 6 ∧ Sys2Proof.core.run k s = .next t ∧ t.call = none ∧
      (t.fault ≠ none ∨ resting t = true)

/-- 45_sequencer.md R206: in a sound session the host's DRAIN ends, with the engine drained or faulted. The
loop and `drained` are the spec's decision, and DRAIN as one host action is the model's (log entry 10).
Steps are machine steps (log entry 1). -/
def Obligations.DrainEndsDrained : Prop :=
  ∀ (s : State) (rest : List HostAction), sound s = true → s.call = none → s.host = .drain :: rest →
    ∃ k t, Sys2Proof.core.run k s = .next t ∧ t.host = rest ∧ t.call = none ∧
      (t.fault ≠ none ∨ drained t = true)

/-! ### Reset and the rules that hold of every state -/

/-- 70_reset_and_hazards.md R261, 10_state.md R33: the registers after reset. All but the state and the
empty results are the spec's decisions (log entries 17 and 18). -/
def Obligations.RegistersAfterReset : Prop :=
  State.reset.tap = TapState.idle.code ∧ State.reset.cur = none ∧ State.reset.acc = [] ∧
  State.reset.pause = false ∧ State.reset.readback = false ∧ State.reset.queue = [] ∧
  State.reset.results = [] ∧ State.reset.lastReadout = none ∧
  State.reset.lines = ⟨false, false, false, true⟩ ∧ State.reset.fault = none ∧ State.reset.trace = []

/-- 60_exceptions.md R241, 70_reset_and_hazards.md R260: a new session, also after a fault, has every register and
the trace as after reset. That the host, the replies, the parameters and the draws go on is the model's
choice, log entry 10. -/
def Obligations.NewSessionIsReset : Prop :=
  ∀ s : State, s.call = none → hostAction .newSession s =
    .next { State.reset with host := s.host, replies := s.replies, params := s.params,
                             tdoDraws := s.tdoDraws, ioDraws := s.ioDraws }

/-- The state after reset is sound. -/
def Obligations.ResetIsSound : Prop := sound State.reset = true

/-- 10_state.md R36, 42_tap_step.md R156, 45_sequencer.md R204: a step keeps a session sound: at rest the
flags are 0 and the accumulator empty, a leg is in SELECT, CAPTURE and SHIFT and none from EXIT1 to UPDATE,
every queued leg is well-formed, E_INTERNAL is never raised, and ADVANCE ends at rest or faulted. `sound` is
the model's invariant, wider than R36. -/
def Obligations.StepKeepsSound : Prop :=
  ∀ s t : State, sound s = true → step s = .next t → sound t = true

/-- The same of a single `Step()`: it keeps the engine's registers sound, so it raises no E_INTERNAL
(42_tap_step.md R156, 60_exceptions.md R234). -/
def Obligations.TapStepKeepsEngineSound : Prop :=
  ∀ s : State, engineSound s = true → engineSound (tapStep s).1 = true

/-- 60_exceptions.md R238 points 1 and 4, R248: once the fault register is set, no step but a new session
writes a register of the session, the trace or the lines. The fault rules are the spec's decision (log entry
21). -/
def Obligations.FaultedSessionIsFrozen : Prop :=
  ∀ (s t : State) (e : ErrorCode), s.fault = some e → step s = .next t →
    (s.call = none → s.host.head? ≠ some .newSession) →
    ∃ h r c, t = { s with host := h, replies := r, call := c }

/-- 20_memory.md R55, 41_phy.md R124: the Result Store and the line trace only grow at their ends in every
step but a new session. The first clause, that no step writes the parameters, a new session among them, is
the model's choice: the parameters stand in the state (log entries 8 and 10). -/
def Obligations.ResultsAndTraceOnlyGrow : Prop :=
  ∀ s t : State, step s = .next t →
    t.params = s.params ∧
    ((s.call = none → s.host.head? ≠ some .newSession) →
      (∃ R, t.results = s.results ++ R) ∧ (∃ T, t.trace = s.trace ++ T))

/-- 20_memory.md R50, R54: in every step of the engine the queue is what was left of it, legs unchanged, with
only legs at its head gone. -/
def Obligations.EngineTakesLegsAtTheHead : Prop :=
  ∀ (s t : State) (n : Nat), s.call = some n → step s = .next t → ∃ taken, s.queue = taken ++ t.queue

/-- 70_reset_and_hazards.md R266: a target whose controller is in the IEEE 1149.1 state the engine's state
maps to is in one such state again after every step in which no access fails. After a failed access it may
be in any state (41_phy.md R129). The IEEE table is general knowledge, no rule of the spec (log entry
26). -/
def Obligations.TargetFollowsEngine : Prop :=
  ∀ (s : State) (q : IeeeState), engineSound s = true → s.fault = none → targetAgrees s q →
    ((tapStep s).1.fault ≠ some .phyIo →
      ∃ r, (∀ r', targetAfter s (tapStep s).1 q r' ↔ r' = r) ∧ targetAgrees (tapStep s).1 r) ∧
    ((tapStep s).1.fault = some .phyIo → ∀ r, targetAfter s (tapStep s).1 q r)

/-- 44_control_legs.md R190, 70_reset_and_hazards.md R267, 41_phy.md R129, 90 C7: after a PULSE_RESET,
complete or stopped by a failed access, the target's controller may be in any state, whatever it was in
before; and from whatever state it is in, a RESET leg that does not fault takes it to Test-Logic-Reset and
the engine to RESET. The IEEE table is general knowledge, no rule of the spec (log entry 26). That SRST
leaves the controller unknown is the spec's decision D36 (log entry 30). -/
def Obligations.ResetLegResetsAnyTarget : Prop :=
  (∀ s t : State, s.call = none → s.fault = none → hostAction .pulseReset s = .next t →
    ∀ q r, targetAfter s t q r) ∧
  (∀ (p : Bits) (s : State), s.fault = none → s.tap = TapState.idle.code → accessesSucceed 12 s = true →
    ∃ t, exec (.reset p) s = .next t ∧ t.tap = TapState.reset.code ∧
      ∀ q r, targetAfter s t q r ↔ r = .testLogicReset)

/-- 70_reset_and_hazards.md R263: what the target answers on TDO makes no difference to what a leg drives, to the
state it ends in, to the legs left, or to whether it faults. -/
def Obligations.DrivesIgnoreSamples : Prop :=
  ∀ (i : Instr) (s t : State) (d : Draws), exec i s = .next t →
    ∃ u, exec i { s with tdoDraws := d } = .next u ∧ u.trace.map driven = t.trace.map driven ∧
      u.tap = t.tap ∧ u.cur = t.cur ∧ u.queue = t.queue ∧ u.pause = t.pause ∧ u.readback = t.readback ∧
      u.lines = t.lines ∧ u.fault = t.fault ∧ u.results.length = t.results.length
end

