-- ==== Sys2Proof/Laws/PerInstr.lean ====
section
/-! SUPPORT. Facts about every leg as syntax, one lemma for each constructor. -/

namespace Sys2Proof.Laws.KindCode

/-- A leg is its kind and its payload, and its kind's code names the kind back. -/
def Statement (i : Instr) : Prop :=
  Instr.ofKind i.kind i.payload = i ∧ Kind.ofCode i.kind.code = some i.kind

theorem dr (p : Bits) : Statement (.dr p) := ⟨rfl, rfl⟩
theorem ir (p : Bits) : Statement (.ir p) := ⟨rfl, rfl⟩
theorem reset (p : Bits) : Statement (.reset p) := ⟨rfl, rfl⟩
theorem longDelay (p : Bits) : Statement (.longDelay p) := ⟨rfl, rfl⟩
theorem idle (p : Bits) : Statement (.idle p) := ⟨rfl, rfl⟩
theorem irPause (p : Bits) : Statement (.irPause p) := ⟨rfl, rfl⟩
theorem irDirect (p : Bits) : Statement (.irDirect p) := ⟨rfl, rfl⟩
theorem drConfig (p : Bits) : Statement (.drConfig p) := ⟨rfl, rfl⟩
theorem drConfigReadback (p : Bits) : Statement (.drConfigReadback p) := ⟨rfl, rfl⟩
theorem drRecoveryReadback (p : Bits) : Statement (.drRecoveryReadback p) := ⟨rfl, rfl⟩

end Sys2Proof.Laws.KindCode
end

