-- ==== Sys2Proof/Laws/State.lean ====
section
/-! SUPPORT. One lemma for each field under each named update of the state: what the update writes, and
that it leaves every other field. -/

namespace Sys2Proof.Machine

section goToFields
variable (t : TapState) (s : State)

@[simp] theorem goTo_tap : (goTo t s).tap = t.code := rfl
@[simp] theorem goTo_cur : (goTo t s).cur = s.cur := rfl
@[simp] theorem goTo_acc : (goTo t s).acc = s.acc := rfl
@[simp] theorem goTo_pause : (goTo t s).pause = s.pause := rfl
@[simp] theorem goTo_readback : (goTo t s).readback = s.readback := rfl
@[simp] theorem goTo_queue : (goTo t s).queue = s.queue := rfl
@[simp] theorem goTo_results : (goTo t s).results = s.results := rfl
@[simp] theorem goTo_lastReadout : (goTo t s).lastReadout = s.lastReadout := rfl
@[simp] theorem goTo_lines : (goTo t s).lines = s.lines := rfl
@[simp] theorem goTo_fault : (goTo t s).fault = s.fault := rfl
@[simp] theorem goTo_trace : (goTo t s).trace = s.trace := rfl
@[simp] theorem goTo_call : (goTo t s).call = s.call := rfl
@[simp] theorem goTo_host : (goTo t s).host = s.host := rfl
@[simp] theorem goTo_replies : (goTo t s).replies = s.replies := rfl
@[simp] theorem goTo_params : (goTo t s).params = s.params := rfl
@[simp] theorem goTo_tdoDraws : (goTo t s).tdoDraws = s.tdoDraws := rfl
@[simp] theorem goTo_ioDraws : (goTo t s).ioDraws = s.ioDraws := rfl

end goToFields

section driveFields
variable (l : Lines) (s : State)

@[simp] theorem drive_tap : (drive l s).tap = s.tap := rfl
@[simp] theorem drive_cur : (drive l s).cur = s.cur := rfl
@[simp] theorem drive_acc : (drive l s).acc = s.acc := rfl
@[simp] theorem drive_pause : (drive l s).pause = s.pause := rfl
@[simp] theorem drive_readback : (drive l s).readback = s.readback := rfl
@[simp] theorem drive_queue : (drive l s).queue = s.queue := rfl
@[simp] theorem drive_results : (drive l s).results = s.results := rfl
@[simp] theorem drive_lastReadout : (drive l s).lastReadout = s.lastReadout := rfl
@[simp] theorem drive_lines : (drive l s).lines = l := rfl
@[simp] theorem drive_fault : (drive l s).fault = s.fault := rfl
@[simp] theorem drive_trace : (drive l s).trace = s.trace := rfl
@[simp] theorem drive_call : (drive l s).call = s.call := rfl
@[simp] theorem drive_host : (drive l s).host = s.host := rfl
@[simp] theorem drive_replies : (drive l s).replies = s.replies := rfl
@[simp] theorem drive_params : (drive l s).params = s.params := rfl
@[simp] theorem drive_tdoDraws : (drive l s).tdoDraws = s.tdoDraws := rfl
@[simp] theorem drive_ioDraws : (drive l s).ioDraws = s.ioDraws := rfl

end driveFields

section emitFields
variable (e : LineEvent) (s : State)

@[simp] theorem emit_tap : (emit e s).tap = s.tap := rfl
@[simp] theorem emit_cur : (emit e s).cur = s.cur := rfl
@[simp] theorem emit_acc : (emit e s).acc = s.acc := rfl
@[simp] theorem emit_pause : (emit e s).pause = s.pause := rfl
@[simp] theorem emit_readback : (emit e s).readback = s.readback := rfl
@[simp] theorem emit_queue : (emit e s).queue = s.queue := rfl
@[simp] theorem emit_results : (emit e s).results = s.results := rfl
@[simp] theorem emit_lastReadout : (emit e s).lastReadout = s.lastReadout := rfl
@[simp] theorem emit_lines : (emit e s).lines = s.lines := rfl
@[simp] theorem emit_fault : (emit e s).fault = s.fault := rfl
@[simp] theorem emit_trace : (emit e s).trace = s.trace ++ [e] := rfl
@[simp] theorem emit_call : (emit e s).call = s.call := rfl
@[simp] theorem emit_host : (emit e s).host = s.host := rfl
@[simp] theorem emit_replies : (emit e s).replies = s.replies := rfl
@[simp] theorem emit_params : (emit e s).params = s.params := rfl
@[simp] theorem emit_tdoDraws : (emit e s).tdoDraws = s.tdoDraws := rfl
@[simp] theorem emit_ioDraws : (emit e s).ioDraws = s.ioDraws := rfl

end emitFields

section takeAccessFields
variable (s : State)

@[simp] theorem takeAccess_tap : (takeAccess s).tap = s.tap := rfl
@[simp] theorem takeAccess_cur : (takeAccess s).cur = s.cur := rfl
@[simp] theorem takeAccess_acc : (takeAccess s).acc = s.acc := rfl
@[simp] theorem takeAccess_pause : (takeAccess s).pause = s.pause := rfl
@[simp] theorem takeAccess_readback : (takeAccess s).readback = s.readback := rfl
@[simp] theorem takeAccess_queue : (takeAccess s).queue = s.queue := rfl
@[simp] theorem takeAccess_results : (takeAccess s).results = s.results := rfl
@[simp] theorem takeAccess_lastReadout : (takeAccess s).lastReadout = s.lastReadout := rfl
@[simp] theorem takeAccess_lines : (takeAccess s).lines = s.lines := rfl
@[simp] theorem takeAccess_fault : (takeAccess s).fault = s.fault := rfl
@[simp] theorem takeAccess_trace : (takeAccess s).trace = s.trace := rfl
@[simp] theorem takeAccess_call : (takeAccess s).call = s.call := rfl
@[simp] theorem takeAccess_host : (takeAccess s).host = s.host := rfl
@[simp] theorem takeAccess_replies : (takeAccess s).replies = s.replies := rfl
@[simp] theorem takeAccess_params : (takeAccess s).params = s.params := rfl
@[simp] theorem takeAccess_tdoDraws : (takeAccess s).tdoDraws = s.tdoDraws := rfl
@[simp] theorem takeAccess_ioDraws : (takeAccess s).ioDraws = s.ioDraws.skip 1 := rfl

end takeAccessFields

section takeSampleFields
variable (s : State)

@[simp] theorem takeSample_tap : (takeSample s).tap = s.tap := rfl
@[simp] theorem takeSample_cur : (takeSample s).cur = s.cur := rfl
@[simp] theorem takeSample_acc : (takeSample s).acc = s.acc := rfl
@[simp] theorem takeSample_pause : (takeSample s).pause = s.pause := rfl
@[simp] theorem takeSample_readback : (takeSample s).readback = s.readback := rfl
@[simp] theorem takeSample_queue : (takeSample s).queue = s.queue := rfl
@[simp] theorem takeSample_results : (takeSample s).results = s.results := rfl
@[simp] theorem takeSample_lastReadout : (takeSample s).lastReadout = s.lastReadout := rfl
@[simp] theorem takeSample_lines : (takeSample s).lines = s.lines := rfl
@[simp] theorem takeSample_fault : (takeSample s).fault = s.fault := rfl
@[simp] theorem takeSample_trace : (takeSample s).trace = s.trace := rfl
@[simp] theorem takeSample_call : (takeSample s).call = s.call := rfl
@[simp] theorem takeSample_host : (takeSample s).host = s.host := rfl
@[simp] theorem takeSample_replies : (takeSample s).replies = s.replies := rfl
@[simp] theorem takeSample_params : (takeSample s).params = s.params := rfl
@[simp] theorem takeSample_tdoDraws : (takeSample s).tdoDraws = s.tdoDraws.skip 1 := rfl
@[simp] theorem takeSample_ioDraws : (takeSample s).ioDraws = s.ioDraws := rfl

end takeSampleFields

section pulsedFields
variable (b m : Bit) (s : State)

theorem pulsed_eq : pulsed b m s =
    { s with lines := ⟨false, m, b, s.lines.srst⟩, trace := s.trace ++ [.pulse b m (tdoAt s 0)],
             tdoDraws := s.tdoDraws.skip 1, ioDraws := s.ioDraws.skip 1 } := by
  simp only [pulsed, pulsePhases, List.foldl, emit, drive, takeSample, takeAccess]

@[simp] theorem pulsed_tap : (pulsed b m s).tap = s.tap := by rw [pulsed_eq]
@[simp] theorem pulsed_cur : (pulsed b m s).cur = s.cur := by rw [pulsed_eq]
@[simp] theorem pulsed_acc : (pulsed b m s).acc = s.acc := by rw [pulsed_eq]
@[simp] theorem pulsed_pause : (pulsed b m s).pause = s.pause := by rw [pulsed_eq]
@[simp] theorem pulsed_readback : (pulsed b m s).readback = s.readback := by rw [pulsed_eq]
@[simp] theorem pulsed_queue : (pulsed b m s).queue = s.queue := by rw [pulsed_eq]
@[simp] theorem pulsed_results : (pulsed b m s).results = s.results := by rw [pulsed_eq]
@[simp] theorem pulsed_lastReadout : (pulsed b m s).lastReadout = s.lastReadout := by rw [pulsed_eq]
@[simp] theorem pulsed_lines : (pulsed b m s).lines = ⟨false, m, b, s.lines.srst⟩ := by rw [pulsed_eq]
@[simp] theorem pulsed_fault : (pulsed b m s).fault = s.fault := by rw [pulsed_eq]
@[simp] theorem pulsed_trace : (pulsed b m s).trace = s.trace ++ [.pulse b m (tdoAt s 0)] := by rw [pulsed_eq]
@[simp] theorem pulsed_call : (pulsed b m s).call = s.call := by rw [pulsed_eq]
@[simp] theorem pulsed_host : (pulsed b m s).host = s.host := by rw [pulsed_eq]
@[simp] theorem pulsed_replies : (pulsed b m s).replies = s.replies := by rw [pulsed_eq]
@[simp] theorem pulsed_params : (pulsed b m s).params = s.params := by rw [pulsed_eq]
@[simp] theorem pulsed_tdoDraws : (pulsed b m s).tdoDraws = s.tdoDraws.skip 1 := by rw [pulsed_eq]
@[simp] theorem pulsed_ioDraws : (pulsed b m s).ioDraws = s.ioDraws.skip 1 := by rw [pulsed_eq]

end pulsedFields

section srstDrivenFields
variable (v : Bit) (s : State)

@[simp] theorem srstDriven_tap : (srstDriven v s).tap = s.tap := rfl
@[simp] theorem srstDriven_cur : (srstDriven v s).cur = s.cur := rfl
@[simp] theorem srstDriven_acc : (srstDriven v s).acc = s.acc := rfl
@[simp] theorem srstDriven_pause : (srstDriven v s).pause = s.pause := rfl
@[simp] theorem srstDriven_readback : (srstDriven v s).readback = s.readback := rfl
@[simp] theorem srstDriven_queue : (srstDriven v s).queue = s.queue := rfl
@[simp] theorem srstDriven_results : (srstDriven v s).results = s.results := rfl
@[simp] theorem srstDriven_lastReadout : (srstDriven v s).lastReadout = s.lastReadout := rfl
@[simp] theorem srstDriven_lines : (srstDriven v s).lines = ⟨s.lines.tck, s.lines.tms, s.lines.tdi, v⟩ := rfl
@[simp] theorem srstDriven_fault : (srstDriven v s).fault = s.fault := rfl
@[simp] theorem srstDriven_trace : (srstDriven v s).trace = s.trace ++ [.srst v] := rfl
@[simp] theorem srstDriven_call : (srstDriven v s).call = s.call := rfl
@[simp] theorem srstDriven_host : (srstDriven v s).host = s.host := rfl
@[simp] theorem srstDriven_replies : (srstDriven v s).replies = s.replies := rfl
@[simp] theorem srstDriven_params : (srstDriven v s).params = s.params := rfl
@[simp] theorem srstDriven_tdoDraws : (srstDriven v s).tdoDraws = s.tdoDraws := rfl
@[simp] theorem srstDriven_ioDraws : (srstDriven v s).ioDraws = s.ioDraws.skip 1 := rfl

end srstDrivenFields

section delayLongFields
variable (s : State)

@[simp] theorem delayLong_tap : (delayLong s).tap = s.tap := rfl
@[simp] theorem delayLong_cur : (delayLong s).cur = s.cur := rfl
@[simp] theorem delayLong_acc : (delayLong s).acc = s.acc := rfl
@[simp] theorem delayLong_pause : (delayLong s).pause = s.pause := rfl
@[simp] theorem delayLong_readback : (delayLong s).readback = s.readback := rfl
@[simp] theorem delayLong_queue : (delayLong s).queue = s.queue := rfl
@[simp] theorem delayLong_results : (delayLong s).results = s.results := rfl
@[simp] theorem delayLong_lastReadout : (delayLong s).lastReadout = s.lastReadout := rfl
@[simp] theorem delayLong_lines : (delayLong s).lines = s.lines := rfl
@[simp] theorem delayLong_fault : (delayLong s).fault = s.fault := rfl
@[simp] theorem delayLong_trace : (delayLong s).trace = s.trace ++ [.delayLong] := rfl
@[simp] theorem delayLong_call : (delayLong s).call = s.call := rfl
@[simp] theorem delayLong_host : (delayLong s).host = s.host := rfl
@[simp] theorem delayLong_replies : (delayLong s).replies = s.replies := rfl
@[simp] theorem delayLong_params : (delayLong s).params = s.params := rfl
@[simp] theorem delayLong_tdoDraws : (delayLong s).tdoDraws = s.tdoDraws := rfl
@[simp] theorem delayLong_ioDraws : (delayLong s).ioDraws = s.ioDraws := rfl

end delayLongFields

section delaySettleFields
variable (s : State)

@[simp] theorem delaySettle_tap : (delaySettle s).tap = s.tap := rfl
@[simp] theorem delaySettle_cur : (delaySettle s).cur = s.cur := rfl
@[simp] theorem delaySettle_acc : (delaySettle s).acc = s.acc := rfl
@[simp] theorem delaySettle_pause : (delaySettle s).pause = s.pause := rfl
@[simp] theorem delaySettle_readback : (delaySettle s).readback = s.readback := rfl
@[simp] theorem delaySettle_queue : (delaySettle s).queue = s.queue := rfl
@[simp] theorem delaySettle_results : (delaySettle s).results = s.results := rfl
@[simp] theorem delaySettle_lastReadout : (delaySettle s).lastReadout = s.lastReadout := rfl
@[simp] theorem delaySettle_lines : (delaySettle s).lines = s.lines := rfl
@[simp] theorem delaySettle_fault : (delaySettle s).fault = s.fault := rfl
@[simp] theorem delaySettle_trace : (delaySettle s).trace = s.trace ++ [.delaySettle] := rfl
@[simp] theorem delaySettle_call : (delaySettle s).call = s.call := rfl
@[simp] theorem delaySettle_host : (delaySettle s).host = s.host := rfl
@[simp] theorem delaySettle_replies : (delaySettle s).replies = s.replies := rfl
@[simp] theorem delaySettle_params : (delaySettle s).params = s.params := rfl
@[simp] theorem delaySettle_tdoDraws : (delaySettle s).tdoDraws = s.tdoDraws := rfl
@[simp] theorem delaySettle_ioDraws : (delaySettle s).ioDraws = s.ioDraws := rfl

end delaySettleFields

section clearPauseFields
variable (s : State)

@[simp] theorem clearPause_tap : (clearPause s).tap = s.tap := rfl
@[simp] theorem clearPause_cur : (clearPause s).cur = s.cur := rfl
@[simp] theorem clearPause_acc : (clearPause s).acc = s.acc := rfl
@[simp] theorem clearPause_pause : (clearPause s).pause = false := rfl
@[simp] theorem clearPause_readback : (clearPause s).readback = s.readback := rfl
@[simp] theorem clearPause_queue : (clearPause s).queue = s.queue := rfl
@[simp] theorem clearPause_results : (clearPause s).results = s.results := rfl
@[simp] theorem clearPause_lastReadout : (clearPause s).lastReadout = s.lastReadout := rfl
@[simp] theorem clearPause_lines : (clearPause s).lines = s.lines := rfl
@[simp] theorem clearPause_fault : (clearPause s).fault = s.fault := rfl
@[simp] theorem clearPause_trace : (clearPause s).trace = s.trace := rfl
@[simp] theorem clearPause_call : (clearPause s).call = s.call := rfl
@[simp] theorem clearPause_host : (clearPause s).host = s.host := rfl
@[simp] theorem clearPause_replies : (clearPause s).replies = s.replies := rfl
@[simp] theorem clearPause_params : (clearPause s).params = s.params := rfl
@[simp] theorem clearPause_tdoDraws : (clearPause s).tdoDraws = s.tdoDraws := rfl
@[simp] theorem clearPause_ioDraws : (clearPause s).ioDraws = s.ioDraws := rfl

end clearPauseFields

section flagsOnIdleEntryFields
variable (r : ShiftRow) (s : State)

@[simp] theorem flagsOnIdleEntry_tap : (flagsOnIdleEntry r s).tap = s.tap := rfl
@[simp] theorem flagsOnIdleEntry_cur : (flagsOnIdleEntry r s).cur = s.cur := rfl
@[simp] theorem flagsOnIdleEntry_acc : (flagsOnIdleEntry r s).acc = s.acc := rfl
@[simp] theorem flagsOnIdleEntry_pause : (flagsOnIdleEntry r s).pause = r.pauseOnEntry.getD s.pause := rfl
@[simp] theorem flagsOnIdleEntry_readback : (flagsOnIdleEntry r s).readback = r.readbackOnEntry.getD s.readback := rfl
@[simp] theorem flagsOnIdleEntry_queue : (flagsOnIdleEntry r s).queue = s.queue := rfl
@[simp] theorem flagsOnIdleEntry_results : (flagsOnIdleEntry r s).results = s.results := rfl
@[simp] theorem flagsOnIdleEntry_lastReadout : (flagsOnIdleEntry r s).lastReadout = s.lastReadout := rfl
@[simp] theorem flagsOnIdleEntry_lines : (flagsOnIdleEntry r s).lines = s.lines := rfl
@[simp] theorem flagsOnIdleEntry_fault : (flagsOnIdleEntry r s).fault = s.fault := rfl
@[simp] theorem flagsOnIdleEntry_trace : (flagsOnIdleEntry r s).trace = s.trace := rfl
@[simp] theorem flagsOnIdleEntry_call : (flagsOnIdleEntry r s).call = s.call := rfl
@[simp] theorem flagsOnIdleEntry_host : (flagsOnIdleEntry r s).host = s.host := rfl
@[simp] theorem flagsOnIdleEntry_replies : (flagsOnIdleEntry r s).replies = s.replies := rfl
@[simp] theorem flagsOnIdleEntry_params : (flagsOnIdleEntry r s).params = s.params := rfl
@[simp] theorem flagsOnIdleEntry_tdoDraws : (flagsOnIdleEntry r s).tdoDraws = s.tdoDraws := rfl
@[simp] theorem flagsOnIdleEntry_ioDraws : (flagsOnIdleEntry r s).ioDraws = s.ioDraws := rfl

end flagsOnIdleEntryFields

section readbackOnShortcutFields
variable (k : Kind) (s : State)

@[simp] theorem readbackOnShortcut_tap : (readbackOnShortcut k s).tap = s.tap := rfl
@[simp] theorem readbackOnShortcut_cur : (readbackOnShortcut k s).cur = s.cur := rfl
@[simp] theorem readbackOnShortcut_acc : (readbackOnShortcut k s).acc = s.acc := rfl
@[simp] theorem readbackOnShortcut_pause : (readbackOnShortcut k s).pause = s.pause := rfl
@[simp] theorem readbackOnShortcut_readback : (readbackOnShortcut k s).readback = k.isReadback := rfl
@[simp] theorem readbackOnShortcut_queue : (readbackOnShortcut k s).queue = s.queue := rfl
@[simp] theorem readbackOnShortcut_results : (readbackOnShortcut k s).results = s.results := rfl
@[simp] theorem readbackOnShortcut_lastReadout : (readbackOnShortcut k s).lastReadout = s.lastReadout := rfl
@[simp] theorem readbackOnShortcut_lines : (readbackOnShortcut k s).lines = s.lines := rfl
@[simp] theorem readbackOnShortcut_fault : (readbackOnShortcut k s).fault = s.fault := rfl
@[simp] theorem readbackOnShortcut_trace : (readbackOnShortcut k s).trace = s.trace := rfl
@[simp] theorem readbackOnShortcut_call : (readbackOnShortcut k s).call = s.call := rfl
@[simp] theorem readbackOnShortcut_host : (readbackOnShortcut k s).host = s.host := rfl
@[simp] theorem readbackOnShortcut_replies : (readbackOnShortcut k s).replies = s.replies := rfl
@[simp] theorem readbackOnShortcut_params : (readbackOnShortcut k s).params = s.params := rfl
@[simp] theorem readbackOnShortcut_tdoDraws : (readbackOnShortcut k s).tdoDraws = s.tdoDraws := rfl
@[simp] theorem readbackOnShortcut_ioDraws : (readbackOnShortcut k s).ioDraws = s.ioDraws := rfl

end readbackOnShortcutFields

section replyFields
variable (r : Reply) (s : State)

@[simp] theorem reply_tap : (reply r s).tap = s.tap := rfl
@[simp] theorem reply_cur : (reply r s).cur = s.cur := rfl
@[simp] theorem reply_acc : (reply r s).acc = s.acc := rfl
@[simp] theorem reply_pause : (reply r s).pause = s.pause := rfl
@[simp] theorem reply_readback : (reply r s).readback = s.readback := rfl
@[simp] theorem reply_queue : (reply r s).queue = s.queue := rfl
@[simp] theorem reply_results : (reply r s).results = s.results := rfl
@[simp] theorem reply_lastReadout : (reply r s).lastReadout = s.lastReadout := rfl
@[simp] theorem reply_lines : (reply r s).lines = s.lines := rfl
@[simp] theorem reply_fault : (reply r s).fault = s.fault := rfl
@[simp] theorem reply_trace : (reply r s).trace = s.trace := rfl
@[simp] theorem reply_call : (reply r s).call = s.call := rfl
@[simp] theorem reply_host : (reply r s).host = s.host := rfl
@[simp] theorem reply_replies : (reply r s).replies = s.replies ++ [r] := rfl
@[simp] theorem reply_params : (reply r s).params = s.params := rfl
@[simp] theorem reply_tdoDraws : (reply r s).tdoDraws = s.tdoDraws := rfl
@[simp] theorem reply_ioDraws : (reply r s).ioDraws = s.ioDraws := rfl

end replyFields

section refuseFields
variable (e : ErrorCode) (s : State)

@[simp] theorem refuse_tap : (refuse e s).tap = s.tap := rfl
@[simp] theorem refuse_cur : (refuse e s).cur = s.cur := rfl
@[simp] theorem refuse_acc : (refuse e s).acc = s.acc := rfl
@[simp] theorem refuse_pause : (refuse e s).pause = s.pause := rfl
@[simp] theorem refuse_readback : (refuse e s).readback = s.readback := rfl
@[simp] theorem refuse_queue : (refuse e s).queue = s.queue := rfl
@[simp] theorem refuse_results : (refuse e s).results = s.results := rfl
@[simp] theorem refuse_lastReadout : (refuse e s).lastReadout = s.lastReadout := rfl
@[simp] theorem refuse_lines : (refuse e s).lines = s.lines := rfl
@[simp] theorem refuse_fault : (refuse e s).fault = s.fault := rfl
@[simp] theorem refuse_trace : (refuse e s).trace = s.trace := rfl
@[simp] theorem refuse_call : (refuse e s).call = s.call := rfl
@[simp] theorem refuse_host : (refuse e s).host = s.host := rfl
@[simp] theorem refuse_replies : (refuse e s).replies = s.replies ++ [.refused e] := rfl
@[simp] theorem refuse_params : (refuse e s).params = s.params := rfl
@[simp] theorem refuse_tdoDraws : (refuse e s).tdoDraws = s.tdoDraws := rfl
@[simp] theorem refuse_ioDraws : (refuse e s).ioDraws = s.ioDraws := rfl

end refuseFields

section enqueueFields
variable (i : Instr) (s : State)

@[simp] theorem enqueue_tap : (enqueue i s).tap = s.tap := rfl
@[simp] theorem enqueue_cur : (enqueue i s).cur = s.cur := rfl
@[simp] theorem enqueue_acc : (enqueue i s).acc = s.acc := rfl
@[simp] theorem enqueue_pause : (enqueue i s).pause = s.pause := rfl
@[simp] theorem enqueue_readback : (enqueue i s).readback = s.readback := rfl
@[simp] theorem enqueue_queue : (enqueue i s).queue = s.queue ++ [i] := rfl
@[simp] theorem enqueue_results : (enqueue i s).results = s.results := rfl
@[simp] theorem enqueue_lastReadout : (enqueue i s).lastReadout = s.lastReadout := rfl
@[simp] theorem enqueue_lines : (enqueue i s).lines = s.lines := rfl
@[simp] theorem enqueue_fault : (enqueue i s).fault = s.fault := rfl
@[simp] theorem enqueue_trace : (enqueue i s).trace = s.trace := rfl
@[simp] theorem enqueue_call : (enqueue i s).call = s.call := rfl
@[simp] theorem enqueue_host : (enqueue i s).host = s.host := rfl
@[simp] theorem enqueue_replies : (enqueue i s).replies = s.replies ++ [.accepted] := rfl
@[simp] theorem enqueue_params : (enqueue i s).params = s.params := rfl
@[simp] theorem enqueue_tdoDraws : (enqueue i s).tdoDraws = s.tdoDraws := rfl
@[simp] theorem enqueue_ioDraws : (enqueue i s).ioDraws = s.ioDraws := rfl

end enqueueFields

section endCallFields
variable (s : State)

@[simp] theorem endCall_tap : (endCall s).tap = s.tap := rfl
@[simp] theorem endCall_cur : (endCall s).cur = s.cur := rfl
@[simp] theorem endCall_acc : (endCall s).acc = s.acc := rfl
@[simp] theorem endCall_pause : (endCall s).pause = s.pause := rfl
@[simp] theorem endCall_readback : (endCall s).readback = s.readback := rfl
@[simp] theorem endCall_queue : (endCall s).queue = s.queue := rfl
@[simp] theorem endCall_results : (endCall s).results = s.results := rfl
@[simp] theorem endCall_lastReadout : (endCall s).lastReadout = s.lastReadout := rfl
@[simp] theorem endCall_lines : (endCall s).lines = s.lines := rfl
@[simp] theorem endCall_fault : (endCall s).fault = s.fault := rfl
@[simp] theorem endCall_trace : (endCall s).trace = s.trace := rfl
@[simp] theorem endCall_call : (endCall s).call = none := rfl
@[simp] theorem endCall_host : (endCall s).host = s.host := rfl
@[simp] theorem endCall_replies : (endCall s).replies = s.replies ++ [.advanced s.fault] := rfl
@[simp] theorem endCall_params : (endCall s).params = s.params := rfl
@[simp] theorem endCall_tdoDraws : (endCall s).tdoDraws = s.tdoDraws := rfl
@[simp] theorem endCall_ioDraws : (endCall s).ioDraws = s.ioDraws := rfl

end endCallFields

section qPopFields
variable (s : State)

@[simp] theorem qPop_tap : (qPop s).tap = s.tap := by cases h : s.queue <;> simp [qPop, h]
@[simp] theorem qPop_cur : (qPop s).cur = s.queue.head? := by cases h : s.queue <;> simp [qPop, h]
@[simp] theorem qPop_acc : (qPop s).acc = s.acc := by cases h : s.queue <;> simp [qPop, h]
@[simp] theorem qPop_pause : (qPop s).pause = s.pause := by cases h : s.queue <;> simp [qPop, h]
@[simp] theorem qPop_readback : (qPop s).readback = s.readback := by cases h : s.queue <;> simp [qPop, h]
@[simp] theorem qPop_queue : (qPop s).queue = s.queue.tail := by cases h : s.queue <;> simp [qPop, h]
@[simp] theorem qPop_results : (qPop s).results = s.results := by cases h : s.queue <;> simp [qPop, h]
@[simp] theorem qPop_lastReadout : (qPop s).lastReadout = s.lastReadout := by cases h : s.queue <;> simp [qPop, h]
@[simp] theorem qPop_lines : (qPop s).lines = s.lines := by cases h : s.queue <;> simp [qPop, h]
@[simp] theorem qPop_fault : (qPop s).fault = s.fault := by cases h : s.queue <;> simp [qPop, h]
@[simp] theorem qPop_trace : (qPop s).trace = s.trace := by cases h : s.queue <;> simp [qPop, h]
@[simp] theorem qPop_call : (qPop s).call = s.call := by cases h : s.queue <;> simp [qPop, h]
@[simp] theorem qPop_host : (qPop s).host = s.host := by cases h : s.queue <;> simp [qPop, h]
@[simp] theorem qPop_replies : (qPop s).replies = s.replies := by cases h : s.queue <;> simp [qPop, h]
@[simp] theorem qPop_params : (qPop s).params = s.params := by cases h : s.queue <;> simp [qPop, h]
@[simp] theorem qPop_tdoDraws : (qPop s).tdoDraws = s.tdoDraws := by cases h : s.queue <;> simp [qPop, h]
@[simp] theorem qPop_ioDraws : (qPop s).ioDraws = s.ioDraws := by cases h : s.queue <;> simp [qPop, h]

end qPopFields

section pauseOnShortcutFields
variable (k : Kind) (s : State)

@[simp] theorem pauseOnShortcut_tap : (pauseOnShortcut k s).tap = s.tap := by cases k <;> rfl
@[simp] theorem pauseOnShortcut_cur : (pauseOnShortcut k s).cur = s.cur := by cases k <;> rfl
@[simp] theorem pauseOnShortcut_acc : (pauseOnShortcut k s).acc = s.acc := by cases k <;> rfl
@[simp] theorem pauseOnShortcut_pause : (pauseOnShortcut k s).pause = (decide (k = .irPause) || s.pause) := by cases k <;> rfl
@[simp] theorem pauseOnShortcut_readback : (pauseOnShortcut k s).readback = s.readback := by cases k <;> rfl
@[simp] theorem pauseOnShortcut_queue : (pauseOnShortcut k s).queue = s.queue := by cases k <;> rfl
@[simp] theorem pauseOnShortcut_results : (pauseOnShortcut k s).results = s.results := by cases k <;> rfl
@[simp] theorem pauseOnShortcut_lastReadout : (pauseOnShortcut k s).lastReadout = s.lastReadout := by cases k <;> rfl
@[simp] theorem pauseOnShortcut_lines : (pauseOnShortcut k s).lines = s.lines := by cases k <;> rfl
@[simp] theorem pauseOnShortcut_fault : (pauseOnShortcut k s).fault = s.fault := by cases k <;> rfl
@[simp] theorem pauseOnShortcut_trace : (pauseOnShortcut k s).trace = s.trace := by cases k <;> rfl
@[simp] theorem pauseOnShortcut_call : (pauseOnShortcut k s).call = s.call := by cases k <;> rfl
@[simp] theorem pauseOnShortcut_host : (pauseOnShortcut k s).host = s.host := by cases k <;> rfl
@[simp] theorem pauseOnShortcut_replies : (pauseOnShortcut k s).replies = s.replies := by cases k <;> rfl
@[simp] theorem pauseOnShortcut_params : (pauseOnShortcut k s).params = s.params := by cases k <;> rfl
@[simp] theorem pauseOnShortcut_tdoDraws : (pauseOnShortcut k s).tdoDraws = s.tdoDraws := by cases k <;> rfl
@[simp] theorem pauseOnShortcut_ioDraws : (pauseOnShortcut k s).ioDraws = s.ioDraws := by cases k <;> rfl

end pauseOnShortcutFields

section consumeReadbackFields
variable (v : Nat) (s : State)

@[simp] theorem consumeReadback_tap : (consumeReadback v s).tap = s.tap := by cases h : s.readback <;> simp [consumeReadback, h]
@[simp] theorem consumeReadback_cur : (consumeReadback v s).cur = s.cur := by cases h : s.readback <;> simp [consumeReadback, h]
@[simp] theorem consumeReadback_acc : (consumeReadback v s).acc = s.acc := by cases h : s.readback <;> simp [consumeReadback, h]
@[simp] theorem consumeReadback_pause : (consumeReadback v s).pause = s.pause := by cases h : s.readback <;> simp [consumeReadback, h]
@[simp] theorem consumeReadback_readback : (consumeReadback v s).readback = false := by cases h : s.readback <;> simp [consumeReadback, h]
@[simp] theorem consumeReadback_queue : (consumeReadback v s).queue = s.queue := by cases h : s.readback <;> simp [consumeReadback, h]
@[simp] theorem consumeReadback_results : (consumeReadback v s).results = s.results := by cases h : s.readback <;> simp [consumeReadback, h]
@[simp] theorem consumeReadback_lastReadout : (consumeReadback v s).lastReadout = (if s.readback then some v else s.lastReadout) := by cases h : s.readback <;> simp [consumeReadback, h]
@[simp] theorem consumeReadback_lines : (consumeReadback v s).lines = s.lines := by cases h : s.readback <;> simp [consumeReadback, h]
@[simp] theorem consumeReadback_fault : (consumeReadback v s).fault = s.fault := by cases h : s.readback <;> simp [consumeReadback, h]
@[simp] theorem consumeReadback_trace : (consumeReadback v s).trace = s.trace := by cases h : s.readback <;> simp [consumeReadback, h]
@[simp] theorem consumeReadback_call : (consumeReadback v s).call = s.call := by cases h : s.readback <;> simp [consumeReadback, h]
@[simp] theorem consumeReadback_host : (consumeReadback v s).host = s.host := by cases h : s.readback <;> simp [consumeReadback, h]
@[simp] theorem consumeReadback_replies : (consumeReadback v s).replies = s.replies := by cases h : s.readback <;> simp [consumeReadback, h]
@[simp] theorem consumeReadback_params : (consumeReadback v s).params = s.params := by cases h : s.readback <;> simp [consumeReadback, h]
@[simp] theorem consumeReadback_tdoDraws : (consumeReadback v s).tdoDraws = s.tdoDraws := by cases h : s.readback <;> simp [consumeReadback, h]
@[simp] theorem consumeReadback_ioDraws : (consumeReadback v s).ioDraws = s.ioDraws := by cases h : s.readback <;> simp [consumeReadback, h]

end consumeReadbackFields

section keepSampleFields
variable (k : Bool) (t : Bit) (s : State)

@[simp] theorem keepSample_tap : (keepSample k t s).tap = s.tap := by cases k <;> rfl
@[simp] theorem keepSample_cur : (keepSample k t s).cur = s.cur := by cases k <;> rfl
@[simp] theorem keepSample_acc : (keepSample k t s).acc = (if k then t :: s.acc else s.acc) := by cases k <;> rfl
@[simp] theorem keepSample_pause : (keepSample k t s).pause = s.pause := by cases k <;> rfl
@[simp] theorem keepSample_readback : (keepSample k t s).readback = s.readback := by cases k <;> rfl
@[simp] theorem keepSample_queue : (keepSample k t s).queue = s.queue := by cases k <;> rfl
@[simp] theorem keepSample_results : (keepSample k t s).results = s.results := by cases k <;> rfl
@[simp] theorem keepSample_lastReadout : (keepSample k t s).lastReadout = s.lastReadout := by cases k <;> rfl
@[simp] theorem keepSample_lines : (keepSample k t s).lines = s.lines := by cases k <;> rfl
@[simp] theorem keepSample_fault : (keepSample k t s).fault = s.fault := by cases k <;> rfl
@[simp] theorem keepSample_trace : (keepSample k t s).trace = s.trace := by cases k <;> rfl
@[simp] theorem keepSample_call : (keepSample k t s).call = s.call := by cases k <;> rfl
@[simp] theorem keepSample_host : (keepSample k t s).host = s.host := by cases k <;> rfl
@[simp] theorem keepSample_replies : (keepSample k t s).replies = s.replies := by cases k <;> rfl
@[simp] theorem keepSample_params : (keepSample k t s).params = s.params := by cases k <;> rfl
@[simp] theorem keepSample_tdoDraws : (keepSample k t s).tdoDraws = s.tdoDraws := by cases k <;> rfl
@[simp] theorem keepSample_ioDraws : (keepSample k t s).ioDraws = s.ioDraws := by cases k <;> rfl

end keepSampleFields

section raiseFields
variable (e : ErrorCode) (s : State)

@[simp] theorem raise_tap : (raise e s).tap = s.tap := by cases h : s.fault <;> simp [raise, h]
@[simp] theorem raise_cur : (raise e s).cur = s.cur := by cases h : s.fault <;> simp [raise, h]
@[simp] theorem raise_acc : (raise e s).acc = s.acc := by cases h : s.fault <;> simp [raise, h]
@[simp] theorem raise_pause : (raise e s).pause = s.pause := by cases h : s.fault <;> simp [raise, h]
@[simp] theorem raise_readback : (raise e s).readback = s.readback := by cases h : s.fault <;> simp [raise, h]
@[simp] theorem raise_queue : (raise e s).queue = s.queue := by cases h : s.fault <;> simp [raise, h]
@[simp] theorem raise_results : (raise e s).results = s.results := by cases h : s.fault <;> simp [raise, h]
@[simp] theorem raise_lastReadout : (raise e s).lastReadout = s.lastReadout := by cases h : s.fault <;> simp [raise, h]
@[simp] theorem raise_lines : (raise e s).lines = s.lines := by cases h : s.fault <;> simp [raise, h]
@[simp] theorem raise_fault : (raise e s).fault = some (s.fault.getD e) := by cases h : s.fault <;> simp [raise, h]
@[simp] theorem raise_trace : (raise e s).trace = s.trace := by cases h : s.fault <;> simp [raise, h]
@[simp] theorem raise_call : (raise e s).call = s.call := by cases h : s.fault <;> simp [raise, h]
@[simp] theorem raise_host : (raise e s).host = s.host := by cases h : s.fault <;> simp [raise, h]
@[simp] theorem raise_replies : (raise e s).replies = s.replies := by cases h : s.fault <;> simp [raise, h]
@[simp] theorem raise_params : (raise e s).params = s.params := by cases h : s.fault <;> simp [raise, h]
@[simp] theorem raise_tdoDraws : (raise e s).tdoDraws = s.tdoDraws := by cases h : s.fault <;> simp [raise, h]
@[simp] theorem raise_ioDraws : (raise e s).ioDraws = s.ioDraws := by cases h : s.fault <;> simp [raise, h]

end raiseFields

end Sys2Proof.Machine
end

