-- ==== Sys2Proof/Laws/Ops.lean ====
section
/-! SUPPORT. What each shared operation does, said once: the codes, the bit-strings, the draws, the line
primitives and the leg queue. -/

namespace Sys2Proof

@[simp] theorem Instr.ofKind_kind_payload (i : Instr) : Instr.ofKind i.kind i.payload = i := by
  cases i <;> rfl

@[simp] theorem Instr.kind_ofKind (k : Kind) (p : Bits) : (Instr.ofKind k p).kind = k := by
  cases k <;> rfl

@[simp] theorem Instr.payload_ofKind (k : Kind) (p : Bits) : (Instr.ofKind k p).payload = p := by
  cases k <;> rfl

@[simp] theorem Instr.kind_withPayload (i : Instr) (p : Bits) : (i.withPayload p).kind = i.kind :=
  Instr.kind_ofKind _ _

@[simp] theorem Instr.payload_withPayload (i : Instr) (p : Bits) : (i.withPayload p).payload = p :=
  Instr.payload_ofKind _ _

@[simp] theorem Kind.ofCode_code (k : Kind) : Kind.ofCode k.code = some k := by cases k <;> rfl

@[simp] theorem val_nil : val [] = 0 := rfl

theorem val_cons (b : Bit) (s : Bits) : val (b :: s) = b.toNat * 2 ^ s.length + val s := rfl

theorem val_append (s t : Bits) : val (s ++ t) = val s * 2 ^ t.length + val t := by
  induction s with
  | nil => simp
  | cons b s ih => simp [val_cons, ih, pow_add]; ring

theorem val_lt (s : Bits) : val s < 2 ^ s.length := by
  induction s with
  | nil => simp
  | cons b s ih => cases b <;> simp [val_cons, pow_succ] <;> omega

end Sys2Proof

namespace Sys2Proof.Machine

@[simp] theorem TapState.ofCode_code (t : TapState) : TapState.ofCode t.code = some t := by
  cases t <;> rfl

theorem TapState.code_of_ofCode {c : BitVec 4} {t : TapState} (h : TapState.ofCode c = some t) :
    c = t.code := by
  revert h; revert c; cases t <;> decide

@[simp] theorem TapState.code_inj (t u : TapState) : t.code = u.code ↔ t = u := by
  cases t <;> cases u <;> decide

@[simp] theorem Phy.andThen_done {α β : Type} (a : α) (s : State) (f : α → State → Phy β) :
    (Phy.done a s).andThen f = f a s := rfl

@[simp] theorem Phy.andThen_stopped {α β : Type} (s : State) (f : α → State → Phy β) :
    (Phy.stopped s).andThen f = .stopped s := rfl

@[simp] theorem Phy.finish_done (c : Bool) (s : State) : (Phy.done c s).finish = (s, c) := rfl

@[simp] theorem Phy.finish_stopped (s : State) : (Phy.stopped s).finish = (s, false) := rfl

@[simp] theorem Draws.skip_zero (d : Draws) : d.skip 0 = d := rfl

@[simp] theorem Draws.skip_skip (m n : Nat) (d : Draws) : (d.skip m).skip n = d.skip (m + n) := by
  simp [Draws.skip, Nat.add_assoc]

theorem Draws.peek_skip (f : Nat → Bool) (m n : Nat) (d : Draws) :
    (d.skip m).peek f n = d.peek f (m + n) := by
  simp [Draws.peek, Draws.skip, Nat.add_assoc]

/-- A sample seen past one pulse is the next one. -/
@[simp] theorem tdoAt_pulsed (b m : Bit) (s : State) (k : Nat) :
    tdoAt (pulsed b m s) k = tdoAt s (1 + k) := by
  simp [tdoAt, Draws.peek_skip]

@[simp] theorem failsAt_pulsed (b m : Bit) (s : State) (k : Nat) :
    failsAt (pulsed b m s) k = failsAt s (1 + k) := by
  simp [failsAt, Draws.peek_skip]

theorem accessesSucceed_iff (n : Nat) (s : State) :
    accessesSucceed n s = true ↔ ∀ k < n, failsAt s k = false := by
  simp [accessesSucceed, List.all_eq_true]

theorem accessesSucceed_mono {m n : Nat} {s : State} (h : accessesSucceed n s = true) (hm : m ≤ n) :
    accessesSucceed m s = true := by
  rw [accessesSucceed_iff] at *
  exact fun k hk => h k (by omega)

/-- The draws alone decide which accesses succeed. -/
theorem failsAt_congr {s t : State} (h : t.ioDraws = s.ioDraws) (k : Nat) : failsAt t k = failsAt s k := by
  simp [failsAt, h]

theorem tdoAt_congr {s t : State} (h : t.tdoDraws = s.tdoDraws) (k : Nat) : tdoAt t k = tdoAt s k := by
  simp [tdoAt, h]

/-- A pulse either succeeds or stops at its access; there is no third way. -/
theorem pulse_cases (b m : Bit) (s : State) :
    (failsAt s 0 = false ∧ pulse b m s = .done (tdoAt s 0) (pulsed b m s)) ∨
      (failsAt s 0 = true ∧ pulse b m s = .stopped (failAccess s)) := by
  cases h : failsAt s 0 <;> simp [pulse, h]

theorem pulseW_done {s : State} (h : failsAt s 0 = false) (b m : Bit) :
    pulseW b m s = .done () (pulsed b m s) := by
  simp [pulseW, pulse, h]

theorem pulseW_stopped {s : State} (h : failsAt s 0 = true) (b m : Bit) :
    pulseW b m s = .stopped (failAccess s) := by
  simp [pulseW, pulse, h]

theorem pulseW_cases (b m : Bit) (s : State) :
    (failsAt s 0 = false ∧ pulseW b m s = .done () (pulsed b m s)) ∨
      (failsAt s 0 = true ∧ pulseW b m s = .stopped (failAccess s)) := by
  cases h : failsAt s 0
  · exact .inl ⟨rfl, pulseW_done h b m⟩
  · exact .inr ⟨rfl, pulseW_stopped h b m⟩

/-- A failed access writes the fault register, the lines and its draw, and nothing else. -/
theorem failAccess_eq (s : State) :
    failAccess s = { s with fault := some (s.fault.getD .phyIo), ioDraws := s.ioDraws.skip 1,
                            lines := Config.linesAfterFailure s.ioDraws.taken } := by
  cases h : s.fault <;> simp [failAccess, raise, drive, takeAccess, h]

/-- Pulses in a row that all succeed are the closed form. -/
theorem afterPulses_nil (s : State) : afterPulses [] s = s := by
  simp [afterPulses, pulseEvents, linesAfter]

theorem afterPulses_cons (d : Drive) (ds : List Drive) (s : State) :
    afterPulses (d :: ds) s = afterPulses ds (pulsed d.1 d.2 s) := by
  rw [pulsed_eq]
  have hl : linesAfter s.lines (d :: ds) = linesAfter ⟨false, d.2, d.1, s.lines.srst⟩ ds := by
    cases h : ds.getLast? with
    | none =>
      have : ds = [] := by simpa using h
      subst this; rfl
    | some e =>
      have : (d :: ds).getLast? = some e := by rw [List.getLast?_cons, h]; rfl
      simp [linesAfter, h, this]
  simp [afterPulses, pulseEvents, hl, tdoAt, Draws.peek_skip, List.append_assoc, Nat.add_comm]

theorem qPop_nil {s : State} (h : s.queue = []) : qPop s = { s with cur := none } := by
  simp [qPop, h]

theorem qPop_cons {s : State} {i : Instr} {q : List Instr} (h : s.queue = i :: q) :
    qPop s = { s with cur := some i, queue := q } := by
  simp [qPop, h]

theorem takeBit_nil (o : Order) : takeBit o [] = none := by cases o <;> rfl

theorem takeBit_head (b : Bit) (p : Bits) : takeBit .head (b :: p) = some (b, p) := rfl

theorem takeBit_tail (b : Bit) (p : Bits) : takeBit .tail (p ++ [b]) = some (b, p) := by
  have hl : lastBit (p ++ [b]) = some b := by simp [lastBit]
  have hd : dropLastBit (p ++ [b]) = some p := by
    cases p with
    | nil => rfl
    | cons c p => exact congrArg some (List.dropLast_concat (l₁ := c :: p))
  simp [takeBit, hl, hd]

/-- What is taken is the first bit of the shift order, what is left shifts after it. -/
theorem takeBit_spec {o : Order} {p rest : Bits} {b : Bit} (h : takeBit o p = some (b, rest)) :
    shiftSequence o p = b :: shiftSequence o rest ∧ p.length = rest.length + 1 := by
  cases o with
  | head =>
    cases p with
    | nil => simp [takeBit_nil] at h
    | cons c p => rw [takeBit_head] at h; simp at h; obtain ⟨rfl, rfl⟩ := h; simp [shiftSequence]
  | tail =>
    rcases List.eq_nil_or_concat p with rfl | ⟨q, c, rfl⟩
    · simp [takeBit_nil] at h
    · rw [List.concat_eq_append, takeBit_tail] at h
      simp at h; obtain ⟨rfl, rfl⟩ := h; simp [shiftSequence]

theorem takeBit_of_ne_nil (o : Order) {p : Bits} (h : p ≠ []) :
    ∃ b rest, takeBit o p = some (b, rest) := by
  cases o with
  | head =>
    cases p with
    | nil => exact absurd rfl h
    | cons c p => exact ⟨c, p, rfl⟩
  | tail =>
    rcases List.eq_nil_or_concat p with rfl | ⟨q, c, rfl⟩
    · exact absurd rfl h
    · exact ⟨c, q, by rw [List.concat_eq_append, takeBit_tail]⟩

/-- The kind decode table has a shift row for the shift kinds and only for them. -/
theorem kindRow_isShift (k : Kind) : k.isShift = true ↔ ∃ r, kindRow k = .shift r := by
  cases k <;> simp [Kind.isShift, kindRow]

theorem kindRow_isControl (k : Kind) : k.isShift = false ↔ ∃ c, kindRow k = .control c := by
  cases k <;> simp [Kind.isShift, kindRow]

end Sys2Proof.Machine
end

