-- ==== Sys2Proof/Laws/Tap.lean ====
section
/-! SUPPORT. What each branch of `Step()` does: one lemma for each branch and the way it ends, which
later proofs cite instead of unfolding the step; and how a run of steps goes on or ends. -/

namespace Sys2Proof.Machine

/-- The branch of a state, once its code is known. -/
theorem stepBranch_at {s : State} {t : TapState} (h : s.tap = t.code) :
    stepBranch s =
      match t with
      | .reset => stepReset s
      | .idle => stepIdle s
      | .select => stepSelect s
      | .capture => stepCapture s
      | .shift => stepShift s
      | .exit1 => stepExit1 s
      | .pause => stepPause s
      | .exit2 => stepExit2 s
      | .update => stepUpdate s := by
  cases t <;> simp [stepBranch, h]

/-- In a session without a fault, a step is its branch. -/
theorem tapStep_live {s : State} (h : s.fault = none) : tapStep s = (stepBranch s).finish := by
  simp [tapStep, h]

/-- In a faulted session no step is enabled. -/
theorem tapStep_faulted {s : State} (h : s.fault.isSome = true) : tapStep s = (s, false) := by
  simp [tapStep, h]

theorem stepReset_done {s : State} (h : failsAt s 0 = false) :
    stepReset s = .done false (goTo .idle (pulsed false false s)) := by
  simp [stepReset, pulseW_done h]

theorem stepSelect_done {s : State} (h : failsAt s 0 = false) :
    stepSelect s = .done false (goTo .capture (pulsed false false s)) := by
  simp [stepSelect, pulseW_done h]

theorem stepCapture_done {s : State} (h : failsAt s 0 = false) :
    stepCapture s = .done false (goTo .shift { pulsed false false s with acc := [] }) := by
  simp [stepCapture, pulseW_done h]

theorem stepExit1_pause {s : State} (h : failsAt s 0 = false) (hp : s.pause = true) :
    stepExit1 s = .done false (clearPause (goTo .pause (pulsed false false s))) := by
  simp [stepExit1, pulseW_done h, hp]

theorem stepExit1_update {s : State} (h : failsAt s 0 = false) (hp : s.pause = false) :
    stepExit1 s = .done false (goTo .update (pulsed false true s)) := by
  simp [stepExit1, pulseW_done h, hp]

theorem stepPause_done {s : State} (h : failsAt s 0 = false) :
    stepPause s = .done false (goTo .exit2 (pulsed false true s)) := by
  simp [stepPause, pulseW_done h]

theorem stepExit2_done {s : State} (h : failsAt s 0 = false) :
    stepExit2 s = .done false (goTo .update (pulsed false true s)) := by
  simp [stepExit2, pulseW_done h]

theorem returnToIdle_done {s : State} (h : failsAt s 0 = false) :
    returnToIdle s = .done true (goTo .idle (pulsed false false s)) := by
  simp [returnToIdle, pulseW_done h]

theorem shortcutDr_done {s : State} (k : Kind) (h : failsAt s 0 = false) :
    shortcutDr k s =
      .done true (goTo .select (pulsed false true (readbackOnShortcut k (qPop s)))) := by
  have h' : failsAt (readbackOnShortcut k (qPop s)) 0 = false := by
    rw [failsAt_congr (s := s) (by simp)]; exact h
  simp [shortcutDr, pulseW_done h']

theorem shortcutIr_done {s : State} (k : Kind) (h : failsAt s 0 = false) (h1 : failsAt s 1 = false) :
    shortcutIr k s = .done true
      (goTo .select (pulsed false true (qPop (pauseOnShortcut k (pulsed false true s))))) := by
  have h' : failsAt (qPop (pauseOnShortcut k (pulsed false true s))) 0 = false := by
    rw [failsAt_congr (s := pulsed false true s) (by simp)]; simpa using h1
  simp [shortcutIr, pulseW_done h, pulseW_done h']

/-- Pulses in a row: all succeed, or the first failing access stops them. -/
theorem pulseTimes_done {n : Nat} {s : State} (b m : Bit) (h : accessesSucceed n s = true) :
    pulseTimes b m n s = .done () (afterPulses (List.replicate n (b, m)) s) := by
  induction n generalizing s with
  | zero => simp [pulseTimes, afterPulses_nil]
  | succ n ih =>
    rw [accessesSucceed_iff] at h
    have h0 := h 0 (by omega)
    have h' : accessesSucceed n (pulsed b m s) = true := by
      rw [accessesSucceed_iff]; intro k hk; simpa using h (1 + k) (by omega)
    simp [pulseTimes, pulseW_done h0, ih h', List.replicate_succ, afterPulses_cons]

theorem enterFromIdle_done {s : State} {r : ShiftRow} (h : accessesSucceed r.entryPulses s = true) :
    enterFromIdle r s = .done false (goTo .select (flagsOnIdleEntry r
      (afterPulses (List.replicate r.entryPulses (false, true)) s))) := by
  simp [enterFromIdle, pulseTimes_done _ _ h]

/-- A SHIFT step with a bit to shift. -/
theorem stepShift_some {s : State} {i : Instr} {r : ShiftRow} {b : Bit} {rest : Bits}
    (hc : s.cur = some i) (hr : kindRow i.kind = .shift r) (hb : takeBit r.order i.payload = some (b, rest)) :
    stepShift s = shiftBit r i b rest s := by
  simp [stepShift, hc, hr, hb]

/-- SHIFT of a bit that is not the last. -/
theorem shiftBit_more {s : State} {r : ShiftRow} {i : Instr} {b : Bit} {rest : Bits}
    (h : failsAt s 0 = false) (hn : i.payload.length ≠ 1) :
    shiftBit r i b rest s = .done false
      { keepSample r.sampleNonFinal (tdoAt s 0) (pulsed b false s) with
        cur := some (i.withPayload rest) } := by
  simp [shiftBit, pulse, h, hn]

/-- SHIFT of the last bit. -/
theorem shiftBit_last {s : State} {r : ShiftRow} {i : Instr} {b : Bit} {rest : Bits}
    (h : failsAt s 0 = false) (hn : i.payload.length = 1) :
    shiftBit r i b rest s = .done false (goTo .exit1
      { keepSample r.sampleFinal (tdoAt s 0) (pulsed b true s) with cur := none }) := by
  simp [shiftBit, pulse, h, hn]

theorem runSteps_zero (s : State) : runSteps 0 s = s := rfl

theorem runSteps_succ (n : Nat) (s : State) :
    runSteps (n + 1) s =
      if (tapStep s).2 || (tapStep s).1.fault.isSome then (tapStep s).1 else runSteps n (tapStep s).1 := rfl

/-- A step that neither completes a leg nor faults: the run goes on. -/
theorem runSteps_more {n : Nat} {s t : State} (hs : s.fault = none) (hb : stepBranch s = .done false t)
    (ht : t.fault = none) : runSteps (n + 1) s = runSteps n t := by
  simp [runSteps_succ, tapStep_live hs, hb, ht]

/-- A step that completes a leg ends the run. -/
theorem runSteps_complete {n : Nat} {s t : State} (hs : s.fault = none)
    (hb : stepBranch s = .done true t) : runSteps (n + 1) s = t := by
  simp [runSteps_succ, tapStep_live hs, hb]

@[simp] theorem tapSteps_zero (s : State) : tapSteps 0 s = s := rfl

theorem tapSteps_succ (n : Nat) (s : State) : tapSteps (n + 1) s = tapSteps n (tapStep s).1 := rfl

/-- A run stops at its first step that completes a leg or faults, when it has that many steps. -/
theorem runSteps_first_end {fuel k : Nat} {s : State} (hk : k < fuel)
    (before : ∀ j < k, (tapStep (tapSteps j s)).2 = false ∧ (tapStep (tapSteps j s)).1.fault = none)
    (ends : (tapStep (tapSteps k s)).2 = true ∨ (tapStep (tapSteps k s)).1.fault ≠ none) :
    runSteps fuel s = (tapStep (tapSteps k s)).1 := by
  induction fuel generalizing k s with
  | zero => omega
  | succ fuel ih =>
    rw [runSteps_succ]
    cases k with
    | zero =>
      rw [if_pos (by simpa [Option.isSome_iff_ne_none] using ends), tapSteps_zero]
    | succ k =>
      have h0 := before 0 (by omega)
      rw [tapSteps_zero] at h0
      simpa [h0, tapSteps_succ] using
        ih (by omega) (fun j hj => by simpa [tapSteps_succ] using before (j + 1) (by omega))
          (by simpa [tapSteps_succ] using ends)

/-- The meaning of every leg is the run of its steps. -/
theorem exec_eq_runLeg (i : Instr) (s : State) : exec i s = runLeg i s := by cases i <;> rfl

theorem runLeg_live {i : Instr} {s : State} (h : s.fault = none) :
    runLeg i s = .next (runSteps (legFuel i) { s with cur := some i }) := by
  simp [runLeg, h]

end Sys2Proof.Machine
end

