-- ==== Sys2Proof/Laws/Cases.lean ====
section
/-! SUPPORT. Every way each branch of `Step()` can end. -/

namespace Sys2Proof.Machine

theorem pulsed_eq_afterPulses (b m : Bit) (s : State) : pulsed b m s = afterPulses [(b, m)] s := by
  rw [afterPulses_cons, afterPulses_nil]

theorem afterPulses_append (ds es : List Drive) (s : State) :
    afterPulses (ds ++ es) s = afterPulses es (afterPulses ds s) := by
  induction ds generalizing s with
  | nil => simp [afterPulses_nil]
  | cons d ds ih => rw [List.cons_append, afterPulses_cons, afterPulses_cons, ih]

@[simp] theorem afterPulses_tap (ds : List Drive) (s : State) : (afterPulses ds s).tap = s.tap := rfl
@[simp] theorem afterPulses_cur (ds : List Drive) (s : State) : (afterPulses ds s).cur = s.cur := rfl
@[simp] theorem afterPulses_acc (ds : List Drive) (s : State) : (afterPulses ds s).acc = s.acc := rfl
@[simp] theorem afterPulses_pause (ds : List Drive) (s : State) : (afterPulses ds s).pause = s.pause := rfl
@[simp] theorem afterPulses_readback (ds : List Drive) (s : State) : (afterPulses ds s).readback = s.readback := rfl
@[simp] theorem afterPulses_queue (ds : List Drive) (s : State) : (afterPulses ds s).queue = s.queue := rfl
@[simp] theorem afterPulses_results (ds : List Drive) (s : State) : (afterPulses ds s).results = s.results := rfl
@[simp] theorem afterPulses_lastReadout (ds : List Drive) (s : State) : (afterPulses ds s).lastReadout = s.lastReadout := rfl
@[simp] theorem afterPulses_fault (ds : List Drive) (s : State) : (afterPulses ds s).fault = s.fault := rfl
@[simp] theorem afterPulses_call (ds : List Drive) (s : State) : (afterPulses ds s).call = s.call := rfl
@[simp] theorem afterPulses_host (ds : List Drive) (s : State) : (afterPulses ds s).host = s.host := rfl
@[simp] theorem afterPulses_replies (ds : List Drive) (s : State) : (afterPulses ds s).replies = s.replies := rfl
@[simp] theorem afterPulses_params (ds : List Drive) (s : State) : (afterPulses ds s).params = s.params := rfl

@[simp] theorem tdoAt_afterPulses (ds : List Drive) (s : State) (k : Nat) :
    tdoAt (afterPulses ds s) k = tdoAt s (ds.length + k) := by
  simp [tdoAt, afterPulses, Draws.peek_skip]

@[simp] theorem failsAt_afterPulses (ds : List Drive) (s : State) (k : Nat) :
    failsAt (afterPulses ds s) k = failsAt s (ds.length + k) := by
  simp [failsAt, afterPulses, Draws.peek_skip]

/-- Equal pulses in a row: all succeed, or the first failing access stops them. -/
theorem pulseTimes_cases (b m : Bit) (n : Nat) (s : State) :
    (accessesSucceed n s = true ∧
        pulseTimes b m n s = .done () (afterPulses (List.replicate n (b, m)) s)) ∨
      ∃ k < n, accessesSucceed k s = true ∧ failsAt s k = true ∧
        pulseTimes b m n s = .stopped (failAccess (afterPulses (List.replicate k (b, m)) s)) := by
  induction n generalizing s with
  | zero => exact .inl ⟨rfl, by simp [pulseTimes, afterPulses_nil]⟩
  | succ n ih =>
    rcases pulseW_cases b m s with ⟨h0, hp⟩ | ⟨h0, hp⟩
    · rcases ih (pulsed b m s) with ⟨ha, ht⟩ | ⟨k, hk, ha, hf, ht⟩
      · refine .inl ⟨?_, ?_⟩
        · rw [accessesSucceed_iff] at *
          intro k hk
          cases k with
          | zero => exact h0
          | succ k => simpa [Nat.add_comm] using ha k (by omega)
        · simp [pulseTimes, hp, ht, List.replicate_succ, afterPulses_cons]
      · refine .inr ⟨k + 1, by omega, ?_, by simpa [Nat.add_comm] using hf, ?_⟩
        · rw [accessesSucceed_iff] at *
          intro j hj
          cases j with
          | zero => exact h0
          | succ j => simpa [Nat.add_comm] using ha j (by omega)
        · simp [pulseTimes, hp, ht, List.replicate_succ, afterPulses_cons]
    · exact .inr ⟨0, by omega, rfl, h0, by simp [pulseTimes, hp, afterPulses_nil]⟩

/-- How a step of one pulse ends. -/
theorem onePulse_cases {b m : Bit} {s : State} {f : Unit → State → Phy Bool} :
    (failsAt s 0 = false ∧ (pulseW b m s).andThen f = f () (afterPulses [(b, m)] s)) ∨
      (failsAt s 0 = true ∧ (pulseW b m s).andThen f = .stopped (failAccess s)) := by
  rcases pulseW_cases b m s with ⟨h, hp⟩ | ⟨h, hp⟩
  · exact .inl ⟨h, by simp [hp, pulsed_eq_afterPulses]⟩
  · exact .inr ⟨h, by simp [hp]⟩

/-- IDLE with a shift leg pending. -/
theorem enterFromIdle_cases (r : ShiftRow) (s : State) :
    (accessesSucceed r.entryPulses s = true ∧ enterFromIdle r s = .done false
        (goTo .select (flagsOnIdleEntry r (afterPulses (List.replicate r.entryPulses (false, true)) s)))) ∨
      ∃ k < r.entryPulses, accessesSucceed k s = true ∧ failsAt s k = true ∧
        enterFromIdle r s = .stopped (failAccess (afterPulses (List.replicate k (false, true)) s)) := by
  rcases pulseTimes_cases false true r.entryPulses s with ⟨ha, h⟩ | ⟨k, hk, ha, hf, h⟩
  · exact .inl ⟨ha, by simp [enterFromIdle, h]⟩
  · exact .inr ⟨k, hk, ha, hf, by simp [enterFromIdle, h]⟩

/-- IDLE with a RESET leg pending. -/
theorem resetBurst_cases (s : State) :
    (accessesSucceed 12 s = true ∧ resetBurst s = .done true
        (qPop (goTo .reset (afterPulses (List.replicate 12 (false, true)) s)))) ∨
      ∃ k < 12, accessesSucceed k s = true ∧ failsAt s k = true ∧
        resetBurst s = .stopped (failAccess (afterPulses (List.replicate k (false, true)) s)) := by
  rcases pulseTimes_cases false true 12 s with ⟨ha, h⟩ | ⟨k, hk, ha, hf, h⟩
  · exact .inl ⟨ha, by simp [resetBurst, h]⟩
  · exact .inr ⟨k, hk, ha, hf, by simp [resetBurst, h]⟩

theorem headShortcut_eq (s : State) :
    headShortcut s = match s.queue with | [] => .never | j :: _ => shortcutOf s.params j.kind := by
  cases h : s.queue with
  | nil => simp [headShortcut, h]
  | cons j q =>
    simp only [headShortcut, h]
    cases j <;> simp [shortcutOf, Instr.kind, kindRow, Kind.isDr]

/-- The leg at the queue head when the shortcut is taken. -/
theorem headShortcut_cons {s : State} (h : headShortcut s ≠ .never) : ∃ j q, s.queue = j :: q := by
  cases hq : s.queue with
  | nil => simp [headShortcut, hq] at h
  | cons j q => exact ⟨j, q, rfl⟩

/-- The retired state, written out. -/
theorem retire_eq (s : State) :
    retire s = { s with acc := [], results := s.results ++ [captured s], readback := false,
                        lastReadout := if s.readback then some (captured s) else s.lastReadout } := by
  simp only [retire, consumeReadback]
  cases s.readback <;> simp

/-- What the second part of UPDATE leaves, `s` being the retired state: by the shortcut in SELECT with
the next leg, or in IDLE. -/
def leftUpdate (s : State) : State :=
  match headShortcut s with
  | .never => { afterPulses [(false, false)] s with tap := TapState.idle.code }
  | .dr =>
    { afterPulses [(false, true)] s with
      tap := TapState.select.code, cur := s.queue.head?, queue := s.queue.tail,
      readback := (s.queue.head?.map fun j => j.kind.isReadback).getD false }
  | .ir =>
    { afterPulses [(false, true), (false, true)] s with
      tap := TapState.select.code, cur := s.queue.head?, queue := s.queue.tail,
      pause := (s.queue.head?.map fun j => decide (j.kind = .irPause)).getD false || s.pause }

/-- What the second part of UPDATE has written when its access `k` is about to fail, `s` being the retired
state: nothing, or the pop and the flag of the shortcut, and for the shortcut of two pulses the first. -/
def leavingUpdate (s : State) (k : Nat) : State :=
  match headShortcut s, k with
  | .never, _ => s
  | .dr, _ =>
    { s with cur := s.queue.head?, queue := s.queue.tail,
             readback := (s.queue.head?.map fun j => j.kind.isReadback).getD false }
  | .ir, 0 => s
  | .ir, _ + 1 =>
    { afterPulses [(false, true)] s with
      cur := s.queue.head?, queue := s.queue.tail,
      pause := (s.queue.head?.map fun j => decide (j.kind = .irPause)).getD false || s.pause }

/-- How the second part of UPDATE ends: complete, or stopped at its first failing access. -/
theorem leaveUpdate_cases (s : State) :
    (accessesSucceed (leaveDrives s).length s = true ∧ leaveUpdate s = .done true (leftUpdate s)) ∨
      ∃ k < (leaveDrives s).length, accessesSucceed k s = true ∧ failsAt s k = true ∧
        leaveUpdate s = .stopped (failAccess (leavingUpdate s k)) := by
  cases hh : headShortcut s with
  | never =>
    have hl : leaveUpdate s = returnToIdle s := by
      rw [headShortcut_eq] at hh
      cases hq : s.queue with
      | nil => simp [leaveUpdate, qPeekKind, hq]
      | cons j q => rw [hq] at hh; simp at hh; simp [leaveUpdate, qPeekKind, hq, hh]
    have hd : leaveDrives s = [(false, false)] := by simp [leaveDrives, hh]
    rw [hl, hd]
    rcases pulseW_cases false false s with ⟨h, hp⟩ | ⟨h, hp⟩
    · exact .inl ⟨by simp [accessesSucceed_iff, h],
        by simp [returnToIdle, hp, pulsed_eq_afterPulses, leftUpdate, hh, goTo]⟩
    · exact .inr ⟨0, by simp, rfl, h, by simp [returnToIdle, hp, leavingUpdate, hh]⟩
  | dr =>
    obtain ⟨j, q, hq⟩ := headShortcut_cons (s := s) (by simp [hh])
    have hl : leaveUpdate s = shortcutDr j.kind s := by
      rw [headShortcut_eq, hq] at hh
      simp at hh; simp [leaveUpdate, qPeekKind, hq, hh]
    have hd : leaveDrives s = [(false, true)] := by simp [leaveDrives, hh]
    rw [hl, hd]
    cases h : failsAt s 0
    · exact .inl ⟨by simp [accessesSucceed_iff, h], by
        rw [shortcutDr_done _ h]
        simp [pulsed_eq_afterPulses, leftUpdate, hh, goTo, hq, qPop, readbackOnShortcut, afterPulses,
          pulseEvents, tdoAt]⟩
    · refine .inr ⟨0, by simp, rfl, h, ?_⟩
      have h' : failsAt (readbackOnShortcut j.kind (qPop s)) 0 = true := by
        rw [failsAt_congr (s := s) (by simp)]; exact h
      rw [shortcutDr, pulseW_stopped h', Phy.andThen_stopped]
      simp [qPop, hq, readbackOnShortcut, leavingUpdate, hh]
  | ir =>
    obtain ⟨j, q, hq⟩ := headShortcut_cons (s := s) (by simp [hh])
    have hl : leaveUpdate s = shortcutIr j.kind s := by
      rw [headShortcut_eq, hq] at hh
      simp at hh; simp [leaveUpdate, qPeekKind, hq, hh]
    have hd : leaveDrives s = [(false, true), (false, true)] := by simp [leaveDrives, hh]
    rw [hl, hd]
    cases h : failsAt s 0
    · cases h1 : failsAt s 1
      · refine .inl ⟨?_, ?_⟩
        · rw [accessesSucceed_iff]; intro k hk
          have : k = 0 ∨ k = 1 := by simp at hk; omega
          rcases this with rfl | rfl <;> assumption
        · rw [shortcutIr_done _ h h1]
          by_cases hk : j.kind = .irPause <;>
          simp [pulsed_eq_afterPulses, leftUpdate, hh, goTo, hq, qPop, pauseOnShortcut, afterPulses,
            pulseEvents, tdoAt, hk, linesAfter, Draws.peek_skip]
      · refine .inr ⟨1, by simp, by simp [accessesSucceed_iff, h], h1, ?_⟩
        have h' : failsAt (qPop (pauseOnShortcut j.kind (pulsed false true s))) 0 = true := by
          rw [failsAt_congr (s := pulsed false true s) (by simp)]; simpa using h1
        rw [shortcutIr, pulseW_done h, Phy.andThen_done, pulseW_stopped h']
        by_cases hk : j.kind = .irPause <;>
          simp [qPop, hq, pauseOnShortcut, hk, pulsed_eq_afterPulses, afterPulses, leavingUpdate, hh]
    · exact .inr ⟨0, by simp, rfl, h, by simp [shortcutIr, pulseW_stopped h, leavingUpdate, hh]⟩

/-- How SHIFT of a bit ends. -/
theorem shiftBit_cases (r : ShiftRow) (i : Instr) (b : Bit) (rest : Bits) (s : State) :
    (failsAt s 0 = false ∧ shiftBit r i b rest s = .done false (
        if i.payload.length = 1 then
          goTo .exit1 { keepSample r.sampleFinal (tdoAt s 0) (afterPulses [(b, true)] s) with cur := none }
        else
          { keepSample r.sampleNonFinal (tdoAt s 0) (afterPulses [(b, false)] s) with
            cur := some (i.withPayload rest) })) ∨
      (failsAt s 0 = true ∧ shiftBit r i b rest s = .stopped (failAccess s)) := by
  cases h : failsAt s 0
  · refine .inl ⟨rfl, ?_⟩
    split
    · rw [shiftBit_last h ‹_›, pulsed_eq_afterPulses]
    · rw [shiftBit_more h ‹_›, pulsed_eq_afterPulses]
  · exact .inr ⟨rfl, by simp [shiftBit, pulse, h]⟩

end Sys2Proof.Machine
end

