-- ==== Sys2Proof/Laws/Encoding.lean ====
section
/-! SUPPORT. What the codec's and the descriptor's pieces do, bit by bit. -/

namespace Sys2Proof

/-- The bit of `val s` that element `i` of `s` stands for. -/
theorem val_testBit (s : Bits) (i : Nat) (h : i < s.length) : (val s).testBit (s.length - 1 - i) = s[i] := by
  induction s generalizing i with
  | nil => simp at h
  | cons b s ih =>
    rw [val_cons]
    cases i with
    | zero =>
      simp only [List.length_cons, Nat.add_sub_cancel, Nat.sub_zero, List.getElem_cons_zero]
      rw [mul_comm, Nat.testBit_two_pow_mul_add _ (val_lt s)]
      cases b <;> simp
    | succ i =>
      simp only [List.length_cons, List.getElem_cons_succ] at h ⊢
      rw [mul_comm, Nat.testBit_two_pow_mul_add _ (val_lt s)]
      have hh : s.length + 1 - 1 - (i+1) = s.length - 1 - i := by omega
      have hi : i < s.length := by simpa using h
      rw [hh, if_pos (by omega)]
      exact ih i hi

/-- A payload word carries payload bit `32 j + k` at bit `31 - k`, and 0 past the end. -/
theorem packWord_bit (p : Bits) (j k : Nat) (h : k < 32) : (packWord p j).getLsbD (31 - k) = p.getD (32*j+k) false := by
  have := val_testBit ((List.range 32).map fun k => p.getD (32 * j + k) false) k (by simpa using h)
  simp only [List.length_map, List.length_range] at this
  simp [packWord, BitVec.getLsbD_ofNat]
  have h2 : 31 - k < 32 := by omega
  simpa [h2] using this

/-- The kind field of a header. -/
theorem headerKind_encodeHeader (i : Instr) (h : i.payload.length < 2^28) : headerKind (encodeHeader i) = i.kind.code := by
  apply BitVec.eq_of_toNat_eq
  have : i.kind.code.toNat < 16 := i.kind.code.isLt
  simp [headerKind, encodeHeader, BitVec.extractLsb'_toNat]; omega

/-- The length field of a header. -/
theorem headerLen_encodeHeader (i : Instr) (h : i.payload.length < 2^28) : headerLen (encodeHeader i) = i.payload.length := by
  have : i.kind.code.toNat < 16 := i.kind.code.isLt
  simp [headerLen, encodeHeader, BitVec.extractLsb'_toNat, Nat.shiftRight_eq_div_pow]; omega

/-- A code that names a kind is that kind's code. -/
theorem Kind.code_of_ofCode {c : BitVec 4} {k : Kind} (h : Kind.ofCode c = some k) : c = k.code := by
  revert h; revert c; cases k <;> decide

end Sys2Proof

namespace Sys2Proof.Machine

/-- The loop of R100 prepends to what is already there. -/
theorem fixedBits_eq (w x : Nat) (s : Bits) : fixedBits w x s = fixedBits w x [] ++ s := by
  induction w generalizing x s with
  | zero => rfl
  | succ w ih => simp only [fixedBits]; rw [ih, ih (x/2) [_]]; simp

/-- It makes `w` bits. -/
theorem fixedBits_length (w x : Nat) : (fixedBits w x []).length = w := by
  induction w generalizing x with
  | zero => rfl
  | succ w ih => simp only [fixedBits]; rw [fixedBits_eq]; simp [ih]

/-- They stand for the value, reduced to the width. -/
theorem val_fixedBits (w x : Nat) : val (fixedBits w x []) = x % 2 ^ w := by
  induction w generalizing x with
  | zero => simp [fixedBits, Nat.mod_one]
  | succ w ih =>
    simp only [fixedBits]; rw [fixedBits_eq, val_append, ih]
    simp [val_cons]
    rw [pow_succ', Nat.mod_mul]
    rcases Nat.mod_two_eq_zero_or_one x with h | h <;> simp [h] <;> ring

/-- Bit by bit. -/
theorem fixedBits_get (w x i : Nat) (h : i < w) : (fixedBits w x [])[i]? = some (x.testBit (w - 1 - i)) := by
  induction w generalizing x with
  | zero => omega
  | succ w ih =>
    simp only [fixedBits]; rw [fixedBits_eq]
    by_cases hi : i < w
    · rw [List.getElem?_append_left (by rw [fixedBits_length]; exact hi), ih _ hi]
      have : w + 1 - 1 - i = (w - 1 - i) + 1 := by omega
      rw [this, Nat.testBit_succ]
    · have : i = w := by omega
      subst this
      rw [List.getElem?_append_right (by rw [fixedBits_length])]
      simp [fixedBits_length, Nat.testBit_zero]

/-- Bit `k` of a byte goes to bit `7 - k`. -/
theorem rev8_bit (x : Byte) (k : Nat) (h : k < 8) : (rev8 x).getLsbD (7 - k) = x.getLsbD k := by
  have := val_testBit ((List.range 8).map fun k => x.getLsbD k) k (by simpa using h)
  simp only [List.length_map, List.length_range] at this
  have h2 : 7 - k < 8 := by omega
  simp [rev8, BitVec.getLsbD_ofNat]
  simpa [h2] using this

/-- Twice is the identity. -/
theorem rev8_rev8 (x : Byte) : rev8 (rev8 x) = x := by
  apply BitVec.eq_of_getLsbD_eq
  intro k hk
  have h1 := rev8_bit (rev8 x) (7-k) (by omega)
  have h2 := rev8_bit x k hk
  have : 7 - (7-k) = k := by omega
  rw [this] at h1
  rw [h1, h2]

/-- The length stays. -/
theorem reverseChunks_length (B : List Byte) (m : Nat) (h : B.length % m = 0) : (reverseChunks B m).length = B.length := by
  simp [reverseChunks, List.length_flatMap]
  exact Nat.div_mul_cancel (Nat.dvd_of_mod_eq_zero h)

/-- An element of a list of equal chunks. -/
theorem getElem?_flatMap_range {α} (n m : Nat) (f : Nat → Nat → α) (q b : Nat) (hq : q < n) (hb : b < m) :
   ((List.range n).flatMap fun q => (List.range m).map (f q))[q*m+b]? = some (f q b) := by
  induction n with
  | zero => omega
  | succ n ih =>
    rw [List.range_succ, List.flatMap_append]
    have hl : ((List.range n).flatMap fun q => (List.range m).map (f q)).length = n * m := by simp [List.length_flatMap]
    by_cases h : q < n
    · rw [List.getElem?_append_left, ih h]
      rw [hl]
      calc q*m+b < q*m+m := by omega
        _ = (q+1)*m := by ring
        _ ≤ n*m := Nat.mul_le_mul_right _ h
    · have : q = n := by omega
      subst this
      rw [List.getElem?_append_right (by omega), hl]
      simp [hb]

/-- Byte by byte. -/
theorem reverseChunks_get (B : List Byte) (m q b : Nat) (hb : b < m) (hq : q < B.length / m) :
    (reverseChunks B m).getD (q*m+b) 0#8 = rev8 (B.getD (q*m+(m-1-b)) 0#8) := by
  rw [List.getD_eq_getElem?_getD, reverseChunks, getElem?_flatMap_range (B.length/m) m (fun q b => reversedByte B m q b) q b hq hb]
  rfl

end Sys2Proof.Machine
end

