-- ==== Sys2Proof/Laws/Runs.lean ====
section
/-! SUPPORT. Runs of steps over the closed forms of Machine/LegForm.lean. -/

namespace Sys2Proof.Machine

/-- One SHIFT pulse a bit. -/
theorem shiftDrives_length (b : Bits) : (shiftDrives b).length = b.length := by
  induction b with
  | nil => rfl
  | cons a b ih => cases b <;> simp_all [shiftDrives]

/-- The shift order has the payload's bits. -/
theorem legBits_length (k : Kind) (p : Bits) : (legBits k p).length = p.length := by
  unfold legBits; split <;> simp

/-- The kind decode table against the closed forms. -/
theorem kindRow_facts {k : Kind} {r : ShiftRow} (h : kindRow k = .shift r) :
    r.sampleFinal = true ∧ r.sampleNonFinal = decide (k ≠ .drConfig) ∧ (∀ p, shiftSequence r.order p = legBits k p) ∧
    List.replicate r.entryPulses (false, true) = entryDrives k ∧ r.pauseOnEntry.getD false = decide (k = .irPause) ∧ r.readbackOnEntry.getD false = k.isReadback := by
  cases k <;> simp [kindRow] at h <;> subst h <;> simp [legBits, isConfig, shiftSequence, entryDrives, Kind.isDr, Kind.isReadback, List.replicate]

/-- From SHIFT with `n + 1` bits left to EXIT1: that many steps, one bit each. -/
theorem runSteps_shift (n m : Nat) : ∀ (s : State) (i : Instr) (r : ShiftRow), s.fault = none → s.tap = TapState.shift.code → s.cur = some i →
    kindRow i.kind = .shift r → i.payload.length = n + 1 → accessesSucceed (n+1) s = true → r.sampleFinal = true →
    runSteps (n + 1 + m) s = runSteps m { afterPulses (shiftDrives (shiftSequence r.order i.payload)) s with
       tap := TapState.exit1.code, cur := none,
       acc := (if r.sampleNonFinal then ((List.range (n+1)).map (tdoAt s)).reverse else [tdoAt s n]) ++ s.acc } := by
  induction n with
  | zero =>
    intro s i r hf ht hc hr hl ha hsf
    obtain ⟨b, rest, hb⟩ := takeBit_of_ne_nil r.order (p := i.payload) (by intro h; simp [h] at hl)
    obtain ⟨hseq, hlen⟩ := takeBit_spec hb
    have hrest : rest = [] := by rw [hl] at hlen; simpa using hlen.symm
    subst hrest
    rw [accessesSucceed_iff] at ha
    have h0 := ha 0 (by omega)
    rw [show 0 + 1 + m = m + 1 by omega]
    rw [runSteps_more (t := goTo .exit1 { keepSample r.sampleFinal (tdoAt s 0) (pulsed b true s) with cur := none }) hf]
    · congr 1
      have : shiftSequence r.order [] = [] := by cases r.order <;> rfl
      rw [hseq, this]
      simp [goTo, keepSample, hsf, pulsed_eq_afterPulses, shiftDrives, afterPulses]
    · rw [stepBranch_at ht]; simp only []; rw [stepShift_some hc hr hb, shiftBit_last h0 hl]
    · simpa [goTo, keepSample, hsf] using hf
  | succ n ih =>
    intro s i r hf ht hc hr hl ha hsf
    obtain ⟨b, rest, hb⟩ := takeBit_of_ne_nil r.order (p := i.payload) (by intro h; simp [h] at hl)
    obtain ⟨hseq, hlen⟩ := takeBit_spec hb
    have hrl : rest.length = n + 1 := by omega
    rw [accessesSucceed_iff] at ha
    have h0 := ha 0 (by omega)
    rw [show n + 1 + 1 + m = (n + 1 + m) + 1 by omega]
    rw [runSteps_more (t := { keepSample r.sampleNonFinal (tdoAt s 0) (pulsed b false s) with cur := some (i.withPayload rest) }) hf]
    · rw [ih _ (i.withPayload rest) r (by simpa using hf) (by simpa using ht) rfl (by simpa using hr) (by simpa using hrl) _ hsf]
      · congr 1
        rw [hseq]
        obtain ⟨c, r2, hsh⟩ : ∃ c r2, shiftSequence r.order rest = c :: r2 := by
          cases hh : shiftSequence r.order rest with
          | cons c r2 => exact ⟨c, r2, rfl⟩
          | nil =>
            have : (shiftSequence r.order rest).length = rest.length := by cases r.order <;> simp [shiftSequence]
            rw [hh, hrl] at this; simp at this
        simp only [Instr.payload_withPayload, hsh, shiftDrives]
        rw [afterPulses_cons]
        cases hs : r.sampleNonFinal
        · simp [keepSample, afterPulses, tdoAt, Draws.peek_skip, pulseEvents, Nat.add_comm]
        · simp [keepSample, afterPulses, tdoAt, Draws.peek_skip, pulseEvents, Nat.add_comm]
          rw [show 1 + (n+1) = (n+1)+1 by omega, List.range_succ_eq_map (n := n+1)]
          simp [Function.comp_def, tdoAt, Draws.peek_skip, Nat.add_comm]
      · rw [accessesSucceed_iff]; intro k hk
        rw [failsAt_congr (s := pulsed b false s) (by simp), failsAt_pulsed]; exact ha _ (by omega)
    · rw [stepBranch_at ht]; simp only []; rw [stepShift_some hc hr hb, shiftBit_more h0 (by omega)]
    · simpa using hf

/-- Accesses that succeed still do after some of them. -/
theorem accessesSucceed_after {m n : Nat} {s : State} (h : accessesSucceed n s = true) (ds : List Drive) (hd : ds.length + m ≤ n) : accessesSucceed m (afterPulses ds s) = true := by
  rw [accessesSucceed_iff] at *
  intro k hk; rw [failsAt_afterPulses]; exact h _ (by omega)

theorem pulseCount_mapIdx (ds : List Drive) (f : Nat → Bit) :
    pulseCount (ds.mapIdx fun k d => .pulse d.1 d.2 (f k)) = ds.length := by
  induction ds generalizing f with
  | nil => rfl
  | cons d ds ih => simp [List.mapIdx_cons, pulseCount]; exact ih (fun k => f (k + 1))

/-- That many pulses. -/
@[simp] theorem pulseCount_pulseEvents (s : State) (ds : List Drive) :
    pulseCount (pulseEvents s ds) = ds.length := pulseCount_mapIdx ds (tdoAt s)

/-- Events one after another. -/
theorem ieeeAfter_append (es fs : List LineEvent) (q r : IeeeState) :
    ieeeAfter (es ++ fs) q r ↔ ∃ m, ieeeAfter es q m ∧ ieeeAfter fs m r := by
  induction es generalizing q with
  | nil => simp [ieeeAfter]
  | cons e es ih =>
    cases e <;> simp only [List.cons_append, ieeeAfter, ih]
    constructor
    · rintro ⟨q, m, h⟩; exact ⟨m, ⟨q, h.1⟩, h.2⟩
    · rintro ⟨m, ⟨q, h⟩, h'⟩; exact ⟨q, m, h, h'⟩

theorem ieeeAfter_mapIdx (ds : List Drive) (f : Nat → Bit) (q r : IeeeState) :
    ieeeAfter (ds.mapIdx fun k d => .pulse d.1 d.2 (f k)) q r ↔
      r = ds.foldl (fun q d => ieeeNext d.2 q) q := by
  induction ds generalizing f q with
  | nil => rfl
  | cons d ds ih => simp only [List.mapIdx_cons, ieeeAfter]; exact ih (fun k => f (k + 1)) _

/-- Pulses take the controller to one state, edge by edge. -/
@[simp] theorem ieeeAfter_pulseEvents (s : State) (ds : List Drive) (q r : IeeeState) :
    ieeeAfter (pulseEvents s ds) q r ↔ r = ds.foldl (fun q d => ieeeNext d.2 q) q :=
  ieeeAfter_mapIdx ds (tdoAt s) q r

/-- A failed access loses the controller. -/
theorem targetAfter_failed {s t : State} (hs : s.fault = none) (ht : t.fault = some .phyIo) (q r : IeeeState) :
    targetAfter s t q r := .inl ⟨hs, ht⟩

/-- Without a failed access the controller follows the line events. -/
theorem targetAfter_iff {s t : State} (ht : t.fault ≠ some .phyIo) (q r : IeeeState) :
    targetAfter s t q r ↔ ieeeAfter (gained s t) q r := by
  simp [targetAfter, ht]

/-- Pulses leave the lines sound. -/
theorem linesSound_afterPulses {s : State} (ds : List Drive) (h : linesSound s = true) :
    linesSound (afterPulses ds s) = true := by
  simp only [linesSound, afterPulses, linesAfter] at *
  split <;> simp_all

/-- A failed access leaves the engine's registers sound. -/
theorem engineSound_failAccess {s : State} (hf : s.fault = none) (hq : queueSound s = true) :
    engineSound (failAccess s) = true := by
  have h : queueSound (failAccess s) = true := by rw [failAccess_eq]; exact hq
  simp [engineSound, h]
  simp [faultSound, failAccess_eq, hf]

/-- A step of the engine on a leg to run, once what the leg does is known. -/
theorem engineTurn_leg {s u t : State} {i : Instr} {n : Nat} (hf : s.fault = none)
    (e : fetch s = some (i, u)) (hx : exec i u = .next t) :
    engineTurn n s = .next (afterStep n true t) := by
  unfold engineTurn
  rw [if_neg (by simp [hf]), e]
  simp only [hx]

end Sys2Proof.Machine
end

