-- ==== Sys2Proof/Tests/Slice0.lean ====
section
/-! SUPPORT. Tests on fixed values, each from the vector of 95_test_vectors.md (or the rule) it names; and for
every obligation with hypotheses a witness: values that meet all of them together. -/

namespace Sys2Proof.Tests

open Sys2Proof.Machine

/-- Reset with the coming draws settled, and P_MAX_PAYLOAD_BITS 64 as in 95 section 2.6. -/
def board (tdo io : List Bool) : State :=
  { State.reset with tdoDraws := ⟨tdo, 0⟩, ioDraws := ⟨io, 0⟩,
                     params := ⟨64, [.dr, .drConfig, .drConfigReadback, .drRecoveryReadback], none⟩ }

/-- Every access succeeds and every sample is 1. -/
def ones : State := board (List.replicate 40 true) (List.replicate 40 false)

/-- The first `k` accesses succeed and the next one fails. -/
def failing (k : Nat) : State := board (List.replicate 40 true) (List.replicate k false ++ [true])

/-- Every access succeeds; the samples of the SHIFT pulses of a leg with `e` entry pulses are `ts`. -/
def sampled (e : Nat) (ts : Bits) : State :=
  board (List.replicate (e + 2) false ++ ts ++ List.replicate 9 false) (List.replicate 40 false)

/-- The state a step of the machine leads to. -/
def nextOf (o : Host.Outcome State Fault Refusal) : Option State :=
  match o with
  | .next t => some t
  | .fault _ => none
  | .refused _ => none

/-- What a leg leaves in the Result Store and the last readout. -/
def captures (o : Host.Outcome State Fault Refusal) : Option (List Nat × Option Nat) :=
  (nextOf o).map fun t => (t.results, t.lastReadout)

/-- The pulses of a trace, samples left out. -/
def drives (o : Host.Outcome State Fault Refusal) : Option (List LineEvent) :=
  (nextOf o).map fun t => t.trace.map driven

/-- `P(tdi,tms)`, as `driven` writes it. -/
def P (tdi tms : Bit) : LineEvent := .pulse tdi tms false

/-! ### Well-formedness: an ill-formed leg for each check -/

theorem test_wf_empty_shift_payload_refused : (Instr.dr []).wf 64 = false := by decide

theorem test_wf_too_long_refused : (Instr.idle (List.replicate 65 true)).wf 64 = false := by decide

theorem test_wf_control_leg_without_payload : (Instr.longDelay []).wf 64 = true := by decide

theorem test_wf_longest_leg : (Instr.dr (List.replicate 64 true)).wf 64 = true := by decide

/-! ### Decoding: words written out from 30_encoding.md R71 to R73 (95 section 2.8) -/

theorem test_decode_dr :
    decode [0x00000050#32, 0xB0000000#32] = .ok (.dr [true, false, true, true, false], []) := by decide

theorem test_decode_ir :
    decode [0x00000061#32, 0x2C000000#32] = .ok (.ir [false, false, true, false, true, true], []) := by decide

theorem test_decode_reset : decode [0x00000002#32] = .ok (.reset [], []) := by decide

theorem test_decode_reset_with_payload :
    decode [0x00000012#32, 0x80000000#32] = .ok (.reset [true], []) := by decide

theorem test_decode_long_delay : decode [0x00000003#32] = .ok (.longDelay [], []) := by decide

theorem test_decode_idle : decode [0x00000004#32] = .ok (.idle [], []) := by decide

theorem test_decode_ir_pause :
    decode [0x00000065#32, 0x40000000#32] = .ok (.irPause [false, true, false, false, false, false], []) := by
  decide

theorem test_decode_ir_direct :
    decode [0x00000066#32, 0xFC000000#32] = .ok (.irDirect (List.replicate 6 true), []) := by decide

theorem test_decode_dr_config :
    decode [0x00000147#32, 0xC0A0F000#32] =
      .ok (.drConfig [true, true, false, false, false, false, false, false, true, false, true, false, false,
        false, false, false, true, true, true, true], []) := by decide

theorem test_decode_dr_config_readback :
    decode [0x00000048#32, 0x60000000#32] = .ok (.drConfigReadback [false, true, true, false], []) := by decide

theorem test_decode_dr_recovery_readback :
    decode [0x00000089#32, 0xA5000000#32] =
      .ok (.drRecoveryReadback [true, false, true, false, false, true, false, true], []) := by decide

theorem test_decode_two_payload_words :
    decode [0x00000280#32, 0xFFFFFFFF#32, 0xFF000000#32] = .ok (.dr (List.replicate 40 true), []) := by decide

theorem test_decode_pad_bits_ignored :
    decode [0x00000010#32, 0x80000001#32] = decode [0x00000010#32, 0x80000000#32] := by decide

theorem test_decode_reserved_kind : decode [0x000000AF#32] = .error .badKind := by decide

theorem test_decode_truncated : decode [0x00000010#32] = .error .truncated := by decide

theorem test_encode_dr_config_readback :
    encode (.drConfigReadback [false, true, true, false]) = [0x00000048#32, 0x60000000#32] := by decide

/-- The opcode table's numbering: the second word's bits are 63..32. -/
theorem test_decode_table_word : decodeTableWord 64 0xA000000000000030 = some (.dr [true, false, true]) := by
  decide

/-! ### Codec and mnemonics (95 sections 2.1, 2.7) -/

theorem test_cod_1 : toFixedWidthBits 22 5 = .ok [true, false, true, true, false] := by decide

theorem test_cod_5 : toFixedWidthBits 8 3 = .error .codecRange := by decide

theorem test_cod_10 : reverseBitOrder [0x80#8, 0#8, 0#8, 0#8, 0x01#8, 0#8, 0#8, 0#8] =
    .ok [0#8, 0#8, 0#8, 0x01#8, 0#8, 0#8, 0#8, 0x80#8] := by decide

theorem test_cod_11 : reverseBitOrder [0xDE#8, 0xAD#8, 0xBE#8, 0xEF#8] 32 =
    .ok [0xF7#8, 0x7D#8, 0xB5#8, 0x7B#8] := by decide

theorem test_cod_14 : reverseBitOrder [0x01#8] 12 = .error .codecChunk := by decide

theorem test_cod_15 : reverseBitOrder (List.replicate 6 0#8) 32 = .error .codecChunk := by decide

theorem test_cod_16 : reverseBitOrder [0x01#8] (-8) = .error .codecChunk := by decide

theorem test_numeric_leg : numericLeg .ir 6 9 = .ok (.ir [false, false, true, false, false, true]) := by decide

theorem test_mne_1 : legMnemonic (.ir [false, false, true, false, false, true]) = some "IDCODE" := by decide

theorem test_mne_4 : decodeMnemonic [] 64 = "" := by decide

theorem test_leg_text : legText (.irPause [false, true]) = "IR_PAUSE(\"01\")" := by decide

/-! ### Steps (95 section 2.3) -/

theorem test_stp_5_and_6 :
    tapStep { ones with cur := some (.drRecoveryReadback [false, true]) } =
      ({ afterPulses [(false, true)] ones with
         tap := 2#4, cur := some (.drRecoveryReadback [false, true]), readback := true }, false) := by decide

theorem test_stp_11 :
    tapStep { ones with tap := 4#4, cur := some (.dr [true, false]) } =
      ({ afterPulses [(false, false)] ones with tap := 4#4, cur := some (.dr [true]), acc := [true] }, false) := by
  decide

theorem test_stp_13 :
    tapStep { ones with tap := 4#4, cur := some (.drConfig [true, false]) } =
      ({ afterPulses [(true, false)] ones with tap := 4#4, cur := some (.drConfig [false]) }, false) := by decide

theorem test_stp_16 :
    tapStep { ones with tap := 5#4, pause := true } =
      ({ afterPulses [(false, false)] ones with tap := 6#4 }, false) := by decide

theorem test_stp_21 :
    tapStep { ones with tap := 8#4, acc := [true], lastReadout := some 6,
                        queue := [.drConfigReadback [true, true]] } =
      ({ afterPulses [(false, true)] ones with
         tap := 2#4, cur := some (.drConfigReadback [true, true]), results := [1], lastReadout := some 6,
         readback := true }, true) := by decide

theorem test_stp_22 :
    tapStep { ones with tap := 8#4, acc := [true], queue := [.irPause [false, true], .dr [true]] } =
      ({ afterPulses [(false, true), (false, true)] ones with
         tap := 2#4, cur := some (.irPause [false, true]), results := [1], pause := true,
         queue := [.dr [true]] }, true) := by decide

theorem test_stp_28 : tapStep { ones with tap := 12#4 } = ({ ones with tap := 12#4, fault := some .internal }, false) := by
  decide

/-! ### Legs (95 sections 2.4, 2.5): one `exec` each -/

theorem test_shl_1_result :
    captures (exec (.dr [true, false, true, true, false]) (sampled 1 [false, true, true, false, true])) =
      some ([22], none) := by decide

theorem test_shl_1_pulses : drives (exec (.dr [true, false, true, true, false]) ones) =
    some [P false true, P false false, P false false, P false false, P true false, P true false, P false false,
      P true true, P false true, P false false] := by decide

theorem test_shl_4_result :
    captures (exec (.ir [false, false, true, false, false, true])
      (sampled 2 [true, false, false, false, false, false])) = some ([1], none) := by decide

theorem test_shl_5_pulses : drives (exec (.irPause [false, true, false, false, false, false]) ones) =
    some [P false true, P false true, P false false, P false false, P false false, P false false, P false false,
      P false false, P true false, P false true, P false false, P false true, P false true, P false false] := by
  decide

theorem test_shl_5_flag_cleared :
    (nextOf (exec (.irPause [false, true]) ones)).map (fun t => (t.tap, t.pause)) = some (1#4, false) := by decide

theorem test_shl_7_ir_goes_through_idle :
    (nextOf (exec (.irDirect [true]) { ones with queue := [.ir [true]] })).map (fun t => (t.tap, t.cur, t.queue)) =
      some (1#4, none, [.ir [true]]) := by decide

theorem test_shl_8_result : captures (exec (.drConfig [true, true, false, true]) ones) = some ([1], none) := by
  decide

theorem test_shl_8_pulses : drives (exec (.drConfig [true, true, false, true]) ones) =
    some [P false true, P false false, P false false, P true false, P true false, P false false, P true true,
      P false true, P false false] := by decide

theorem test_shl_9_result :
    captures (exec (.drConfigReadback (List.replicate 4 false)) (sampled 1 [true, false, true, true])) =
      some ([13], some 13) := by decide

theorem test_shl_10_result :
    captures (exec (.drRecoveryReadback (List.replicate 8 false))
      (sampled 1 [true, false, true, false, false, true, false, true])) = some ([165], some 165) := by decide

theorem test_ctl_1_reset_pops_past_itself :
    (nextOf (exec (.reset []) { ones with queue := [.dr [true]] })).map (fun t => (t.tap, t.cur, t.queue)) =
      some (0#4, some (.dr [true]), []) := by decide

theorem test_ctl_2_payload_not_read : drives (exec (.reset [true]) ones) = drives (exec (.reset []) ones) := by
  decide

theorem test_ctl_3_idle : drives (exec (.idle []) ones) = some [P false false] := by decide

theorem test_ctl_4_long_delay :
    nextOf (exec (.longDelay []) { ones with queue := [.idle []] }) =
    some { ones with trace := [.delayLong], cur := some (.idle []) } := by decide

theorem test_flt_2 :
    (nextOf (exec (.dr [true, false, true, true, false]) (failing 4))).map
        (fun t => (t.tap, t.cur, t.fault, t.trace.length)) =
      some (4#4, some (.dr [true, false, true, true]), some .phyIo, 4) := by decide

theorem test_flt_3 :
    (nextOf (exec (.dr [true]) { failing 5 with queue := [.dr [true]] })).map
        (fun t => (t.cur, t.queue, t.fault, t.results)) =
      some (some (.dr [true]), [], some .phyIo, [1]) := by decide

/-! ### The host (95 section 2.6): one host action each -/

theorem test_seq_1 : nextOf (hostAction (.enqueue 0x00000050#32 [0xB0000000#32]) ones) =
    some { ones with queue := [.dr [true, false, true, true, false]], replies := [.accepted] } := by decide

theorem test_seq_3 : nextOf (hostAction (.enqueue 0x000000AF#32 []) ones) =
    some { ones with replies := [.refused .badKind] } := by decide

theorem test_seq_4 : nextOf (hostAction (.enqueue 0x00000000#32 []) ones) =
    some { ones with replies := [.refused .emptyPayload] } := by decide

theorem test_seq_6 : nextOf (hostAction (.enqueue 0x00000410#32 []) ones) =
    some { ones with replies := [.refused .payloadTooLong] } := by decide

theorem test_seq_9 : nextOf (hostAction .advance ones) =
    some { afterPulses [(false, false)] ones with replies := [.advanced none] } := by decide

theorem test_seq_15 : nextOf (hostAction .readStatus { ones with cur := some (.dr [true]) }) =
    some { ones with cur := some (.dr [true]), replies := [.status 1#4 true 0 false none] } := by decide

theorem test_flt_6 : (nextOf (hostAction .pulseReset (failing 1))).map (fun t => (t.trace, t.fault)) =
    some ([.srst false, .delaySettle], some .phyIo) := by decide

/-- 70_reset_and_hazards.md R267: one SRST drive, and the controller may be anywhere. -/
theorem test_srst_loses_the_controller : ieeeAfter [.srst false] .runTestIdle .shiftIr := ⟨.shiftIr, rfl⟩

/-- 41_phy.md R129: the first pulse fails, and the controller may be anywhere. -/
theorem test_failed_access_loses_the_controller :
    targetAfter (failing 0) (tapStep (failing 0)).1 .runTestIdle .pauseIr :=
  targetAfter_failed rfl rfl _ _

/-- 95 V-FLT-3, with the readout flag of the retiring leg set: the pop and the readout stay. -/
theorem test_flt_3_update_writes_stay :
    (tapStep { failing 0 with tap := 8#4, acc := [true], readback := true, queue := [.dr [true]] }).1 =
      { failing 0 with tap := 8#4, cur := some (.dr [true]), results := [1], lastReadout := some 1,
                       fault := some .phyIo, lines := Config.linesAfterFailure 0, ioDraws := ⟨[], 1⟩ } := by rfl

/-- The first step after a word is placed at reset runs its leg, whatever the open values are: LONG_DELAY
makes no access. -/
theorem test_placed_word_runs : (nextOf (step (State.reset.withFetchWord 32 3))).map (fun t => (t.trace, t.call)) =
    some ([.delayLong], none) := by decide

/-! ### Witnesses of the obligations' hypotheses -/

/-- The seven shift legs, each with a payload of two bits. -/
def shiftLegs : List Instr :=
  [.dr [true, false], .ir [true, false], .irPause [true, false], .irDirect [true, false], .drConfig [true, false],
   .drConfigReadback [true, false], .drRecoveryReadback [true, false]]

theorem witness_DecodeOfEncode_longest :
    (Instr.dr (List.replicate (2 ^ 28 - 1) true)).payload.length < 2 ^ 28 := by
  show (List.replicate (2 ^ 28 - 1) true).length < 2 ^ 28
  rw [List.length_replicate]
  decide

theorem witness_DecodedLegKeepsEveryBit :
    decode [0x00000210#32, 0#32, 0x80000000#32, 7#32] = .ok (.dr (List.replicate 32 false ++ [true]), [7#32]) := by
  decide

theorem witness_FixedWidthRoundTrip : 0 < 2 ^ 0 ∧ 31 < 2 ^ 5 := by decide

theorem witness_FixedWidthBitPlaces : toFixedWidthBits 16 5 = .ok [true, false, false, false, false] := by decide

theorem witness_FixedWidthRefusesWideValues : 2 ^ 3 ≤ 8 := by decide

theorem witness_ReverseBitOrderInvolution : reverseBitOrder [0x12#8, 0x34#8] 16 = .ok [0x2C#8, 0x48#8] := by decide

theorem witness_ReverseBitOrderPlacesBits :
    0 < 2 ∧ reverseBitOrder [0x12#8, 0x34#8] (8 * 2 : Nat) = .ok [0x2C#8, 0x48#8] ∧
      0 * 2 + 2 ≤ [0x12#8, 0x34#8].length ∧ 1 < 2 ∧ 7 < 8 := by decide

theorem witness_MnemonicTableEntries :
    admissibleMnemonics [(0, "A"), (62, "B")] = true ∧ (62, "B") ∈ [(0, "A"), (62, "B")] ∧
      (61 ≠ 9 ∧ 61 ≠ 63 ∧ 61 ∉ [(0, "A"), (62, "B")].map Prod.fst) := by decide

theorem witness_MnemonicsAreOneToOne :
    decodeMnemonic [(0, "A"), (62, "B")] 62 = decodeMnemonic [(0, "A"), (62, "B")] 62 ∧
      decodeMnemonic [(0, "A"), (62, "B")] 62 ≠ "" := by decide

theorem witness_PulseDrivesAndSamples :
    (ones.fault = none ∧ failsAt ones 0 = false) ∧
      ((failing 0).fault = none ∧ failsAt (failing 0) 0 = true) := by decide

theorem witness_PulseResetSequence :
    ones.call = none ∧ ones.fault = none ∧ failsAt ones 0 = false ∧ failsAt ones 1 = false := by decide

theorem witness_PulseResetStopsAtFailedAccess :
    ((failing 0).call = none ∧ (failing 0).fault = none ∧ failsAt (failing 0) 0 = true) ∧
      ((failing 1).call = none ∧ (failing 1).fault = none ∧ failsAt (failing 1) 0 = false ∧
        failsAt (failing 1) 1 = true) := by decide

theorem witness_OnePulseSteps : ∀ t : TapState,
    { ones with tap := t.code }.fault = none ∧ { ones with tap := t.code }.tap = t.code ∧
      failsAt { ones with tap := t.code } 0 = false := by
  intro t; cases t <;> decide

theorem witness_IdleEntryOfDrKinds :
    (shiftLegs.filter fun i => i.kind.isDr).map Instr.kind = [.dr, .drConfig, .drConfigReadback, .drRecoveryReadback] ∧
      shiftLegs.all (fun i =>
        let s := { ones with cur := some i }
        s.fault.isNone && decide (s.tap = TapState.idle.code) && decide (s.cur = some i)
          && accessesSucceed 1 s) = true := by decide

theorem witness_IdleEntryOfIrKinds :
    (shiftLegs.filter fun i => !i.kind.isDr).map Instr.kind = [.ir, .irPause, .irDirect] ∧
      shiftLegs.all (fun i =>
        let s := { ones with cur := some i }
        s.fault.isNone && decide (s.tap = TapState.idle.code) && decide (s.cur = some i)
          && accessesSucceed 2 s) = true := by decide

theorem witness_IdleWithoutLeg :
    (ones.fault = none ∧ ones.tap = TapState.idle.code ∧ ones.cur = none ∧ ones.queue = [] ∧
        failsAt ones 0 = false) ∧
      { ones with queue := [Instr.dr [true]] }.queue = .dr [true] :: [] := by decide

theorem witness_Exit1Branches : [true, false].all (fun p =>
    let s := { ones with tap := TapState.exit1.code, pause := p }
    s.fault.isNone && decide (s.tap = TapState.exit1.code) && !failsAt s 0 && decide (s.pause = p)) = true := by
  decide

theorem witness_ShiftStepMovesOneBit :
    (Instr.drConfig [true, false]).payload = true :: [false] ∧ (Instr.drConfig [true]).payload = true :: [] ∧
      (Instr.ir [true, false]).payload = [true] ++ [false] ∧ (Instr.ir [true]).payload = [] ++ [true] ∧
      shiftLegs.all (fun i =>
        let s := { ones with tap := TapState.shift.code, cur := some i }
        s.fault.isNone && decide (s.tap = TapState.shift.code) && decide (s.cur = some i) && i.kind.isShift
          && !failsAt s 0) = true := by decide

/-- UPDATE with a captured bit, and a leg at the queue head that leaves it in each of the three ways. -/
def updating (q : List Instr) : State := { ones with tap := TapState.update.code, acc := [true], queue := q }

theorem witness_UpdateStepRetiresAndLeaves :
    [[], [Instr.ir [true]], [.dr [true]], [.irPause [true], .dr [true]]].map
        (fun q => headShortcut (updating q)) = [.never, .never, .dr, .ir] ∧
      [[], [Instr.ir [true]], [.dr [true]], [.irPause [true], .dr [true]]].all (fun q =>
        let s := updating q
        s.fault.isNone && decide (s.tap = TapState.update.code) && !s.acc.isEmpty && !resultsFull s
          && accessesSucceed (leaveDrives s).length s) = true := by decide

/-- A store of one entry, full. -/
def full : State :=
  { updating [] with results := [5], params := ⟨64, [.dr], some 1⟩ }

theorem witness_FullResultStoreFaults :
    full.fault = none ∧ full.tap = TapState.update.code ∧ full.params.resultCapacity = some 1 ∧
      1 ≤ full.results.length := by decide

theorem witness_InternalFaultsExactly :
    [{ ones with tap := 9#4 }, { ones with tap := 4#4, cur := some (.reset [true]) },
        { ones with tap := 4#4, cur := some (.dr []) }, { ones with tap := 4#4 }].all (fun s =>
      s.fault.isNone && decide ((tapStep s).1.fault = some .internal)) = true := by decide

theorem witness_PulsesPerStep :
    { ones with cur := some (Instr.reset []) }.fault = none ∧
      (tapStep { ones with cur := some (.reset []) }).1.fault = none ∧
      stepPulses { ones with cur := some (.reset []) } = 12 := by decide

theorem witness_FailedStepKeepsEarlierWrites :
    [{ failing 11 with cur := some (.reset []) }, { failing 1 with cur := some (.irPause [true]) },
        { failing 0 with tap := TapState.shift.code, cur := some (.ir [true]) }].all (fun s =>
      s.fault.isNone && decide (s.tap ≠ TapState.update.code) && decide ((tapStep s).1.fault = some .phyIo)) = true ∧
    [failing 0, { failing 0 with queue := [.drConfigReadback [true]] }, { failing 0 with queue := [.irPause [true]] },
        { failing 1 with queue := [.irPause [true]] }].map (fun s =>
      let u := { s with tap := TapState.update.code, acc := [true], readback := true }
      (headShortcut u, failsAt u 0, u.fault, (tapStep u).1.fault)) =
    [(.never, true, none, some .phyIo), (.dr, true, none, some .phyIo), (.ir, true, none, some .phyIo),
      (.ir, false, none, some .phyIo)] := by decide

/-- Every one of the seven kinds meets the hypotheses of the statements about shift legs from IDLE. -/
theorem witness_ShiftLegFromIdle : shiftLegs.all (fun i =>
    i.kind.isShift && !i.payload.isEmpty && ones.fault.isNone && decide (ones.tap = TapState.idle.code)
      && !ones.pause && !ones.readback && !resultsFull ones && decide (headShortcut ones = .never)
      && accessesSucceed (legDrives i.kind i.payload (entryDrives i.kind) ones).length ones) = true := by decide

/-- The same with a next leg in the queue that is taken by the shortcut. -/
theorem witness_ShiftLegFromIdle_queued : shiftLegs.all (fun i =>
    accessesSucceed (legDrives i.kind i.payload (entryDrives i.kind) { ones with queue := [.irPause [true]] }).length
      { ones with queue := [.irPause [true]] }) = true := by decide

/-- A leg brought to SELECT by the shortcut, with the flags of its kind. -/
theorem witness_ShiftLegThroughShortcut : shiftLegs.all (fun i =>
    let s := { ones with tap := TapState.select.code, pause := decide (i.kind = .irPause),
                         readback := i.kind.isReadback }
    i.kind.isShift && !i.payload.isEmpty && s.fault.isNone && decide (s.tap = TapState.select.code)
      && decide (s.pause = decide (i.kind = .irPause)) && decide (s.readback = i.kind.isReadback)
      && !resultsFull s && accessesSucceed (legDrives i.kind i.payload [] s).length s) = true := by decide

theorem witness_LegPendingInReset :
    { ones with tap := TapState.reset.code }.fault = none ∧
      { ones with tap := TapState.reset.code }.tap = TapState.reset.code ∧
      failsAt { ones with tap := TapState.reset.code } 0 = false := by decide

theorem witness_ResetLeg :
    ones.fault = none ∧ ones.tap = TapState.idle.code ∧ accessesSucceed 12 ones = true := by decide

theorem witness_LongDelayLeg : State.reset.fault = none ∧ State.reset.tap = TapState.idle.code := by decide

theorem witness_IdleLeg : ones.fault = none ∧ ones.tap = TapState.idle.code ∧ failsAt ones 0 = false := by decide

theorem witness_ControlLegsKeepCaptures :
    [Instr.reset [], .longDelay [], .idle []].all (fun i => !i.kind.isShift) = true ∧ ones.fault = none ∧
      resting ones = true ∧ resting { ones with tap := TapState.reset.code } = true := by decide

/-- The statement on the first failed access, at each access of a leg that is followed by a shortcut. -/
theorem witness_LegStopsAtFirstFailedAccess : (List.range 9).all (fun k =>
    let s := { failing k with queue := [.irDirect [true]] }
    s.fault.isNone && decide (s.tap = TapState.idle.code) && !s.pause && !s.readback && !resultsFull s
      && decide (k < (legDrives .irPause [true] (entryDrives .irPause) s).length) && accessesSucceed k s && failsAt s k
      && decide ((nextOf (exec (.irPause [true]) s)).map (fun t => (t.fault, t.trace)) = some (some .phyIo,
        (pulseEvents s (legDrives .irPause [true] (entryDrives .irPause) s)).take k))) = true := by decide

theorem witness_LegRunsToCompletion :
    ones.fault = none ∧ { ones with tap := TapState.shift.code }.fault = none ∧ (failing 3).fault = none := by decide

/-- The longest run, an IR_PAUSE leg from RESET, ends in step `n + 8`; one whose access 3 fails ends in that
step. No step before the last completes or faults. -/
theorem test_leg_runs_to_its_last_step :
    [({ ones with tap := TapState.reset.code }, 8, true), (failing 3, 2, false)].all (fun (s, k, c) =>
      let run := fun j => tapStep (tapSteps j { s with cur := some (.irPause [true]) })
      (List.range k).all (fun j => !(run j).2 && (run j).1.fault.isNone)
        && (run k).2 == c && (run k).1.fault.isNone == c
        && decide ((nextOf (exec (.irPause [true]) s)).map (fun t => (t.tap, t.fault, t.trace, t.results)) =
          some ((run k).1.tap, (run k).1.fault, (run k).1.trace, (run k).1.results))) = true := by decide

theorem witness_DrConfigKeepsFinalSample :
    ones.fault = none ∧ ones.tap = TapState.idle.code ∧ ones.pause = false ∧ ones.readback = false ∧
      resultsFull ones = false ∧
      accessesSucceed (legDrives .drConfig [true] (entryDrives .drConfig) ones).length ones = true := by decide

theorem witness_EchoCapturesPayload :
    [(Instr.drConfigReadback [true, false, false], sampled 1 [true, false, false]),
        (.ir [true, false, false], sampled 2 [false, false, true])].all (fun (i, s) =>
      i.kind.isShift && decide (i.kind ≠ .drConfig) && !i.payload.isEmpty && s.fault.isNone
        && decide (s.tap = TapState.idle.code) && !s.pause && !s.readback && !resultsFull s
        && accessesSucceed (legDrives i.kind i.payload (entryDrives i.kind) s).length s
        && decide (shiftSamples s (entryDrives i.kind).length i.payload.length = legBits i.kind i.payload)) = true := by
  decide

/-- Of the seven kinds, with the queue empty: the hypotheses are those of ShiftLegFromIdle and a head that takes
no shortcut. -/
theorem witness_PulseCountOfShiftLegs : shiftLegs.all (fun i =>
    i.kind.isShift && !i.payload.isEmpty && ones.fault.isNone && decide (ones.tap = TapState.idle.code)
      && !ones.pause && !ones.readback && !resultsFull ones && decide (headShortcut ones = .never)
      && accessesSucceed (legDrives i.kind i.payload (entryDrives i.kind) ones).length ones) = true := by decide

theorem witness_EnqueueFollowsItsChecks :
    (ones.call = none ∧ ones.fault = none ∧ payloadLimit ones.params = 64) ∧
      (9 < ((0x0000000A#32).extractLsb' 0 4).toNat) ∧
      (((0x00000009#32).extractLsb' 0 4).toNat = 9 ∧ ((0x00000009#32).extractLsb' 4 28).toNat = 0) ∧
      (((0x00000412#32).extractLsb' 0 4).toNat = 2 ∧ 64 < ((0x00000412#32).extractLsb' 4 28).toNat) ∧
      (((0x00000400#32).extractLsb' 0 4).toNat = 0 ∧ ((0x00000400#32).extractLsb' 4 28).toNat = 64 ∧
        [0#32, 0#32].length = (64 + 31) / 32) := by decide

theorem witness_EnqueueLegAgreesWithDescriptor :
    encode (.ir [true]) = 0x00000011#32 :: [0x80000000#32] ∧ (Instr.ir [true]).payload.length < 2 ^ 28 := by decide

theorem witness_MalformedDescriptorHasNoMeaning :
    ones.call = none ∧ ones.fault = none ∧ Kind.ofCode (headerKind 0x00000010#32) = some .dr ∧
      enqueueCheck ones.params .dr (headerLen 0x00000010#32) = none ∧
      ([] : List Word).length ≠ (headerLen 0x00000010#32 + 31) / 32 := by decide

/-- A session stopped by a failed access, between calls. -/
def stopped : State := { ones with fault := some .phyIo, tap := TapState.update.code, results := [1] }

theorem witness_FaultedSessionRefuses : stopped.call = none ∧ stopped.fault = some .phyIo := by decide

theorem witness_BusyBeforeEveryCheck : { stopped with call := some 0 }.call = some 0 := by decide

theorem witness_ReadsReturnRegisters :
    (ones.call = none ∧ ones.lastReadout = none) ∧ { ones with lastReadout := some 13 }.lastReadout = some 13 := by
  decide

theorem witness_NoOpAdvance :
    ones.call = none ∧ ones.fault = none ∧ ones.cur = none ∧ ones.queue = [] ∧ ones.tap = TapState.idle.code ∧
      { ones with tap := TapState.reset.code }.tap = TapState.reset.code ∧ failsAt ones 0 = false := by decide

/-- An ADVANCE in progress with these legs queued. -/
def advancing (q : List Instr) : State := { ones with call := some 0, queue := q }

/-- The call ends after a leg that comes back to IDLE; it goes on after a leg that the shortcut follows. -/
theorem witness_StepRunsNextLeg :
    (∃ t, exec (.dr [true]) { advancing [] with cur := some (.dr [true]) } = .next t ∧
      t.tap = TapState.idle.code) ∧
    (∃ t, exec (.dr [true]) { advancing [.dr [false]] with cur := some (.dr [true]) } = .next t ∧
      t.fault = none ∧ t.tap = TapState.select.code) ∧
    (advancing [.dr [true], .dr [false]]).queue = .dr [true] :: [.dr [false]] := by
  exact ⟨⟨_, rfl, by decide⟩, ⟨_, rfl, by decide⟩, rfl⟩

theorem witness_PlacedWordRuns : decodeTableWord 32 0x00000014 = some (.idle [false]) := by decide

theorem witness_EnqueueAdvanceRunsLeg :
    { ones with host := [.enqueue 0x00000010#32 [0x80000000#32], .advance] }.host =
      .enqueue 0x00000010#32 [0x80000000#32] :: .advance :: [] ∧
    decode [0x00000010#32, 0x80000000#32] = .ok (.dr [true], []) ∧
    (Instr.dr [true]).wf (payloadLimit ones.params) = true := by decide

theorem witness_AdvanceReturns :
    sound (advancing [.dr [true], .ir [true]]) = true ∧
      sound { advancing [.dr [true]] with tap := TapState.exit1.code, acc := [true], pause := true } = true ∧
      sound { advancing [.dr [true]] with tap := TapState.reset.code } = true := by decide

theorem witness_DrainEndsDrained :
    sound { ones with host := [.drain], queue := [.dr [true], .reset [], .irPause [true]] } = true ∧
      { ones with host := [.drain] }.host = .drain :: [] := by decide

theorem witness_NewSessionIsReset : stopped.call = none := by decide

theorem witness_StepKeepsSound :
    sound (advancing [.dr [true]]) = true ∧ ∃ t, step (advancing [.dr [true]]) = .next t ∧ t.results = [1] := by
  exact ⟨by decide, _, rfl, by decide⟩

theorem witness_TapStepKeepsEngineSound :
    engineSound { ones with tap := TapState.shift.code, cur := some (.ir [true]) } = true ∧
      engineSound { ones with tap := TapState.update.code, acc := [true], readback := true } = true := by decide

theorem witness_FaultedSessionIsFrozen :
    stopped.fault = some .phyIo ∧ ({ stopped with host := [.advance] }.host.head? ≠ some .newSession) ∧
      ∃ t, step { stopped with host := [.advance] } = .next t ∧ t.results = [1] := by
  exact ⟨by decide, by decide, _, rfl, by decide⟩

theorem witness_ResultsAndTraceOnlyGrow :
    ∃ t, step (advancing [.dr [true]]) = .next t ∧ t.results.length = 1 ∧ t.trace.length = 6 := by
  exact ⟨_, rfl, by decide⟩

theorem witness_EngineTakesLegsAtTheHead :
    (advancing [.dr [true], .ir [true]]).call = some 0 ∧
      ∃ t, step (advancing [.dr [true], .ir [true]]) = .next t ∧ t.queue = [.ir [true]] := by
  exact ⟨by decide, _, rfl, by decide⟩

/-- From UPDATE after a DR leg, with IR_DIRECT at the head. -/
theorem witness_TargetFollowsEngine :
    (engineSound (updating [.irDirect [true]]) = true ∧ (updating [.irDirect [true]]).fault = none ∧
      targetAgrees (updating [.irDirect [true]]) .updateDr ∧
      (tapStep (updating [.irDirect [true]])).1.fault ≠ some .phyIo) ∧
    (engineSound (failing 0) = true ∧ (failing 0).fault = none ∧ targetAgrees (failing 0) .runTestIdle ∧
      (tapStep (failing 0)).1.fault = some .phyIo) := by
  exact ⟨⟨by decide, rfl, ⟨true, rfl⟩, by decide⟩, by decide, rfl, ⟨true, rfl⟩, by decide⟩

theorem witness_ResetLegResetsAnyTarget :
    (∃ t, hostAction .pulseReset ones = .next t ∧ ones.call = none ∧ ones.fault = none ∧ t.fault = none) ∧
      (∃ t, hostAction .pulseReset (failing 0) = .next t ∧ (failing 0).call = none ∧ (failing 0).fault = none ∧
        t.fault = some .phyIo) ∧
      ones.fault = none ∧ ones.tap = TapState.idle.code ∧ accessesSucceed 12 ones = true := by
  exact ⟨⟨_, rfl, by decide⟩, ⟨_, rfl, by decide⟩, by decide⟩

theorem witness_DrivesIgnoreSamples :
    ∃ t, exec (.drRecoveryReadback [true, false]) ones = .next t ∧ t.lastReadout = some 3 := by
  exact ⟨_, rfl, by decide⟩

end Sys2Proof.Tests
end

section
/-! The soundness of a session (10_state.md R36) read as propositions: what `engineSound` and the
predicates it is made of say, and that steps of the engine and of the host keep them. -/

namespace Sys2Proof

/-- A leg of a shift kind that `wf` accepts has a bit to shift. -/
theorem Instr.payload_ne_nil_of_wf {limit : Nat} {i : Instr} (hs : i.kind.isShift = true)
    (hw : i.wf limit = true) : i.payload ≠ [] := by
  simp only [Instr.wf, Instr.hasBits, hs, Bool.and_eq_true] at hw
  simpa using hw.1

/-- A leg stays well-formed as its payload gets shorter, while a bit is left. -/
theorem Instr.wf_withPayload {limit : Nat} {i : Instr} {p : Bits} (hw : i.wf limit = true)
    (hl : p.length ≤ i.payload.length) (hp : p ≠ []) : (i.withPayload p).wf limit = true := by
  simp only [Instr.wf, Instr.hasBits, Instr.fits, Bool.and_eq_true, decide_eq_true_eq] at hw ⊢
  exact ⟨by simp [hp], by simpa using hl.trans hw.2⟩

end Sys2Proof

namespace Sys2Proof.Machine

/-! ### The parts of the invariant -/

theorem queueSound_iff (s : State) :
    queueSound s = true ↔ ∀ i ∈ s.queue, i.wf (payloadLimit s.params) = true := by
  simp [queueSound]

theorem atRest_iff (limit : Nat) (s : State) :
    atRest limit s = true ↔ s.pause = false ∧ s.readback = false ∧ s.acc = [] ∧
      ∀ i, s.cur = some i → i.wf limit = true := by
  cases h : s.cur <;> simp [atRest, h, and_assoc]

theorem shiftLegCurrent_iff (limit : Nat) (s : State) :
    shiftLegCurrent limit s = true ↔ ∃ i, s.cur = some i ∧ i.kind.isShift = true ∧ i.wf limit = true ∧
      s.pause = decide (i.kind = .irPause) ∧ s.readback = i.kind.isReadback := by
  cases h : s.cur <;> simp [shiftLegCurrent, h, and_assoc]

theorem resting_iff (s : State) :
    resting s = true ↔ s.tap = TapState.reset.code ∨ s.tap = TapState.idle.code := by
  simp [resting]

section phase
variable {limit : Nat} {s : State}

theorem phaseSound_reset (h : s.tap = TapState.reset.code) : phaseSound limit s = atRest limit s := by
  simp [phaseSound, h]

theorem phaseSound_idle (h : s.tap = TapState.idle.code) : phaseSound limit s = atRest limit s := by
  simp [phaseSound, h]

/-- RESET and IDLE have one invariant (10_state.md R36). -/
theorem phaseSound_resting (h : resting s = true) : phaseSound limit s = atRest limit s := by
  rcases (resting_iff s).1 h with ht | ht
  · exact phaseSound_reset ht
  · exact phaseSound_idle ht

theorem phaseSound_select (h : s.tap = TapState.select.code) :
    phaseSound limit s = true ↔ shiftLegCurrent limit s = true ∧ s.acc = [] := by
  simp [phaseSound, h]

theorem phaseSound_capture (h : s.tap = TapState.capture.code) :
    phaseSound limit s = true ↔ shiftLegCurrent limit s = true ∧ s.acc = [] := by
  simp [phaseSound, h]

theorem phaseSound_shift (h : s.tap = TapState.shift.code) :
    phaseSound limit s = shiftLegCurrent limit s := by
  simp [phaseSound, h]

theorem phaseSound_exit1 (h : s.tap = TapState.exit1.code) :
    phaseSound limit s = true ↔
      s.cur = none ∧ s.acc ≠ [] ∧ (s.pause = false ∨ s.readback = false) := by
  simp [phaseSound, h, and_assoc]

theorem phaseSound_pause (h : s.tap = TapState.pause.code) :
    phaseSound limit s = true ↔ s.cur = none ∧ s.acc ≠ [] ∧ s.pause = false ∧ s.readback = false := by
  simp [phaseSound, h, and_assoc]

theorem phaseSound_exit2 (h : s.tap = TapState.exit2.code) :
    phaseSound limit s = true ↔ s.cur = none ∧ s.acc ≠ [] ∧ s.pause = false ∧ s.readback = false := by
  simp [phaseSound, h, and_assoc]

theorem phaseSound_update (h : s.tap = TapState.update.code) :
    phaseSound limit s = true ↔ s.cur = none ∧ s.acc ≠ [] ∧ s.pause = false := by
  simp [phaseSound, h, and_assoc]

/-- A sound phase is one of the nine TAP states. -/
theorem exists_code_of_phaseSound (h : phaseSound limit s = true) : ∃ t : TapState, s.tap = t.code := by
  cases ht : TapState.ofCode s.tap with
  | none => simp [phaseSound, ht] at h
  | some t => exact ⟨t, TapState.code_of_ofCode ht⟩

end phase

/-! ### Sound registers without a fault -/

/-- The engine's registers are sound and no fault is set. -/
structure LiveSound (s : State) : Prop where
  fault : s.fault = none
  queue : queueSound s = true
  phase : phaseSound (payloadLimit s.params) s = true
  lines : linesSound s = true

theorem LiveSound.engineSound {s : State} (h : LiveSound s) : engineSound s = true := by
  simp [Machine.engineSound, faultSound, h.fault, h.queue, h.phase, h.lines]

theorem LiveSound.of_engineSound {s : State} (hf : s.fault = none) (h : Machine.engineSound s = true) :
    LiveSound s := by
  simp only [Machine.engineSound, hf, Option.isSome_none, Bool.false_or, Bool.and_eq_true] at h
  obtain ⟨⟨hq, -⟩, hp, hl⟩ := h
  exact ⟨hf, hq, hp, hl⟩

/-- Pulses that succeed write only the lines, the trace and the draws. -/
theorem LiveSound.afterPulses {s : State} (h : LiveSound s) (ds : List Drive) :
    LiveSound (afterPulses ds s) :=
  ⟨h.fault, h.queue, h.phase, linesSound_afterPulses ds h.lines⟩

/-- A failed access sets E_PHY_IO, and writes nothing else that a faulted session's soundness reads. -/
theorem LiveSound.engineSound_failAccess {s : State} (h : LiveSound s) :
    Machine.engineSound (failAccess s) = true :=
  Machine.engineSound_failAccess h.fault h.queue

/-- The queue head becomes the current leg of an engine at rest. -/
theorem atRest_qPop {s : State} (hq : queueSound s = true) (h : atRest (payloadLimit s.params) s = true) :
    atRest (payloadLimit (qPop s).params) (qPop s) = true := by
  rw [atRest_iff] at h ⊢
  obtain ⟨hp, hr, ha, -⟩ := h
  refine ⟨by simp [hp], by simp [hr], by simp [ha], fun i hi => ?_⟩
  rw [qPop_cur] at hi
  simpa using (queueSound_iff s).1 hq i (List.mem_of_head? hi)

theorem queueSound_qPop {s : State} (hq : queueSound s = true) : queueSound (qPop s) = true := by
  rw [queueSound_iff] at hq ⊢
  exact fun i hi => by simpa using hq i (List.mem_of_mem_tail (by simpa using hi))

/-- At rest, popping the queue keeps the registers sound. -/
theorem LiveSound.qPop {s : State} (h : LiveSound s) (hr : resting s = true) : LiveSound (qPop s) := by
  have hr' : resting (Machine.qPop s) = true := by simpa [resting_iff] using hr
  refine ⟨by simp [h.fault], queueSound_qPop h.queue, ?_, by simpa [linesSound] using h.lines⟩
  exact (phaseSound_resting hr').trans
    (atRest_qPop h.queue ((phaseSound_resting hr).symm.trans h.phase))

/-! ### The branches of `Step()` -/

/-- How a step that begins with one pulse ends: as its rest ends after the pulse, or at the failed access. -/
theorem finish_onePulse (b m : Bit) (s : State) (f : Unit → State → Phy Bool) :
    ((pulseW b m s).andThen f).finish = (f () (afterPulses [(b, m)] s)).finish ∨
      ((pulseW b m s).andThen f).finish = (failAccess s, false) := by
  rcases onePulse_cases (b := b) (m := m) (s := s) (f := f) with ⟨-, h⟩ | ⟨-, h⟩
  · exact .inl (by rw [h])
  · exact .inr (by rw [h, Phy.finish_stopped])

/-- Without a fault afterwards, the pulse succeeded. -/
theorem finish_onePulse_of_live {b m : Bit} {s : State} {f : Unit → State → Phy Bool}
    (h : ((pulseW b m s).andThen f).finish.1.fault = none) :
    ((pulseW b m s).andThen f).finish = (f () (afterPulses [(b, m)] s)).finish := by
  rcases finish_onePulse b m s f with e | e
  · exact e
  · simp [e, failAccess_eq] at h

theorem resting_of_onePulse {b m : Bit} {s : State} {f : Unit → State → Phy Bool}
    (hlive : ((pulseW b m s).andThen f).finish.1.fault = none)
    (hrest : resting ((pulseW b m s).andThen f).finish.1 = true) :
    resting (f () (afterPulses [(b, m)] s)).finish.1 = true := by
  rwa [finish_onePulse_of_live hlive] at hrest

/-- A step that begins with one pulse leaves sound registers if its rest does so after the pulse. -/
theorem engineSound_onePulse {b m : Bit} {s : State} {f : Unit → State → Phy Bool} (h : LiveSound s)
    (hf : engineSound (f () (afterPulses [(b, m)] s)).finish.1 = true) :
    engineSound ((pulseW b m s).andThen f).finish.1 = true := by
  rcases finish_onePulse b m s f with e | e
  · rw [e]; exact hf
  · rw [e]; exact h.engineSound_failAccess

/-- A move to a TAP state whose phase is sound. -/
theorem LiveSound.goTo {s : State} {t : TapState} (h : LiveSound s)
    (hp : phaseSound (payloadLimit s.params) (goTo t s) = true) : LiveSound (goTo t s) :=
  ⟨h.fault, h.queue, hp, h.lines⟩

theorem engineSound_stepReset {s : State} (h : LiveSound s) (ht : s.tap = TapState.reset.code) :
    engineSound (stepReset s).finish.1 = true := by
  refine engineSound_onePulse h (LiveSound.goTo (h.afterPulses _) ?_).engineSound
  exact (phaseSound_idle (goTo_tap _ _)).trans ((phaseSound_reset ht).symm.trans h.phase)

/-- IDLE with a shift leg pending: the flags become those of its kind. -/
theorem engineSound_enterFromIdle {s : State} {i : Instr} {r : ShiftRow} (h : LiveSound s)
    (ht : s.tap = TapState.idle.code) (hc : s.cur = some i) (hr : kindRow i.kind = .shift r) :
    engineSound (enterFromIdle r s).finish.1 = true := by
  rcases enterFromIdle_cases r s with ⟨-, e⟩ | ⟨k, -, -, -, e⟩ <;> rw [e]
  · obtain ⟨hp, hb, ha, hw⟩ := (atRest_iff _ _).1 ((phaseSound_idle ht).symm.trans h.phase)
    obtain ⟨-, -, -, -, hpe, hre⟩ := kindRow_facts hr
    have hl : LiveSound (goTo .select (flagsOnIdleEntry r
        (afterPulses (List.replicate r.entryPulses (false, true)) s))) := by
      refine ⟨h.fault, h.queue, ?_, (h.afterPulses _).lines⟩
      refine (phaseSound_select (goTo_tap _ _)).2
        ⟨(shiftLegCurrent_iff _ _).2 ⟨i, hc, ?_, hw i hc, ?_, ?_⟩, ha⟩
      · exact (kindRow_isShift _).2 ⟨r, hr⟩
      · simpa [flagsOnIdleEntry, hp] using hpe
      · simpa [flagsOnIdleEntry, hb] using hre
    exact hl.engineSound
  · exact (h.afterPulses _).engineSound_failAccess

/-- A control leg leaves the engine at rest, with the next leg popped. -/
theorem engineSound_controlStep {s : State} (c : ControlAction) (h : LiveSound s)
    (ht : s.tap = TapState.idle.code) : engineSound (controlStep c s).finish.1 = true := by
  have hrest : resting s = true := (resting_iff s).2 (.inr ht)
  cases c with
  | resetBurst =>
    rcases resetBurst_cases s with ⟨-, e⟩ | ⟨k, -, -, -, e⟩ <;> rw [controlStep, e]
    · refine (LiveSound.qPop (LiveSound.goTo (h.afterPulses _) ?_) (by simp [resting])).engineSound
      exact (phaseSound_reset (goTo_tap _ _)).trans ((phaseSound_idle ht).symm.trans h.phase)
    · exact (h.afterPulses _).engineSound_failAccess
  | longDelay =>
    have hd : LiveSound (delayLong s) := ⟨h.fault, h.queue, h.phase, h.lines⟩
    exact (hd.qPop hrest).engineSound
  | idleClock => exact engineSound_onePulse h ((h.afterPulses _).qPop hrest).engineSound

theorem engineSound_stepIdle {s : State} (h : LiveSound s) (ht : s.tap = TapState.idle.code) :
    engineSound (stepIdle s).finish.1 = true := by
  cases hc : s.cur with
  | none =>
    rw [stepIdle, hc]
    simp only [idleNoLeg]
    split
    · exact engineSound_onePulse h (h.afterPulses _).engineSound
    · exact (h.qPop ((resting_iff s).2 (.inr ht))).engineSound
  | some i =>
    rw [stepIdle, hc]
    cases hr : kindRow i.kind with
    | shift r => simpa only [hr] using engineSound_enterFromIdle h ht hc hr
    | control c => simpa only [hr] using engineSound_controlStep c h ht

theorem engineSound_stepSelect {s : State} (h : LiveSound s) (ht : s.tap = TapState.select.code) :
    engineSound (stepSelect s).finish.1 = true := by
  refine engineSound_onePulse h (LiveSound.goTo (h.afterPulses _) ?_).engineSound
  exact (phaseSound_capture (goTo_tap _ _)).2 ((phaseSound_select ht).1 h.phase)

theorem engineSound_stepCapture {s : State} (h : LiveSound s) (ht : s.tap = TapState.capture.code) :
    engineSound (stepCapture s).finish.1 = true := by
  obtain ⟨hleg, -⟩ := (phaseSound_capture ht).1 h.phase
  have hl : LiveSound (goTo .shift { afterPulses [(false, false)] s with acc := [] }) :=
    ⟨h.fault, h.queue, (phaseSound_shift (goTo_tap _ _)).trans hleg, (h.afterPulses _).lines⟩
  exact engineSound_onePulse h hl.engineSound

/-- SHIFT moves a bit of a leg that has one, and raises no E_INTERNAL (42_tap_step.md R156). -/
theorem engineSound_stepShift {s : State} (h : LiveSound s) (ht : s.tap = TapState.shift.code) :
    engineSound (stepShift s).finish.1 = true := by
  obtain ⟨i, hc, hs, hw, hp, hb⟩ := (shiftLegCurrent_iff _ _).1 ((phaseSound_shift ht).symm.trans h.phase)
  obtain ⟨r, hr⟩ := (kindRow_isShift _).1 hs
  obtain ⟨b, rest, htake⟩ := takeBit_of_ne_nil r.order (Instr.payload_ne_nil_of_wf hs hw)
  obtain ⟨-, hlen⟩ := takeBit_spec htake
  rw [stepShift_some hc hr htake]
  rcases shiftBit_cases r i b rest s with ⟨-, e⟩ | ⟨-, e⟩ <;> rw [e]
  · rw [Phy.finish_done]
    split
    · next hlast =>
      obtain ⟨hfinal, -⟩ := kindRow_facts hr
      refine LiveSound.engineSound ⟨by simp [h.fault], by simpa [queueSound] using h.queue, ?_,
        by simpa [linesSound] using linesSound_afterPulses [(b, true)] h.lines⟩
      refine (phaseSound_exit1 (goTo_tap _ _)).2 ⟨rfl, by simp [hfinal], ?_⟩
      cases hk : i.kind <;> simp [hp, hb, hk, Kind.isReadback]
    · next hmore =>
      refine LiveSound.engineSound ⟨by simp [h.fault], by simpa [queueSound] using h.queue, ?_,
        by simpa [linesSound] using linesSound_afterPulses [(b, false)] h.lines⟩
      have hrest : rest ≠ [] := by rintro rfl; exact hmore hlen
      rw [phaseSound_shift (by simpa using ht)]
      refine (shiftLegCurrent_iff _ _).2 ⟨i.withPayload rest, rfl, by simpa using hs, ?_,
        by simpa using hp, by simpa using hb⟩
      exact Instr.wf_withPayload (by simpa using hw) (by omega) hrest
  · exact h.engineSound_failAccess

theorem engineSound_stepExit1 {s : State} (h : LiveSound s) (ht : s.tap = TapState.exit1.code) :
    engineSound (stepExit1 s).finish.1 = true := by
  obtain ⟨hc, ha, hflags⟩ := (phaseSound_exit1 ht).1 h.phase
  cases hp : s.pause <;> simp only [stepExit1, hp]
  · exact engineSound_onePulse h (LiveSound.goTo (h.afterPulses _)
      ((phaseSound_update (goTo_tap _ _)).2 ⟨hc, ha, hp⟩)).engineSound
  · have hb : s.readback = false := by simpa [hp] using hflags
    have hl : LiveSound (clearPause (goTo .pause (afterPulses [(false, false)] s))) :=
      ⟨h.fault, h.queue, (phaseSound_pause rfl).2 ⟨hc, ha, rfl, hb⟩, (h.afterPulses _).lines⟩
    exact engineSound_onePulse h hl.engineSound

theorem engineSound_stepPause {s : State} (h : LiveSound s) (ht : s.tap = TapState.pause.code) :
    engineSound (stepPause s).finish.1 = true := by
  refine engineSound_onePulse h (LiveSound.goTo (h.afterPulses _) ?_).engineSound
  exact (phaseSound_exit2 (goTo_tap _ _)).2 ((phaseSound_pause ht).1 h.phase)

theorem engineSound_stepExit2 {s : State} (h : LiveSound s) (ht : s.tap = TapState.exit2.code) :
    engineSound (stepExit2 s).finish.1 = true := by
  refine engineSound_onePulse h (LiveSound.goTo (h.afterPulses _) ?_).engineSound
  obtain ⟨hc, ha, hp, -⟩ := (phaseSound_exit2 ht).1 h.phase
  exact (phaseSound_update (goTo_tap _ _)).2 ⟨hc, ha, hp⟩

/-! ### UPDATE -/

/-- The leg that the shortcut starts is of a shift kind, a DR kind exactly by the DR shortcut. -/
theorem headShortcut_kind {s : State} {j : Instr} {q : List Instr} (hq : s.queue = j :: q)
    (h : headShortcut s ≠ .never) :
    j.kind.isShift = true ∧ (headShortcut s = .dr ↔ j.kind.isDr = true) := by
  rw [headShortcut_eq, hq] at h ⊢
  cases hk : j.kind <;> simp_all [shortcutOf, kindRow, Kind.isShift, Kind.isDr]

/-- A leg that is left and one that the shortcut has popped: the queue loses at most its head. -/
theorem queueSound_leavingUpdate {s : State} (hq : queueSound s = true) (k : Nat) :
    queueSound (leavingUpdate s k) = true := by
  have ht := queueSound_qPop hq
  simp only [queueSound, qPop_queue, qPop_params] at ht hq ⊢
  unfold leavingUpdate
  split <;> assumption

section retired
variable {s : State} (hf : s.fault = none) (hq : queueSound s = true) (hl : linesSound s = true)
  (ha : s.acc = [])
include hf hq hl ha

/-- The shortcut brings the leg at the queue head to SELECT; `p` and `r` are the flags it sets. -/
theorem liveSound_popped {j : Instr} {q : List Instr} {p r : Bit} (ds : List Drive)
    (hqueue : s.queue = j :: q) (hs : j.kind.isShift = true) (hp : p = decide (j.kind = .irPause))
    (hr : r = j.kind.isReadback) :
    LiveSound { afterPulses ds s with
      tap := TapState.select.code, cur := some j, queue := q, pause := p, readback := r } := by
  have hwf : ∀ i ∈ j :: q, i.wf (payloadLimit s.params) = true := hqueue ▸ (queueSound_iff s).1 hq
  refine ⟨hf, (queueSound_iff _).2 fun i hi => hwf i (.tail _ hi), ?_, linesSound_afterPulses ds hl⟩
  exact (phaseSound_select rfl).2
    ⟨(shiftLegCurrent_iff _ _).2 ⟨j, rfl, hs, hwf j (.head _), hp, hr⟩, ha⟩

/-- Once its capture is retired, UPDATE leaves the engine at rest, or in SELECT with the flags of the leg
the shortcut popped. -/
theorem liveSound_leftUpdate (hc : s.cur = none) (hp : s.pause = false) (hb : s.readback = false) :
    LiveSound (leftUpdate s) := by
  cases hh : headShortcut s with
  | never =>
    simp only [leftUpdate, hh]
    refine ⟨hf, hq, ?_, linesSound_afterPulses [(false, false)] hl⟩
    exact (phaseSound_idle rfl).trans ((atRest_iff _ _).2 ⟨hp, hb, ha, by simp [hc]⟩)
  | dr =>
    obtain ⟨j, q, hqueue⟩ := headShortcut_cons (s := s) (by simp [hh])
    obtain ⟨hs, hdr⟩ := headShortcut_kind hqueue (by simp [hh])
    have hkind : j.kind ≠ .irPause := fun hk => by simp [hk, hh, Kind.isDr] at hdr
    simp only [leftUpdate, hh, hqueue]
    exact liveSound_popped hf hq hl ha _ hqueue hs (p := s.pause) (by simp [hp, hkind]) rfl
  | ir =>
    obtain ⟨j, q, hqueue⟩ := headShortcut_cons (s := s) (by simp [hh])
    obtain ⟨hs, hdr⟩ := headShortcut_kind hqueue (by simp [hh])
    have hkind : j.kind.isReadback = false := by
      cases hk : j.kind <;> simp_all [Kind.isDr, Kind.isReadback]
    simp only [leftUpdate, hh, hqueue]
    exact liveSound_popped hf hq hl ha _ hqueue hs (r := s.readback) (by simp [hp]) (by rw [hb, hkind])

end retired

theorem engineSound_stepUpdate {s : State} (h : LiveSound s) (ht : s.tap = TapState.update.code) :
    engineSound (stepUpdate s).finish.1 = true := by
  obtain ⟨hc, -, hp⟩ := (phaseSound_update ht).1 h.phase
  rw [stepUpdate]
  split
  · have hq : queueSound (raise .resultOverflow s) = true := by simpa [queueSound] using h.queue
    simp [engineSound, hq, faultSound, h.fault]
  · have hq : queueSound (retire s) = true := by rw [retire_eq]; exact h.queue
    rcases leaveUpdate_cases (retire s) with ⟨-, e⟩ | ⟨k, -, -, -, e⟩ <;> rw [e]
    · have hleft : LiveSound (leftUpdate (retire s)) := by
        rw [retire_eq] at hq ⊢
        exact liveSound_leftUpdate h.fault hq h.lines rfl hc hp rfl
      exact hleft.engineSound
    · refine engineSound_failAccess ?_ (queueSound_leavingUpdate hq k)
      rw [retire_eq]
      unfold leavingUpdate
      split <;> exact h.fault

/-! ### One `Step()` -/

theorem engineSound_stepBranch {s : State} (h : LiveSound s) :
    engineSound (stepBranch s).finish.1 = true := by
  obtain ⟨t, ht⟩ := exists_code_of_phaseSound h.phase
  rw [stepBranch_at ht]
  cases t with
  | reset => exact engineSound_stepReset h ht
  | idle => exact engineSound_stepIdle h ht
  | select => exact engineSound_stepSelect h ht
  | capture => exact engineSound_stepCapture h ht
  | shift => exact engineSound_stepShift h ht
  | exit1 => exact engineSound_stepExit1 h ht
  | pause => exact engineSound_stepPause h ht
  | exit2 => exact engineSound_stepExit2 h ht
  | update => exact engineSound_stepUpdate h ht

theorem engineSound_tapStep {s : State} (h : engineSound s = true) : engineSound (tapStep s).1 = true := by
  cases hf : s.fault with
  | none => rw [tapStep_live hf]; exact engineSound_stepBranch (.of_engineSound hf h)
  | some e => rw [tapStep_faulted (by simp [hf])]; exact h

theorem engineSound_runSteps {s : State} (h : engineSound s = true) (n : Nat) :
    engineSound (runSteps n s) = true := by
  induction n generalizing s with
  | zero => exact h
  | succ n ih =>
    rw [runSteps_succ]
    split
    · exact engineSound_tapStep h
    · exact ih (engineSound_tapStep h)

/-- With nothing pending and nothing queued, a step at rest that does not fault ends at rest
(45_sequencer.md R203). -/
theorem resting_tapStep {s : State} (hf : s.fault = none) (hr : resting s = true) (hc : s.cur = none)
    (hq : s.queue = []) (hlive : (tapStep s).1.fault = none) : resting (tapStep s).1 = true := by
  rw [tapStep_live hf] at hlive ⊢
  rcases (resting_iff s).1 hr with ht | ht <;> rw [stepBranch_at ht] at hlive ⊢
  · rw [stepReset, finish_onePulse_of_live hlive]
    simp [resting]
  · simp only [stepIdle, hc, idleNoLeg, hq, List.isEmpty_nil, if_true] at hlive ⊢
    rw [finish_onePulse_of_live hlive]
    exact hr

/-- UPDATE completes its leg or faults. -/
theorem stepUpdate_completes {s : State} (h : (stepUpdate s).finish.1.fault = none) :
    (stepUpdate s).finish.2 = true := by
  unfold stepUpdate at h ⊢
  split at h
  · simp at h
  · next hfull =>
    rw [if_neg hfull]
    rcases leaveUpdate_cases (retire s) with ⟨-, e⟩ | ⟨k, -, -, -, e⟩
    · rw [e, Phy.finish_done]
    · simp [e, failAccess_eq] at h

/-- When the engine has no leg to run but not the whole session is drained, a step that neither completes a
leg nor faults comes to rest only from RESET, where legs are queued (45_sequencer.md R204). -/
theorem queue_ne_nil_of_resting_tapStep {s : State} (h : LiveSound s) (hfetch : fetch s = none)
    (hwork : resting s = true → s.cur = none → s.queue ≠ []) (hrun : (tapStep s).2 = false)
    (hlive : (tapStep s).1.fault = none) (hrest : resting (tapStep s).1 = true) :
    (tapStep s).1.queue ≠ [] := by
  obtain ⟨t, ht⟩ := exists_code_of_phaseSound h.phase
  have hc : s.cur = none := by
    cases hc : s.cur with
    | none => rfl
    | some i => simp [fetch, hc] at hfetch
  have hleg : shiftLegCurrent (payloadLimit s.params) s ≠ true := by simp [shiftLegCurrent, hc]
  rw [tapStep_live h.fault, stepBranch_at ht] at hrun hlive hrest ⊢
  cases t with
  | reset =>
    have hq : s.queue ≠ [] := hwork ((resting_iff s).2 (.inl ht)) hc
    simp only [stepReset] at hlive ⊢
    rw [finish_onePulse_of_live hlive]
    exact hq
  | idle =>
    cases hq : s.queue with
    | nil => exact absurd hq (hwork ((resting_iff s).2 (.inr ht)) hc)
    | cons i q => simp [fetch, hc, hq, ht] at hfetch
  | select => exact absurd ((phaseSound_select ht).1 h.phase).1 hleg
  | capture => exact absurd ((phaseSound_capture ht).1 h.phase).1 hleg
  | shift => exact absurd ((phaseSound_shift ht).symm.trans h.phase) hleg
  | exit1 =>
    simp only [stepExit1] at hlive hrest
    split at hlive
    · next hp => rw [if_pos hp] at hrest; simpa [resting] using resting_of_onePulse hlive hrest
    · next hp => rw [if_neg hp] at hrest; simpa [resting] using resting_of_onePulse hlive hrest
  | pause => simpa [resting] using resting_of_onePulse hlive hrest
  | exit2 => simpa [resting] using resting_of_onePulse hlive hrest
  | update => simp [stepUpdate_completes hlive] at hrun

/-! ### ADVANCE -/

/-- What the bookkeeping of ADVANCE says between calls. -/
theorem callSound_of_none {s : State} (hc : s.call = none) :
    callSound s = true ↔ s.fault.isSome = true ∨ resting s = true := by
  simp [callSound, hc]

/-- What it says while a call is in progress. -/
theorem callSound_of_some {s : State} {n : Nat} (hc : s.call = some n) :
    callSound s = true ↔ s.fault = none ∧ (n = 0 ∨ resting s = false) ∧
      (resting s = true → s.cur = none → s.queue ≠ []) := by
  cases hr : resting s <;> cases hl : s.cur <;> simp [callSound, hc, hr, hl, and_assoc]

theorem sound_iff (s : State) : sound s = true ↔ engineSound s = true ∧ callSound s = true := by
  simp [sound]

/-- ADVANCE may return at rest or with a fault. -/
theorem sound_endCall {s : State} (h : engineSound s = true)
    (hend : s.fault = none → resting s = true) : sound (endCall s) = true := by
  refine (sound_iff _).2 ⟨h, (callSound_of_none rfl).2 ?_⟩
  cases hf : s.fault with
  | none => exact .inr (hend hf)
  | some e => exact .inl (by simp [hf])

/-- The bookkeeping after a step keeps the session sound, if a step that completes no leg in a call that has
completed none leaves work where it comes to rest. -/
theorem sound_afterStep {s : State} {n : Nat} {c : Bool} (h : engineSound s = true)
    (hwork : n + c.toNat = 0 → s.fault = none → resting s = true → s.queue ≠ []) :
    sound (afterStep n c s) = true := by
  unfold afterStep
  split
  · next hf => exact sound_endCall h fun hn => by simp [hn] at hf
  · next hf =>
    have hf : s.fault = none := by simpa using hf
    split
    · next hr => exact sound_endCall h fun _ => (Bool.and_eq_true _ _ ▸ hr).2
    · next hr =>
      have hcount : n + c.toNat = 0 ∨ resting s = false := by
        simpa [Nat.one_le_iff_ne_zero, Decidable.imp_iff_not_or, -Nat.add_eq_zero_iff] using hr
      refine (sound_iff _).2 ⟨h, (callSound_of_some rfl).2 ⟨hf, hcount, fun hrest _ => ?_⟩⟩
      exact hwork (hcount.resolve_right fun hn => Bool.false_ne_true (hn.symm.trans hrest)) hf hrest

theorem fetch_eq_some {s u : State} {i : Instr} (h : fetch s = some (i, u)) :
    s.cur = some i ∧ u = s ∨
      s.cur = none ∧ s.tap = TapState.idle.code ∧ s.queue.head? = some i ∧ u = qPop s := by
  unfold fetch at h
  split at h
  · simp_all
  · split at h <;> simp_all

/-- The leg that the engine fetches is its current leg, in a sound engine. -/
theorem liveSound_fetch {s u : State} {i : Instr} (h : LiveSound s) (hfetch : fetch s = some (i, u)) :
    LiveSound u ∧ u.cur = some i := by
  rcases fetch_eq_some hfetch with ⟨hc, rfl⟩ | ⟨-, ht, hq, rfl⟩
  · exact ⟨h, hc⟩
  · exact ⟨h.qPop ((resting_iff s).2 (.inr ht)), by simpa using hq⟩

/-- A leg that is current runs to a state with sound registers. -/
theorem exec_current {u : State} {i : Instr} (h : LiveSound u) (hc : u.cur = some i) :
    ∃ v, exec i u = .next v ∧ engineSound v = true := by
  refine ⟨runSteps (legFuel i) u, ?_, engineSound_runSteps h.engineSound _⟩
  rw [exec_eq_runLeg, runLeg_live h.fault, ← hc]

theorem sound_engineTurn {s u : State} {n : Nat} (hs : sound s = true) (hc : s.call = some n)
    (h : engineTurn n s = .next u) : sound u = true := by
  obtain ⟨he, hcall⟩ := (sound_iff s).1 hs
  obtain ⟨hf, -, hwork⟩ := (callSound_of_some hc).1 hcall
  have hl := LiveSound.of_engineSound hf he
  cases hfetch : fetch s with
  | none =>
    simp only [engineTurn, hf, hfetch, Option.isSome_none, Bool.false_eq_true, if_false] at h
    cases h
    refine sound_afterStep (engineSound_tapStep he) fun hn hlive hrest => ?_
    have hrun : (tapStep s).2 = false := by cases hb : (tapStep s).2 <;> simp_all
    exact queue_ne_nil_of_resting_tapStep hl hfetch hwork hrun hlive hrest
  | some p =>
    obtain ⟨i, v⟩ := p
    obtain ⟨hv, hvc⟩ := liveSound_fetch hl hfetch
    obtain ⟨w, hx, hw⟩ := exec_current hv hvc
    rw [engineTurn_leg hf hfetch hx] at h
    cases h
    exact sound_afterStep hw fun hn => by simp at hn

/-! ### The host

The invariant does not read the host's list or its replies: it holds by definition of a state that differs
from a sound one only there, as after a refusal. -/

/-- The checks of ENQUEUE let through well-formed legs only (30_encoding.md R76, R77). -/
theorem wf_of_enqueueCheck {p : Params} {i : Instr}
    (h : enqueueCheck p i.kind i.payload.length = none) : i.wf (payloadLimit p) = true := by
  unfold enqueueCheck at h
  split at h
  · cases h
  · next hbits =>
    split at h
    · cases h
    · next hfits =>
      simp only [Instr.wf, Bool.and_eq_true]
      exact ⟨by cases hk : i.kind.isShift <;> simp_all [Instr.hasBits],
        by simpa [Instr.fits] using hfits⟩

/-- A descriptor's leg has the kind and the length of the header (30_encoding.md R71). -/
theorem kind_length_of_decode {h : Word} {ws rest : List Word} {i : Instr}
    (hd : decode (h :: ws) = .ok (i, rest)) :
    Kind.ofCode (headerKind h) = some i.kind ∧ i.payload.length = headerLen h := by
  simp only [decode, decodeFrom] at hd
  cases hk : Kind.ofCode (headerKind h) with
  | none => simp [hk] at hd
  | some k =>
    rw [hk] at hd
    by_cases hw : ws.length < payloadWords (headerLen h)
    · simp [hw] at hd
    · simp only [hw, if_false, Except.ok.injEq, Prod.mk.injEq] at hd
      obtain ⟨rfl, -⟩ := hd
      simp [unpack]

/-- Driving SRST succeeds or stops at its access. -/
theorem driveSrst_cases (v : Bit) (s : State) :
    driveSrst v s = .done () (srstDriven v s) ∨ driveSrst v s = .stopped (failAccess s) := by
  cases h : failsAt s 0 <;> simp [driveSrst, h]

/-- Driving SRST and waiting leave the phase as it is. -/
@[simp] theorem phaseSound_srstDriven (limit : Nat) (v : Bit) (s : State) :
    phaseSound limit (srstDriven v s) = phaseSound limit s := rfl

@[simp] theorem phaseSound_delaySettle (limit : Nat) (s : State) :
    phaseSound limit (delaySettle s) = phaseSound limit s := rfl

/-- PULSE_RESET is complete, or stops at one of its two accesses (41_phy.md R127). -/
theorem pulseReset_cases (s : State) :
    pulseReset s = .done () (srstDriven true (delaySettle (srstDriven false s))) ∨
      pulseReset s = .stopped (failAccess s) ∨
      pulseReset s = .stopped (failAccess (delaySettle (srstDriven false s))) := by
  rcases driveSrst_cases false s with e | e
  · rcases driveSrst_cases true (delaySettle (srstDriven false s)) with e' | e' <;>
      simp [pulseReset, e, e']
  · simp [pulseReset, e]

/-- A failed access between calls. -/
theorem sound_failAccess {s : State} (hf : s.fault = none) (hq : queueSound s = true) (hc : s.call = none) :
    sound (failAccess s) = true := by
  refine (sound_iff _).2 ⟨engineSound_failAccess hf hq, (callSound_of_none ?_).2 (.inl ?_)⟩
  · simpa [failAccess_eq] using hc
  · simp [failAccess_eq]

/-- A new session is sound, whatever it replaces (70_reset_and_hazards.md R260). -/
theorem sound_newSession (s : State) : sound (newSession s) = true := by
  have hl : LiveSound (newSession s) := ⟨rfl, rfl, (phaseSound_idle rfl).trans rfl, rfl⟩
  exact (sound_iff _).2 ⟨hl.engineSound, (callSound_of_none rfl).2 (.inr rfl)⟩

/-- An ADVANCE that is not refused ends at once, or begins its loop with something to do. -/
theorem sound_advance {s : State} (hs : sound s = true) : sound (advance s) = true := by
  obtain ⟨he, hcall⟩ := (sound_iff s).1 hs
  unfold advance
  split
  · exact hs
  · next hf =>
    have hf : s.fault = none := by simpa using hf
    split
    · next hidle =>
      simp only [Bool.and_eq_true, Option.isNone_iff_eq_none, List.isEmpty_iff] at hidle
      obtain ⟨⟨hr, hleg⟩, hq⟩ := hidle
      exact sound_endCall (engineSound_tapStep he) (resting_tapStep hf hr hleg hq)
    · next hwork =>
      have hwork : resting s = true → s.cur = none → s.queue ≠ [] := by simpa using hwork
      exact (sound_iff _).2 ⟨he, (callSound_of_some rfl).2 ⟨hf, .inl rfl, hwork⟩⟩

theorem sound_drainPass {s : State} (hs : sound s = true) (rest : List HostAction) :
    sound (drainPass rest s) = true := by
  unfold drainPass
  split
  · exact hs
  · exact sound_advance hs

theorem sound_readLastReadout {s : State} (hs : sound s = true) : sound (readLastReadout s) = true := by
  unfold readLastReadout
  split <;> exact hs

section hostOperations
variable {s : State} (hs : sound s = true) (hc : s.call = none)
include hs hc

theorem sound_enqueue {i : Instr} (hw : i.wf (payloadLimit s.params) = true) :
    sound (enqueue i s) = true := by
  obtain ⟨he, hcall⟩ := (sound_iff s).1 hs
  simp only [engineSound, Bool.and_eq_true] at he
  obtain ⟨⟨hq, hfault⟩, hlive⟩ := he
  have hq' : queueSound (enqueue i s) = true := by
    rw [queueSound_iff] at hq ⊢
    intro j hj
    rcases List.mem_append.1 hj with hj | hj
    · exact hq j hj
    · rw [List.mem_singleton.1 hj]; exact hw
  have hcall' : callSound (enqueue i s) = true :=
    (callSound_of_none (s := enqueue i s) hc).2 ((callSound_of_none hc).1 hcall)
  refine (sound_iff _).2 ⟨?_, hcall'⟩
  simp only [engineSound, Bool.and_eq_true]
  exact ⟨⟨hq', hfault⟩, hlive⟩

theorem sound_enqueueLeg (i : Instr) : sound (enqueueLeg i s) = true := by
  unfold enqueueLeg
  split
  · exact hs
  · split
    · exact hs
    · next hcheck => exact sound_enqueue hs hc (wf_of_enqueueCheck hcheck)

theorem sound_enqueueDescriptor {h : Word} {ws : List Word} {u : State}
    (hu : enqueueDescriptor h ws s = .next u) : sound u = true := by
  unfold enqueueDescriptor at hu
  split at hu
  · cases hu; exact hs
  · split at hu
    · cases hu; exact hs
    · next k hk =>
      split at hu
      · cases hu; exact hs
      · next hcheck =>
        split at hu
        · next i hd =>
          obtain ⟨hkind, hlen⟩ := kind_length_of_decode hd
          obtain rfl : i.kind = k := by simpa [hk] using hkind.symm
          cases hu
          exact sound_enqueue hs hc (wf_of_enqueueCheck (hlen ▸ hcheck))
        · cases hu
        · cases hu

/-- PULSE_RESET releases SRST and leaves the TAP registers, or stops with a fault. -/
theorem sound_pulseResetOp : sound (pulseResetOp s) = true := by
  obtain ⟨he, hcall⟩ := (sound_iff s).1 hs
  unfold pulseResetOp
  split
  · exact hs
  · next hf =>
    have hf : s.fault = none := by simpa using hf
    have hl := LiveSound.of_engineSound hf he
    obtain ⟨htck, -⟩ : s.lines.tck = false ∧ s.lines.srst = true := by
      simpa [linesSound] using hl.lines
    rcases pulseReset_cases s with e | e | e <;> rw [e]
    · have hu : LiveSound (srstDriven true (delaySettle (srstDriven false s))) :=
        ⟨by simpa using hf, by simpa [queueSound] using hl.queue, by simpa using hl.phase,
          by simp [linesSound, htck]⟩
      refine (sound_iff _).2 ⟨hu.engineSound, (callSound_of_none (by simpa using hc)).2 ?_⟩
      simpa [resting_iff] using (callSound_of_none hc).1 hcall
    · exact sound_failAccess hf hl.queue hc
    · exact sound_failAccess (by simpa using hf) (by simpa [queueSound] using hl.queue)
        (by simpa using hc)

end hostOperations

/-- An outcome that is a sound state. -/
theorem sound_of_next {v u : State} (hv : sound v = true)
    (h : (.next v : Host.Outcome State Fault Refusal) = .next u) : sound u = true := by
  cases h; exact hv

/-- Every action of the host keeps the session sound. -/
theorem sound_hostAction {a : HostAction} {s u : State} (hs : sound s = true)
    (h : hostAction a s = .next u) : sound u = true := by
  unfold hostAction at h
  split at h
  · cases h; exact hs
  · next hc =>
    have hc : s.call = none := by simpa using hc
    cases a with
    | enqueueLeg i => exact sound_of_next (sound_enqueueLeg hs hc i) h
    | enqueue w ws => exact sound_enqueueDescriptor hs hc h
    | advance => exact sound_of_next (sound_advance hs) h
    | pulseReset => exact sound_of_next (sound_pulseResetOp hs hc) h
    | readResults => exact sound_of_next (v := readResults s) hs h
    | readLastReadout => exact sound_of_next (sound_readLastReadout hs) h
    | readStatus => exact sound_of_next (v := readStatus s) hs h
    | drain => exact sound_of_next (sound_drainPass hs _) h
    | newSession => exact sound_of_next (sound_newSession s) h

/-- The host's turn is one of its actions, or a pass of DRAIN, which stays ahead. -/
theorem hostTurn_cases {s u : State} (h : hostTurn s = .next u) :
    ∃ a rest, s.host = a :: rest ∧
      (u = drainPass rest s ∨ hostAction a { s with host := rest } = .next u) := by
  cases hh : s.host with
  | nil => simp [hostTurn, hh] at h
  | cons a rest =>
    refine ⟨a, rest, rfl, ?_⟩
    rw [hostTurn, hh] at h
    cases a with
    | drain => exact .inl (Host.Outcome.next.inj h).symm
    | _ => exact .inr h

/-! ### One step of the machine -/

theorem sound_step {s u : State} (hs : sound s = true) (h : step s = .next u) : sound u = true := by
  cases hc : s.call with
  | some n => exact sound_engineTurn hs hc (by simpa only [step, turn, hc] using h)
  | none =>
    have h : hostTurn s = .next u := by simpa only [step, turn, hc] using h
    obtain ⟨a, rest, -, rfl | h⟩ := hostTurn_cases h
    · exact sound_drainPass hs rest
    · exact sound_hostAction (s := { s with host := rest }) hs h

/-- Settles O53. A call in progress is the engine's turn, on the leg it fetches or on one `Step()`; between
calls the host's actions keep each part of the invariant. -/
theorem stepKeepsSound : Obligations.StepKeepsSound := fun _ _ hs h => sound_step hs h

/-- Settles O54, branch by branch of `Step()`. -/
theorem tapStepKeepsEngineSound : Obligations.TapStepKeepsEngineSound := fun _ h => engineSound_tapStep h

/-- Settles O52: the state after reset is that of a new session. -/
theorem resetIsSound : Obligations.ResetIsSound := sound_newSession State.reset

end Sys2Proof.Machine
end

section
/-! The Result Store, the line trace and the Leg Queue (20_memory.md R50 to R55, 41_phy.md R124): what a
step may do to them, said of every step of the engine and of every action of the host; and the full Result
Store. -/

namespace Sys2Proof.Machine

/-- Settles O22: UPDATE checks the Result Store first. -/
theorem fullResultStoreFaults : Obligations.FullResultStoreFaults := by
  intro s c hf ht hc hfull
  have hr : resultsFull s = true := by simp [resultsFull, hc, hfull]
  rw [tapStep_live hf, stepBranch_at ht]
  simp [stepUpdate, hr, raise, hf]

/-! ### What grows at its end, and what shrinks at its head -/

/-- From `s` to `t` the parameters are the same, and the Result Store and the trace grow at their ends. -/
structure Grows (s t : State) : Prop where
  params : t.params = s.params
  results : s.results <+: t.results
  trace : s.trace <+: t.trace

/-- From `s` to `t` the engine has moved on: as `Grows` says, and the queue loses legs at its head only. -/
structure Advances (s t : State) : Prop extends Grows s t where
  queue : t.queue <:+ s.queue

theorem Grows.trans {s t u : State} (h : Grows s t) (h' : Grows t u) : Grows s u :=
  ⟨h'.params.trans h.params, h.results.trans h'.results, h.trace.trans h'.trace⟩

theorem Advances.trans {s t u : State} (h : Advances s t) (h' : Advances t u) : Advances s u :=
  ⟨h.toGrows.trans h'.toGrows, h'.queue.trans h.queue⟩

/-- A write that keeps the Result Store, the trace and the parameters. -/
theorem Grows.of_eq {s t : State} (hp : t.params = s.params) (hr : t.results = s.results)
    (ht : t.trace = s.trace) : Grows s t :=
  ⟨hp, hr ▸ List.prefix_rfl, ht ▸ List.prefix_rfl⟩

theorem Advances.of_eq {s t : State} (hp : t.params = s.params) (hr : t.results = s.results)
    (ht : t.trace = s.trace) (hq : t.queue = s.queue) : Advances s t :=
  ⟨.of_eq hp hr ht, hq ▸ List.suffix_rfl⟩

theorem Advances.refl (s : State) : Advances s s := .of_eq rfl rfl rfl rfl

theorem advances_raise (e : ErrorCode) (s : State) : Advances s (raise e s) :=
  .of_eq (by simp) (by simp) (by simp) (by simp)

theorem advances_failAccess (s : State) : Advances s (failAccess s) := by
  rw [failAccess_eq]
  exact .of_eq rfl rfl rfl rfl

theorem advances_afterPulses (ds : List Drive) (s : State) : Advances s (afterPulses ds s) :=
  ⟨⟨rfl, List.prefix_rfl, List.prefix_append _ _⟩, List.suffix_rfl⟩

theorem advances_goTo (t : TapState) (s : State) : Advances s (goTo t s) := .of_eq rfl rfl rfl rfl

theorem advances_qPop (s : State) : Advances s (qPop s) :=
  ⟨.of_eq (by simp) (by simp) (by simp), qPop_queue s ▸ List.tail_suffix _⟩

/-- UPDATE retires one capture, at the end of the Result Store. -/
theorem advances_retire (s : State) : Advances s (retire s) := by
  rw [retire_eq]
  exact ⟨⟨rfl, List.prefix_append _ _, List.prefix_rfl⟩, List.suffix_rfl⟩

/-! ### Steps of the engine -/

/-- A step that begins with one pulse moves on, if its rest does so after the pulse. -/
theorem advances_onePulse {b m : Bit} {s : State} {f : Unit → State → Phy Bool}
    (h : Advances (afterPulses [(b, m)] s) (f () (afterPulses [(b, m)] s)).finish.1) :
    Advances s ((pulseW b m s).andThen f).finish.1 := by
  rcases finish_onePulse b m s f with e | e <;> rw [e]
  · exact (advances_afterPulses _ s).trans h
  · exact advances_failAccess s

theorem advances_enterFromIdle (r : ShiftRow) (s : State) : Advances s (enterFromIdle r s).finish.1 := by
  rcases enterFromIdle_cases r s with ⟨-, e⟩ | ⟨k, -, -, -, e⟩ <;> rw [e]
  · exact (advances_afterPulses _ s).trans (.of_eq rfl rfl rfl rfl)
  · exact (advances_afterPulses _ s).trans (advances_failAccess _)

theorem advances_controlStep (c : ControlAction) (s : State) : Advances s (controlStep c s).finish.1 := by
  cases c with
  | resetBurst =>
    rcases resetBurst_cases s with ⟨-, e⟩ | ⟨k, -, -, -, e⟩ <;> rw [controlStep, e]
    · exact ((advances_afterPulses _ s).trans (advances_goTo .reset _)).trans (advances_qPop _)
    · exact (advances_afterPulses _ s).trans (advances_failAccess _)
  | longDelay =>
    have hd : Advances s (delayLong s) :=
      ⟨⟨rfl, List.prefix_rfl, List.prefix_append _ _⟩, List.suffix_rfl⟩
    exact hd.trans (advances_qPop _)
  | idleClock => exact advances_onePulse (advances_qPop _)

theorem advances_stepIdle (s : State) : Advances s (stepIdle s).finish.1 := by
  unfold stepIdle
  split
  · unfold idleNoLeg
    split
    · exact advances_onePulse (.refl _)
    · exact advances_qPop s
  · split
    · exact advances_enterFromIdle _ s
    · exact advances_controlStep _ s

theorem advances_shiftBit (r : ShiftRow) (i : Instr) (b : Bit) (rest : Bits) (s : State) :
    Advances s (shiftBit r i b rest s).finish.1 := by
  rcases shiftBit_cases r i b rest s with ⟨-, e⟩ | ⟨-, e⟩ <;> rw [e]
  · rw [Phy.finish_done]
    split
    · exact (advances_afterPulses [(b, true)] s).trans (.of_eq (by simp) (by simp) (by simp) (by simp))
    · exact (advances_afterPulses [(b, false)] s).trans (.of_eq (by simp) (by simp) (by simp) (by simp))
  · exact advances_failAccess s

theorem advances_stepShift (s : State) : Advances s (stepShift s).finish.1 := by
  unfold stepShift
  split
  · exact advances_raise _ s
  · split
    · exact advances_raise _ s
    · split
      · exact advances_raise _ s
      · exact advances_shiftBit _ _ _ _ s

theorem advances_stepExit1 (s : State) : Advances s (stepExit1 s).finish.1 := by
  unfold stepExit1
  split
  · exact advances_onePulse (.of_eq rfl rfl rfl rfl)
  · exact advances_onePulse (advances_goTo _ _)

/-- The second part of UPDATE, complete: by the shortcut the queue loses its head. -/
theorem advances_leftUpdate (s : State) : Advances s (leftUpdate s) := by
  unfold leftUpdate
  split
  · exact (advances_afterPulses _ s).trans (.of_eq rfl rfl rfl rfl)
  · exact (advances_afterPulses _ s).trans ⟨.of_eq rfl rfl rfl, List.tail_suffix _⟩
  · exact (advances_afterPulses _ s).trans ⟨.of_eq rfl rfl rfl, List.tail_suffix _⟩

/-- The second part of UPDATE, as far as a failing access lets it come. -/
theorem advances_leavingUpdate (s : State) (k : Nat) : Advances s (leavingUpdate s k) := by
  unfold leavingUpdate
  split
  · exact .refl s
  · exact ⟨.of_eq rfl rfl rfl, List.tail_suffix _⟩
  · exact .refl s
  · exact (advances_afterPulses _ s).trans ⟨.of_eq rfl rfl rfl, List.tail_suffix _⟩

theorem advances_stepUpdate (s : State) : Advances s (stepUpdate s).finish.1 := by
  unfold stepUpdate
  split
  · exact advances_raise _ s
  · refine (advances_retire s).trans ?_
    rcases leaveUpdate_cases (retire s) with ⟨-, e⟩ | ⟨k, -, -, -, e⟩ <;> rw [e]
    · exact advances_leftUpdate _
    · exact (advances_leavingUpdate _ k).trans (advances_failAccess _)

theorem advances_stepBranch (s : State) : Advances s (stepBranch s).finish.1 := by
  cases ht : TapState.ofCode s.tap with
  | none =>
    simp only [stepBranch, ht]
    exact advances_raise _ s
  | some t =>
    rw [stepBranch_at (TapState.code_of_ofCode ht)]
    cases t with
    | reset => exact advances_onePulse (advances_goTo _ _)
    | idle => exact advances_stepIdle s
    | select => exact advances_onePulse (advances_goTo _ _)
    | capture => exact advances_onePulse (.of_eq rfl rfl rfl rfl)
    | shift => exact advances_stepShift s
    | exit1 => exact advances_stepExit1 s
    | pause => exact advances_onePulse (advances_goTo _ _)
    | exit2 => exact advances_onePulse (advances_goTo _ _)
    | update => exact advances_stepUpdate s

theorem advances_tapStep (s : State) : Advances s (tapStep s).1 := by
  unfold tapStep
  split
  · exact .refl s
  · exact advances_stepBranch s

theorem advances_runSteps (n : Nat) (s : State) : Advances s (runSteps n s) := by
  induction n generalizing s with
  | zero => exact .refl s
  | succ n ih =>
    rw [runSteps_succ]
    split
    · exact advances_tapStep s
    · exact (advances_tapStep s).trans (ih _)

theorem advances_exec {i : Instr} {s t : State} (h : exec i s = .next t) : Advances s t := by
  rw [exec_eq_runLeg, runLeg] at h
  split at h
  · cases h
  · cases h
    have hcur : Advances s { s with cur := some i } := .of_eq rfl rfl rfl rfl
    exact hcur.trans (advances_runSteps _ _)

theorem advances_fetch {s u : State} {i : Instr} (h : fetch s = some (i, u)) : Advances s u := by
  rcases fetch_eq_some h with ⟨-, rfl⟩ | ⟨-, -, -, rfl⟩
  · exact .refl _
  · exact advances_qPop s

theorem advances_endCall (s : State) : Advances s (endCall s) := .of_eq rfl rfl rfl rfl

theorem advances_afterStep (n : Nat) (c : Bool) (s : State) : Advances s (afterStep n c s) := by
  unfold afterStep
  split
  · exact advances_endCall s
  · split
    · exact advances_endCall s
    · exact .of_eq rfl rfl rfl rfl

theorem advances_engineTurn {n : Nat} {s t : State} (h : engineTurn n s = .next t) : Advances s t := by
  unfold engineTurn at h
  split at h
  · cases h; exact advances_endCall s
  · split at h
    · cases h; exact (advances_tapStep s).trans (advances_afterStep _ _ _)
    · next hfetch =>
      split at h
      · next hexec =>
        cases h
        exact ((advances_fetch hfetch).trans (advances_exec hexec)).trans (advances_afterStep _ _ _)
      · cases h
      · cases h

/-! ### Actions of the host -/

theorem grows_reply (r : Reply) (s : State) : Grows s (reply r s) := .of_eq rfl rfl rfl

theorem grows_srstDriven (v : Bit) (s : State) : Grows s (srstDriven v s) :=
  ⟨rfl, List.prefix_rfl, List.prefix_append _ _⟩

theorem grows_delaySettle (s : State) : Grows s (delaySettle s) :=
  ⟨rfl, List.prefix_rfl, List.prefix_append _ _⟩

theorem grows_enqueueLeg (i : Instr) (s : State) : Grows s (enqueueLeg i s) := by
  unfold enqueueLeg
  split
  · exact .of_eq rfl rfl rfl
  · split <;> exact .of_eq rfl rfl rfl

theorem grows_enqueueDescriptor {w : Word} {ws : List Word} {s t : State}
    (h : enqueueDescriptor w ws s = .next t) : Grows s t := by
  unfold enqueueDescriptor at h
  split at h
  · cases h; exact .of_eq rfl rfl rfl
  · split at h
    · cases h; exact .of_eq rfl rfl rfl
    · split at h
      · cases h; exact .of_eq rfl rfl rfl
      · split at h <;> cases h
        exact .of_eq rfl rfl rfl

theorem grows_advance (s : State) : Grows s (advance s) := by
  unfold advance
  split
  · exact .of_eq rfl rfl rfl
  · split
    · exact ((advances_tapStep s).trans (advances_endCall _)).toGrows
    · exact .of_eq rfl rfl rfl

/-- PULSE_RESET appends the events of what it has done, up to a failed access. -/
theorem grows_pulseResetOp (s : State) : Grows s (pulseResetOp s) := by
  have hlow : Grows s (delaySettle (srstDriven false s)) :=
    (grows_srstDriven false s).trans (grows_delaySettle _)
  unfold pulseResetOp
  split
  · exact grows_reply _ s
  · rcases pulseReset_cases s with e | e | e <;> rw [e]
    · exact (hlow.trans (grows_srstDriven true _)).trans (grows_reply _ _)
    · exact (advances_failAccess s).toGrows.trans (grows_reply _ _)
    · exact (hlow.trans (advances_failAccess _).toGrows).trans (grows_reply _ _)

theorem grows_readLastReadout (s : State) : Grows s (readLastReadout s) := by
  unfold readLastReadout
  split <;> exact .of_eq rfl rfl rfl

theorem grows_drainPass (rest : List HostAction) (s : State) : Grows s (drainPass rest s) := by
  unfold drainPass
  split
  · exact .of_eq rfl rfl rfl
  · exact grows_advance s

/-- An outcome that is a state which has grown. -/
theorem Grows.of_next {s v t : State} (hv : Grows s v)
    (h : (.next v : Host.Outcome State Fault Refusal) = .next t) : Grows s t := by
  cases h; exact hv

/-- Every action of the host but a new session. -/
theorem grows_hostAction {a : HostAction} {s t : State} (ha : a ≠ .newSession)
    (h : hostAction a s = .next t) : Grows s t := by
  unfold hostAction at h
  split at h
  · cases h; exact .of_eq rfl rfl rfl
  · cases a with
    | enqueueLeg i => exact .of_next (grows_enqueueLeg i s) h
    | enqueue w ws => exact grows_enqueueDescriptor h
    | advance => exact .of_next (grows_advance s) h
    | pulseReset => exact .of_next (grows_pulseResetOp s) h
    | readResults => exact .of_next (v := readResults s) (.of_eq rfl rfl rfl) h
    | readLastReadout => exact .of_next (grows_readLastReadout s) h
    | readStatus => exact .of_next (v := readStatus s) (.of_eq rfl rfl rfl) h
    | drain => exact .of_next (grows_drainPass s.host s) h
    | newSession => exact absurd rfl ha

/-- No action of the host writes the parameters, a new session among them. -/
theorem params_hostAction {a : HostAction} {s t : State} (h : hostAction a s = .next t) :
    t.params = s.params := by
  by_cases ha : a = .newSession
  · subst ha
    unfold hostAction at h
    split at h <;> cases h <;> rfl
  · exact (grows_hostAction ha h).params

/-! ### One step of the machine -/

/-- In a call in progress the step is the engine's. -/
theorem advances_step {s t : State} {n : Nat} (hc : s.call = some n) (h : step s = .next t) :
    Advances s t :=
  advances_engineTurn (n := n) (by simpa only [step, turn, hc] using h)

/-- Between calls the step is the host's. -/
theorem hostTurn_of_step {s t : State} (hc : s.call = none) (h : step s = .next t) :
    hostTurn s = .next t := by
  simpa only [step, turn, hc] using h

theorem params_step {s t : State} (h : step s = .next t) : t.params = s.params := by
  cases hc : s.call with
  | some n => exact (advances_step hc h).params
  | none =>
    obtain ⟨a, rest, -, rfl | ha⟩ := hostTurn_cases (hostTurn_of_step hc h)
    · exact (grows_drainPass rest s).params
    · exact (params_hostAction ha).trans rfl

/-- Every step but a new session. -/
theorem grows_step {s t : State} (h : step s = .next t)
    (hnew : s.call = none → s.host.head? ≠ some .newSession) : Grows s t := by
  cases hc : s.call with
  | some n => exact (advances_step hc h).toGrows
  | none =>
    obtain ⟨a, rest, hhost, rfl | ha⟩ := hostTurn_cases (hostTurn_of_step hc h)
    · exact grows_drainPass rest s
    · have hne : a ≠ .newSession := by simpa [hhost] using hnew hc
      have hg : Grows { s with host := rest } t := grows_hostAction hne ha
      exact ⟨hg.params, hg.results, hg.trace⟩

/-- Settles O56: every step but a new session grows the Result Store and the trace at their ends, and a new
session keeps the parameters. -/
theorem resultsAndTraceOnlyGrow : Obligations.ResultsAndTraceOnlyGrow := by
  intro s t h
  refine ⟨params_step h, fun hnew => ?_⟩
  obtain ⟨-, ⟨R, hR⟩, ⟨T, hT⟩⟩ := grows_step h hnew
  exact ⟨⟨R, hR.symm⟩, ⟨T, hT.symm⟩⟩

/-- Settles O57: in a call in progress every part of the engine's turn leaves a suffix of the queue. -/
theorem engineTakesLegsAtTheHead : Obligations.EngineTakesLegsAtTheHead := by
  intro s t n hc h
  obtain ⟨taken, htaken⟩ := (advances_step hc h).queue
  exact ⟨taken, htaken.symm⟩

end Sys2Proof.Machine
end

section
/-! Whole shift legs in the closed form of 43_shift_legs.md R170: the run of steps from SELECT to UPDATE, the
UPDATE step that ends it, and the entry from IDLE; and the capture under the echo stimulus (20_memory.md
R59). -/

namespace Sys2Proof.Machine

/-! ### From SELECT to UPDATE -/

/-- A run goes on past a step of one pulse that succeeds. -/
theorem runSteps_onePulse {b m : Bit} {s : State} {f : State → State} (hf : s.fault = none)
    (hb : stepBranch s = (pulseW b m s).andThen fun _ u => .done false (f u)) (h0 : failsAt s 0 = false)
    (hlive : (f (afterPulses [(b, m)] s)).fault = none) (n : Nat) :
    runSteps (n + 1) s = runSteps n (f (afterPulses [(b, m)] s)) := by
  rw [pulseW_done h0, Phy.andThen_done, pulsed_eq_afterPulses] at hb
  exact runSteps_more hf hb hlive

/-- What SELECT and CAPTURE come to SHIFT with, from state `s`: two pulses made, the accumulator clear. -/
def atShift (s : State) : State :=
  { afterPulses [(false, false), (false, false)] s with tap := TapState.shift.code, acc := [] }

/-- The steps of SELECT and CAPTURE. -/
theorem runSteps_select {s : State} (hf : s.fault = none) (ht : s.tap = TapState.select.code)
    (ha : accessesSucceed 2 s = true) (n : Nat) : runSteps (n + 2) s = runSteps n (atShift s) := by
  rw [accessesSucceed_iff] at ha
  have h1 := (failsAt_afterPulses [(false, false)] s 0).trans (ha 1 (by omega))
  have hcapture := stepBranch_at (goTo_tap .capture (afterPulses [(false, false)] s))
  rw [runSteps_onePulse hf (stepBranch_at ht) (ha 0 (by omega)) hf,
    runSteps_onePulse (f := fun u => goTo .shift { u with acc := [] }) (by exact hf) hcapture h1 hf, atShift,
    show [(false, false), (false, false)] = [(false, false)] ++ [(false, false)] from rfl,
    afterPulses_append]
  rfl

/-- The exit is EXIT1 alone, or with a pause requested EXIT1, PAUSE and EXIT2. -/
theorem runSteps_exit1 {k : Kind} {s : State} (hf : s.fault = none) (ht : s.tap = TapState.exit1.code)
    (hp : s.pause = decide (k = .irPause)) (ha : accessesSucceed (exitDrives k).length s = true) (n : Nat) :
    runSteps (n + (exitDrives k).length) s = runSteps n { afterPulses (exitDrives k) s with
      tap := TapState.update.code, pause := false } := by
  rw [accessesSucceed_iff] at ha
  have hexit1 := stepBranch_at ht
  simp only [stepExit1, hp] at hexit1
  by_cases hk : k = .irPause
  · subst hk
    have h1 := (failsAt_afterPulses [(false, false)] s 0).trans (ha 1 (by decide))
    have h2 : failsAt (afterPulses [(false, true)] (afterPulses [(false, false)] s)) 0 = false := by
      simpa using ha 2 (by decide)
    have hd : exitDrives .irPause = [(false, false)] ++ [(false, true)] ++ [(false, true)] := rfl
    have hpause := stepBranch_at (t := .pause)
      (s := clearPause (goTo .pause (afterPulses [(false, false)] s))) rfl
    have hexit2 := stepBranch_at (goTo_tap .exit2 (afterPulses [(false, true)]
      (clearPause (goTo .pause (afterPulses [(false, false)] s)))))
    rw [show n + (exitDrives .irPause).length = n + 1 + 1 + 1 from rfl,
      runSteps_onePulse (f := fun u => clearPause (goTo .pause u)) hf hexit1 (ha 0 (by decide)) hf,
      runSteps_onePulse (by exact hf) hpause h1 hf, runSteps_onePulse (by exact hf) hexit2 h2 hf, hd,
      afterPulses_append, afterPulses_append]
    rfl
  · have hd : exitDrives k = [(false, true)] := if_neg hk
    simp only [hk, decide_false] at hp hexit1
    rw [hd] at ha ⊢
    rw [List.length_singleton, runSteps_onePulse hf hexit1 (ha 0 (by simp)) hf, ← hp]
    rfl

/-- What SHIFT comes to EXIT1 with, of a leg of kind `k` with payload `p` that started in SELECT in state
`s`. -/
def atExit1 (k : Kind) (p : Bits) (s : State) : State :=
  { afterPulses (shiftDrives (legBits k p)) (atShift s) with
    tap := TapState.exit1.code, cur := none, acc := keptSamples k s 0 p.length }

/-- What SHIFT keeps of `n + 1` pulses. -/
theorem keptSamples_atShift (k : Kind) (s : State) (n : Nat) :
    (if decide (k ≠ .drConfig) then ((List.range (n + 1)).map (tdoAt (atShift s))).reverse
      else [tdoAt (atShift s) n]) = keptSamples k s 0 (n + 1) := by
  have hu : ∀ j, tdoAt (atShift s) j = tdoAt s (2 + j) :=
    tdoAt_afterPulses [(false, false), (false, false)] s
  by_cases hk : k = .drConfig <;> simp [keptSamples, shiftSamples, hk, hu]

/-- The steps of SHIFT, one a bit. -/
theorem runSteps_atShift {i : Instr} {s : State} (hs : i.kind.isShift = true) (hne : i.payload ≠ [])
    (hf : s.fault = none) (hc : s.cur = some i) (ha : accessesSucceed i.payload.length (atShift s) = true)
    (m : Nat) :
    runSteps (m + i.payload.length) (atShift s) = runSteps m (atExit1 i.kind i.payload s) := by
  obtain ⟨r, hr⟩ := (kindRow_isShift _).1 hs
  obtain ⟨hfinal, hnonFinal, horder, -⟩ := kindRow_facts hr
  obtain ⟨n, hn⟩ : ∃ n, i.payload.length = n + 1 := Nat.exists_eq_succ_of_ne_zero (by simpa using hne)
  rw [hn] at ha ⊢
  rw [Nat.add_comm m, runSteps_shift n m (atShift s) i r hf rfl hc hr hn ha hfinal, horder, hnonFinal,
    keptSamples_atShift, atExit1, hn]
  simp only [atShift, List.append_nil]

/-- What a leg of kind `k` with payload `p` that starts in SELECT in state `s` comes to UPDATE with: its
pulses made, its capture in the accumulator, no leg pending and no pause requested. -/
def atUpdate (k : Kind) (p : Bits) (s : State) : State :=
  { afterPulses (bodyDrives k p) s with
    tap := TapState.update.code, cur := none, acc := keptSamples k s 0 p.length, pause := false }

theorem bodyDrives_length (k : Kind) (p : Bits) :
    (bodyDrives k p).length = 2 + p.length + (exitDrives k).length := by
  simp only [bodyDrives, List.length_append, shiftDrives_length, legBits_length, List.length_cons,
    List.length_nil]

/-- From SELECT a leg makes its pulses up to UPDATE, one step each. -/
theorem runSteps_body {i : Instr} {s : State} (hs : i.kind.isShift = true) (hne : i.payload ≠ [])
    (hf : s.fault = none) (ht : s.tap = TapState.select.code) (hc : s.cur = some i)
    (hp : s.pause = decide (i.kind = .irPause))
    (ha : accessesSucceed (bodyDrives i.kind i.payload).length s = true) (m : Nat) :
    runSteps (m + (bodyDrives i.kind i.payload).length) s = runSteps m (atUpdate i.kind i.payload s) := by
  rw [bodyDrives_length] at ha ⊢
  have hshift : accessesSucceed (i.payload.length + (exitDrives i.kind).length) (atShift s) = true :=
    accessesSucceed_after ha [(false, false), (false, false)] (by simp; omega)
  have hexit : accessesSucceed (exitDrives i.kind).length (atExit1 i.kind i.payload s) = true :=
    accessesSucceed_after hshift (shiftDrives (legBits i.kind i.payload))
      (by rw [shiftDrives_length, legBits_length])
  rw [show m + (2 + i.payload.length + (exitDrives i.kind).length) =
      m + (exitDrives i.kind).length + i.payload.length + 2 by omega,
    runSteps_select hf ht (accessesSucceed_mono ha (by omega)),
    runSteps_atShift hs hne hf hc (accessesSucceed_mono hshift (by omega)),
    runSteps_exit1 (s := atExit1 i.kind i.payload s) hf rfl hp hexit, atUpdate, bodyDrives,
    afterPulses_append, afterPulses_append]
  rfl

/-! ### UPDATE -/

/-- UPDATE ends the run, when the Result Store has room and its accesses succeed. -/
theorem runSteps_update {s : State} (hf : s.fault = none) (ht : s.tap = TapState.update.code)
    (hr : resultsFull s = false) (ha : accessesSucceed (leaveDrives s).length s = true) (n : Nat) :
    runSteps (n + 1) s = leftUpdate (retire s) := by
  obtain ⟨hd, hsame⟩ : leaveDrives (retire s) = leaveDrives s ∧
      ∀ k, failsAt (retire s) k = failsAt s k := by
    rw [retire_eq]
    exact ⟨rfl, fun _ => rfl⟩
  refine runSteps_complete hf ((stepBranch_at ht).trans ?_)
  simp only [stepUpdate, hr, Bool.false_eq_true, if_false]
  rcases leaveUpdate_cases (retire s) with ⟨-, e⟩ | ⟨k, hk, -, hfail, -⟩
  · exact e
  · rw [hsame, (accessesSucceed_iff _ _).1 ha k (hd ▸ hk)] at hfail
    cases hfail

/-- A leg with a bit to shift keeps a sample. -/
theorem keptSamples_ne_nil (k : Kind) (s : State) (e : Nat) {p : Bits} (hne : p ≠ []) :
    keptSamples k s e p.length ≠ [] := by
  unfold keptSamples
  split <;> simp [shiftSamples, hne]

/-- What UPDATE captures of samples that are not none. -/
theorem captured_of_ne_nil {s : State} (h : s.acc ≠ []) : captured s = val s.acc := by
  unfold captured
  split
  · contradiction
  · next b r e => rw [e]

/-- UPDATE leaves what the closed form says. -/
theorem leftUpdate_retire_atUpdate {k : Kind} {p : Bits} {s : State} (hne : p ≠ [])
    (hb : s.readback = k.isReadback) : leftUpdate (retire (atUpdate k p s)) = legEnd k p [] s := by
  have hv : captured (atUpdate k p s) = val (keptSamples k s 0 p.length) :=
    captured_of_ne_nil (keptSamples_ne_nil k s 0 hne)
  have hb' : (atUpdate k p s).readback = k.isReadback := hb
  obtain ⟨hhead, hpause⟩ : headShortcut (retire (atUpdate k p s)) = headShortcut s ∧
      (retire (atUpdate k p s)).pause = false := by
    rw [retire_eq]
    exact ⟨rfl, rfl⟩
  cases hh : headShortcut s <;>
  · simp only [leftUpdate, legEnd, legDrives, leaveDrives, hhead, hh, hpause, Bool.or_false, List.nil_append,
      afterPulses_append]
    rw [retire_eq, hv, hb']
    rfl

/-! ### Whole legs -/

/-- A leg in SELECT with the flags of its kind ends in its closed form, in every run of enough steps. -/
theorem runSteps_of_select {i : Instr} {s : State} (hs : i.kind.isShift = true) (hne : i.payload ≠ [])
    (hf : s.fault = none) (ht : s.tap = TapState.select.code) (hc : s.cur = some i)
    (hp : s.pause = decide (i.kind = .irPause)) (hb : s.readback = i.kind.isReadback)
    (hr : resultsFull s = false)
    (ha : accessesSucceed (legDrives i.kind i.payload [] s).length s = true) {n : Nat}
    (hn : (bodyDrives i.kind i.payload).length < n) :
    runSteps n s = legEnd i.kind i.payload [] s := by
  have hlen : (legDrives i.kind i.payload [] s).length =
      (bodyDrives i.kind i.payload).length + (leaveDrives s).length := List.length_append ..
  obtain ⟨m, rfl⟩ : ∃ m, n = m + 1 + (bodyDrives i.kind i.payload).length :=
    ⟨n - 1 - (bodyDrives i.kind i.payload).length, by omega⟩
  have hupdate : accessesSucceed (leaveDrives s).length (atUpdate i.kind i.payload s) = true :=
    accessesSucceed_after ha (bodyDrives i.kind i.payload) hlen.ge
  rw [runSteps_body hs hne hf ht hc hp (accessesSucceed_mono ha (by omega)),
    runSteps_update (s := atUpdate i.kind i.payload s) hf rfl hr hupdate,
    leftUpdate_retire_atUpdate hne hb]

/-- What leg `i` comes to SELECT with from IDLE in state `s`: its entry pulses made, the flags of its kind
set. -/
def entered (i : Instr) (s : State) : State :=
  { afterPulses (entryDrives i.kind) s with
    tap := TapState.select.code, cur := some i, pause := decide (i.kind = .irPause),
    readback := i.kind.isReadback }

/-- IDLE makes the entry pulses in one step. -/
theorem runSteps_of_idle {i : Instr} {s : State} (hs : i.kind.isShift = true) (hf : s.fault = none)
    (ht : s.tap = TapState.idle.code) (hc : s.cur = some i) (hp : s.pause = false) (hb : s.readback = false)
    (ha : accessesSucceed (entryDrives i.kind).length s = true) (n : Nat) :
    runSteps (n + 1) s = runSteps n (entered i s) := by
  obtain ⟨r, hr⟩ := (kindRow_isShift _).1 hs
  obtain ⟨-, -, -, hentry, hpause, hreadback⟩ := kindRow_facts hr
  have hlen : (entryDrives i.kind).length = r.entryPulses := by rw [← hentry, List.length_replicate]
  have hidle : stepBranch s = enterFromIdle r s := by
    rw [stepBranch_at ht]
    simp only [stepIdle, hc, hr]
  rw [runSteps_more hf (hidle.trans (enterFromIdle_done (hlen ▸ ha))) (by exact hf), hentry]
  simp only [flagsOnIdleEntry, goTo, entered, afterPulses_pause, afterPulses_readback, afterPulses_cur, hp, hb,
    hpause, hreadback, hc]

/-- The closed form of a leg from IDLE is that from SELECT, once the leg is entered. -/
theorem legEnd_entered (i : Instr) (s : State) :
    legEnd i.kind i.payload [] (entered i s) = legEnd i.kind i.payload (entryDrives i.kind) s := by
  have hkept : keptSamples i.kind (entered i s) 0 i.payload.length =
      keptSamples i.kind s (entryDrives i.kind).length i.payload.length := by
    have hu : ∀ j, tdoAt (entered i s) j = tdoAt s ((entryDrives i.kind).length + j) :=
      tdoAt_afterPulses (entryDrives i.kind) s
    simp [keptSamples, shiftSamples, hu, Nat.add_assoc]
  have hh : headShortcut (entered i s) = headShortcut s := rfl
  have hd : leaveDrives (entered i s) = leaveDrives s := rfl
  simp only [legEnd, legDrives, hh, hd, hkept, List.length_nil, List.nil_append,
    List.append_assoc (entryDrives _), afterPulses_append (entryDrives _)]
  cases headShortcut s <;> rfl

theorem exitDrives_length_le (k : Kind) : (exitDrives k).length ≤ 3 := by
  unfold exitDrives
  split <;> simp

/-- A shift leg from IDLE with the flags 0 ends in its closed form, if the Result Store has room and its
accesses succeed. -/
theorem exec_of_idle {i : Instr} {s : State} (hs : i.kind.isShift = true) (hne : i.payload ≠ [])
    (hf : s.fault = none) (ht : s.tap = TapState.idle.code) (hp : s.pause = false) (hb : s.readback = false)
    (hr : resultsFull s = false)
    (ha : accessesSucceed (legDrives i.kind i.payload (entryDrives i.kind) s).length s = true) :
    exec i s = .next (legEnd i.kind i.payload (entryDrives i.kind) s) := by
  have hlen : (legDrives i.kind i.payload (entryDrives i.kind) s).length =
      (entryDrives i.kind).length + (legDrives i.kind i.payload [] (entered i s)).length := by
    simp only [legDrives, List.nil_append, List.append_assoc, List.length_append]
    rfl
  have hentry : accessesSucceed (entryDrives i.kind).length { s with cur := some i } = true :=
    accessesSucceed_mono (s := s) ha (by omega)
  have hleg : accessesSucceed (legDrives i.kind i.payload [] (entered i s)).length (entered i s) = true :=
    accessesSucceed_after ha (entryDrives i.kind) hlen.ge
  have hfuel : (bodyDrives i.kind i.payload).length < i.payload.length + 7 := by
    have := exitDrives_length_le i.kind
    rw [bodyDrives_length]
    omega
  rw [exec_eq_runLeg, runLeg_live hf, legFuel,
    runSteps_of_idle (s := { s with cur := some i }) hs hf ht rfl hp hb hentry, ← legEnd_entered]
  exact congrArg _ (runSteps_of_select (s := entered i s) hs hne hf rfl rfl rfl rfl hr hleg hfuel)

/-! ### What a leg captures -/

@[simp] theorem legEnd_results (k : Kind) (p : Bits) (pre : List Drive) (s : State) :
    (legEnd k p pre s).results = s.results ++ [val (keptSamples k s pre.length p.length)] := by
  unfold legEnd
  cases headShortcut s <;> rfl

@[simp] theorem legEnd_lastReadout (k : Kind) (p : Bits) (pre : List Drive) (s : State) :
    (legEnd k p pre s).lastReadout =
      if k.isReadback then some (val (keptSamples k s pre.length p.length)) else s.lastReadout := by
  unfold legEnd
  cases headShortcut s <;> rfl

/-- Under the echo stimulus the capture is the payload in reversed shift order: the payload itself of a leg
shifted tail first, its reversal of one shifted head first. -/
theorem keptSamples_echo {k : Kind} {p : Bits} {s : State} {e : Nat} (hk : k ≠ .drConfig)
    (hecho : shiftSamples s e p.length = legBits k p) :
    keptSamples k s e p.length = if k = .drConfigReadback then p.reverse else p := by
  by_cases hcr : k = .drConfigReadback <;> simp [keptSamples, legBits, isConfig, hecho, hk, hcr]

/-- Settles O36, from the closed form of a leg. -/
theorem echoCapturesPayload : Obligations.EchoCapturesPayload := by
  intro i s hs hk hne hf ht hp hb hr ha hecho v
  have hv : val (keptSamples i.kind s (entryDrives i.kind).length i.payload.length) = v := by
    rw [keptSamples_echo hk hecho]
    exact apply_ite val _ _ _
  exact ⟨_, exec_of_idle hs hne hf ht hp hb hr ha, by rw [legEnd_results, hv],
    by rw [legEnd_lastReadout, hv]⟩

end Sys2Proof.Machine
end

section
/-! Leg descriptors (30_encoding.md R71 to R75): what the decoder reads, that it reads back what the encoder
writes, and ENQUEUE of a descriptor (45_sequencer.md R201). -/

namespace Sys2Proof

/-! ### The decoder -/

@[simp] theorem length_unpack (len : Nat) (words : Nat → Word) : (unpack len words).length = len := by
  simp [unpack]

theorem getElem?_unpack {len j : Nat} (words : Nat → Word) (hj : j < len) :
    (unpack len words)[j]? = some (payloadBit words j) := by
  simp [unpack, hj]

/-- The payload word of a payload bit is one of the descriptor's. -/
theorem div_lt_payloadWords {j len : Nat} (hj : j < len) : j / 32 < payloadWords len := by
  unfold payloadWords
  omega

/-- What the decoder reads: the header's kind and length, and the payload words the length calls for, which
must be there; it gives back the words after them. -/
theorem decode_cons_eq_ok_iff {h : Word} {ws rest : List Word} {i : Instr} :
    decode (h :: ws) = .ok (i, rest) ↔
      Kind.ofCode (headerKind h) = some i.kind ∧ payloadWords (headerLen h) ≤ ws.length ∧
        i.payload = unpack (headerLen h) (fun j => ws.getD j 0#32) ∧
        ws.drop (payloadWords (headerLen h)) = rest := by
  cases hk : Kind.ofCode (headerKind h) with
  | none => simp [decode, decodeFrom, hk]
  | some k =>
    by_cases hw : ws.length < payloadWords (headerLen h)
    · simp [decode, decodeFrom, hk, hw]
    · simp only [decode, decodeFrom, hk, hw, if_false, Except.ok.injEq, Prod.mk.injEq, Option.some.injEq]
      constructor
      · rintro ⟨rfl, hrest⟩
        exact ⟨by simp, by omega, by simp, hrest⟩
      · rintro ⟨rfl, -, hp, hrest⟩
        exact ⟨by rw [← hp, Instr.ofKind_kind_payload], hrest⟩

/-- Settles O2: the payload words are those the decoder takes off. -/
theorem decodedLegKeepsEveryBit : Obligations.DecodedLegKeepsEveryBit := by
  intro words rest i hd
  cases words with
  | nil => cases hd
  | cons h ws =>
    obtain ⟨hkind, hwords, hpayload, rfl⟩ := decode_cons_eq_ok_iff.1 hd
    have hlen : i.payload.length = headerLen h := by rw [hpayload, length_unpack]
    refine ⟨h, ws.take (payloadWords (headerLen h)), by rw [List.take_append_drop],
      Kind.code_of_ofCode hkind, hlen.symm, ?_, fun j hj => ?_⟩
    · rw [List.length_take_of_le hwords, hlen, payloadWords]
    · have hw := div_lt_payloadWords (hlen ▸ hj)
      have hin : j / 32 < ws.length := hw.trans_le hwords
      refine ⟨ws[j / 32], by rw [List.getElem?_take_of_lt hw, List.getElem?_eq_getElem hin], ?_⟩
      rw [hpayload, getElem?_unpack _ (hlen ▸ hj), payloadBit, List.getD_eq_getElem _ _ hin]

/-! ### The encoder and back -/

/-- The bits of the payload's own words are the payload. -/
theorem unpack_packWord {p : Bits} {words : Nat → Word}
    (hw : ∀ j < payloadWords p.length, words j = packWord p j) : unpack p.length words = p := by
  refine List.ext_getElem (length_unpack _ _) fun j _ hj => ?_
  have hbit : (packWord p (j / 32)).getLsbD (31 - j % 32) = p[j] := by
    rw [packWord_bit _ _ _ (Nat.mod_lt _ (by decide)), Nat.div_add_mod, List.getD_eq_getElem _ _ hj]
  simp [unpack, payloadBit, hw _ (div_lt_payloadWords hj), hbit]

/-- The words of a descriptor, whatever follows them. -/
theorem getD_packedWords (p : Bits) (n : Nat) (ws : List Word) {j : Nat} (hj : j < n) :
    ((List.range n).map (packWord p) ++ ws).getD j 0#32 = packWord p j := by
  rw [List.getD_append _ _ _ _ (by simpa using hj), List.getD_eq_getElem _ _ (by simpa using hj)]
  simp

/-- Decoding reads an encoded leg back and leaves the words after it. -/
theorem decode_encode_append {i : Instr} (hi : i.payload.length < 2 ^ 28) (ws : List Word) :
    decode (encode i ++ ws) = .ok (i, ws) := by
  have hlen := headerLen_encodeHeader i hi
  rw [encode, List.cons_append, decode_cons_eq_ok_iff, hlen, headerKind_encodeHeader i hi, Kind.ofCode_code]
  refine ⟨rfl, by simp, (unpack_packWord fun j hj => getD_packedWords _ _ _ hj).symm, ?_⟩
  exact List.drop_left' (by simp)

/-- Settles O1: the header's fields are the leg's kind and length, and the payload words carry its bits. -/
theorem decodeOfEncode : Obligations.DecodeOfEncode := fun _ ws hi => decode_encode_append hi ws

/-- Settles O3: closed computations of the decoder and the encoder. -/
theorem workedEncodings : Obligations.WorkedEncodings :=
  ⟨by decide, by decide, by decide, by decide, by decide, by decide⟩

end Sys2Proof

namespace Sys2Proof.Machine

/-! ### ENQUEUE of a descriptor -/

/-- A host action during an ADVANCE is refused (45_sequencer.md R209). -/
theorem hostAction_busy {s : State} (hc : s.call.isSome = true) (a : HostAction) :
    hostAction a s = .next (refuse .busy s) := if_pos hc

theorem hostAction_enqueueLeg {s : State} (hc : s.call = none) (i : Instr) :
    hostAction (.enqueueLeg i) s = .next (enqueueLeg i s) := by
  simp [hostAction, hc]

theorem hostAction_enqueue {s : State} (hc : s.call = none) (h : Word) (ws : List Word) :
    hostAction (.enqueue h ws) s = enqueueDescriptor h ws s := by
  simp [hostAction, hc]

/-- Words that are exactly one descriptor go through the checks of the leg they decode to. -/
theorem enqueueDescriptor_of_decode {h : Word} {ws : List Word} {i : Instr}
    (hd : decode (h :: ws) = .ok (i, [])) (s : State) :
    enqueueDescriptor h ws s = .next (enqueueLeg i s) := by
  obtain ⟨hkind, hlen⟩ := kind_length_of_decode hd
  unfold enqueueDescriptor enqueueLeg
  rw [hkind, hlen, hd]
  by_cases hf : s.fault.isSome = true
  · simp [hf]
  · cases hcheck : enqueueCheck s.params i.kind (headerLen h) <;> simp [hf, hcheck]

/-- Words that pass the header's checks and are not exactly one descriptor have no meaning. -/
theorem enqueueDescriptor_malformed {h : Word} {ws : List Word} {s : State} {k : Kind}
    (hf : s.fault = none) (hk : Kind.ofCode (headerKind h) = some k)
    (hcheck : enqueueCheck s.params k (headerLen h) = none)
    (hd : ∀ i, decode (h :: ws) ≠ .ok (i, [])) :
    enqueueDescriptor h ws s = .refused .malformedDescriptor := by
  unfold enqueueDescriptor
  rw [hf, hk]
  simp only [Option.isSome_none, Bool.false_eq_true, if_false, hcheck]
  split
  · next i heq => exact absurd heq (hd i)
  · rfl
  · rfl

/-- Settles O39: the descriptor decodes to the leg, and ENQUEUE checks the two alike. -/
theorem enqueueLegAgreesWithDescriptor : Obligations.EnqueueLegAgreesWithDescriptor := by
  intro i h ws s hi he
  cases hc : s.call with
  | some n => rw [hostAction_busy (by simp [hc]), hostAction_busy (by simp [hc])]
  | none =>
    have hd : decode (h :: ws) = .ok (i, []) := by
      rw [← he]
      simpa using decode_encode_append hi []
    rw [hostAction_enqueue hc, hostAction_enqueueLeg hc, enqueueDescriptor_of_decode hd]

/-- Settles O40: a descriptor with no word after it has as many payload words as its length calls for. -/
theorem malformedDescriptorHasNoMeaning : Obligations.MalformedDescriptorHasNoMeaning := by
  intro h ws s k hc hf hk hcheck hlen
  rw [hostAction_enqueue hc]
  refine enqueueDescriptor_malformed hf hk hcheck fun i hd => hlen ?_
  obtain ⟨-, hwords, -, hrest⟩ := decode_cons_eq_ok_iff.1 hd
  exact le_antisymm (List.drop_eq_nil_iff.1 hrest) hwords

/-! ### An opcode table word -/

/-- A leg run in a session without a fault has a next state: where its run of steps ends. -/
theorem exec_live {i : Instr} {s : State} (hf : s.fault = none) :
    exec i s = .next (runSteps (legFuel i) { s with cur := some i }) := by
  rw [exec_eq_runLeg, runLeg_live hf]

/-- The leg that is placed is the one the engine takes next. -/
theorem fetch_placeLeg (i : Instr) (s : State) :
    fetch (placeLeg i s) = some (i, qPop (placeLeg i s)) := rfl

/-- Settles O46: the engine fetches the placed leg at the queue head, and no fault is set. -/
theorem placedWordRuns : Obligations.PlacedWordRuns := by
  intro s nbits w i hi
  refine ⟨_, exec_live rfl, ?_⟩
  rw [State.withFetchWord, hi]
  exact engineTurn_leg rfl (fetch_placeLeg i s) (exec_live rfl)

end Sys2Proof.Machine
end

section
/-! The bit-vector codec (40_codec.md): which arguments its two functions admit, and what their results
are, bit by bit. -/

namespace Sys2Proof.Machine

/-! ### `to_fixed_width_bits` -/

theorem toFixedWidthBits_eq_ok_iff {v w : Nat} {s : Bits} :
    toFixedWidthBits v w = .ok s ↔ v < 2 ^ w ∧ fixedBits w v [] = s := by
  by_cases hv : v < 2 ^ w <;> simp [toFixedWidthBits, hv]

theorem toFixedWidthBits_eq_error_iff {v w : Nat} {e : ErrorCode} :
    toFixedWidthBits v w = .error e ↔ 2 ^ w ≤ v ∧ e = .codecRange := by
  by_cases hv : v < 2 ^ w
  · simp [toFixedWidthBits, hv, hv.not_ge]
  · simp [toFixedWidthBits, hv, not_lt.1 hv, eq_comm]

/-- Settles O4: the loop makes `w` bits that stand for `v` reduced to the width, and `v` fits. -/
theorem fixedWidthRoundTrip : Obligations.FixedWidthRoundTrip := by
  intro v w hv
  refine ⟨fixedBits w v [], toFixedWidthBits_eq_ok_iff.2 ⟨hv, rfl⟩, fixedBits_length w v, ?_⟩
  rw [val_fixedBits, Nat.mod_eq_of_lt hv]

/-- Settles O5: what is not refused is what the loop of R100 makes. -/
theorem fixedWidthBitPlaces : Obligations.FixedWidthBitPlaces := by
  intro v w s hs
  obtain ⟨-, rfl⟩ := toFixedWidthBits_eq_ok_iff.1 hs
  exact ⟨fixedBits_length w v, fixedBits_get w v⟩

/-- Settles O6: a value that does not fit is the one thing refused. -/
theorem fixedWidthRefusesWideValues : Obligations.FixedWidthRefusesWideValues :=
  fun _ _ hv => toFixedWidthBits_eq_error_iff.2 ⟨hv, rfl⟩

/-! ### What `reverse_bit_order` admits -/

/-- An admitted chunk width is a positive whole number of bytes (40_codec.md R104). -/
theorem exists_bytes_of_chunkAdmitted {B : List Byte} {c : Int} (h : chunkAdmitted B c = true) :
    ∃ m : Nat, 0 < m ∧ c = (8 * m : Nat) := by
  simp only [chunkAdmitted, Bool.and_eq_true, decide_eq_true_eq] at h
  obtain ⟨⟨hpos, hbytes⟩, -⟩ := h
  exact ⟨(c / 8).toNat, by omega, by omega⟩

/-- A chunk width of `m` bytes is admitted when `m` divides the block's length (40_codec.md R104). -/
theorem chunkAdmitted_bytes_iff {B : List Byte} {m : Nat} (hm : 0 < m) :
    chunkAdmitted B (8 * m : Nat) = true ↔ B.length % m = 0 := by
  have hc : (((8 * m : Nat) : Int) / 8).toNat = m := by omega
  simp only [chunkAdmitted, Bool.and_eq_true, decide_eq_true_eq, hc]
  omega

/-- Chunk width 0 is the identity (40_codec.md R103). -/
@[simp] theorem reverseBitOrder_zero (B : List Byte) : reverseBitOrder B 0 = .ok B := rfl

/-- A chunk width of `m` bytes reverses the chunks of `m` bytes, where it is admitted. -/
theorem reverseBitOrder_bytes_eq_ok_iff {B B' : List Byte} {m : Nat} (hm : 0 < m) :
    reverseBitOrder B (8 * m : Nat) = .ok B' ↔ B.length % m = 0 ∧ reverseChunks B m = B' := by
  have hne : ((8 * m : Nat) : Int) ≠ 0 := by omega
  have hc : (((8 * m : Nat) : Int) / 8).toNat = m := by omega
  simp only [reverseBitOrder, if_neg hne, hc, chunkAdmitted_bytes_iff hm]
  by_cases hlen : B.length % m = 0 <;> simp [hlen]

theorem reverseBitOrder_eq_error_iff {B : List Byte} {c : Int} :
    reverseBitOrder B c = .error .codecChunk ↔ c ≠ 0 ∧ chunkAdmitted B c = false := by
  unfold reverseBitOrder
  by_cases hc : c = 0
  · simp [hc]
  · cases h : chunkAdmitted B c <;> simp [hc]

/-- What is not refused is the block itself, for chunk width 0, or its chunks reversed. -/
theorem reverseBitOrder_ok_cases {B B' : List Byte} {c : Int} (h : reverseBitOrder B c = .ok B') :
    (c = 0 ∧ B = B') ∨ ∃ m : Nat, 0 < m ∧ c = (8 * m : Nat) ∧ B.length % m = 0 ∧ reverseChunks B m = B' := by
  by_cases hc : c = 0
  · subst hc
    exact .inl ⟨rfl, by simpa using h⟩
  · cases hadm : chunkAdmitted B c with
    | false => simp [reverseBitOrder_eq_error_iff.2 ⟨hc, hadm⟩] at h
    | true =>
      obtain ⟨m, hm, rfl⟩ := exists_bytes_of_chunkAdmitted hadm
      exact .inr ⟨m, hm, rfl, (reverseBitOrder_bytes_eq_ok_iff hm).1 h⟩

/-- Settles O9: the refusals are the chunk widths other than 0 that break one of the conditions of R104. -/
theorem reverseBitOrderRefusals : Obligations.ReverseBitOrderRefusals := by
  intro B c
  refine ⟨reverseBitOrder_zero B, ?_⟩
  simp only [reverseBitOrder_eq_error_iff, chunkAdmitted, Bool.and_eq_false_iff, decide_eq_false_iff_not]
  omega

/-! ### Where the bytes and the bits go -/

/-- Byte `b` of a chunk goes, its bits reversed, to byte `m - 1 - b` (40_codec.md R103). -/
theorem reverseChunks_get_mirror (B : List Byte) {m q b : Nat} (hb : b < m) (hq : q < B.length / m) :
    (reverseChunks B m).getD (q * m + (m - 1 - b)) 0#8 = rev8 (B.getD (q * m + b) 0#8) := by
  rw [reverseChunks_get B m q (m - 1 - b) (by omega) hq, show m - 1 - (m - 1 - b) = b by omega]

/-- Reversing the chunks twice gives the block back (40_codec.md R106): `rev8` and `b ↦ m - 1 - b` are
involutions. -/
theorem reverseChunks_reverseChunks {B : List Byte} {m : Nat} (hm : 0 < m) (hlen : B.length % m = 0) :
    reverseChunks (reverseChunks B m) m = B := by
  have hlen₁ : (reverseChunks B m).length = B.length := reverseChunks_length B m hlen
  have hlen₂ : (reverseChunks (reverseChunks B m) m).length = B.length := by
    rw [reverseChunks_length _ m (by rw [hlen₁, hlen]), hlen₁]
  refine List.ext_getElem hlen₂ fun i h h' => ?_
  have hq : i / m < B.length / m := Nat.div_lt_div_of_lt_of_dvd (Nat.dvd_of_mod_eq_zero hlen) h'
  have hb : i % m < m := Nat.mod_lt i hm
  rw [← List.getD_eq_getElem _ 0#8 h, ← List.getD_eq_getElem _ 0#8 h', ← Nat.div_add_mod' i m]
  calc (reverseChunks (reverseChunks B m) m).getD (i / m * m + i % m) 0#8
      = rev8 ((reverseChunks B m).getD (i / m * m + (m - 1 - i % m)) 0#8) :=
        reverseChunks_get _ m _ _ hb (by rwa [hlen₁])
    _ = rev8 (rev8 (B.getD (i / m * m + i % m) 0#8)) := by rw [reverseChunks_get_mirror B hb hq]
    _ = B.getD (i / m * m + i % m) 0#8 := rev8_rev8 _

/-- Settles O7: the result has the block's length, so the same chunk width is admitted again. -/
theorem reverseBitOrderInvolution : Obligations.ReverseBitOrderInvolution := by
  intro B B' c h
  obtain ⟨rfl, rfl⟩ | ⟨m, hm, rfl, hlen, rfl⟩ := reverseBitOrder_ok_cases h
  · exact h
  · rw [reverseBitOrder_bytes_eq_ok_iff hm, reverseChunks_length B m hlen]
    exact ⟨hlen, reverseChunks_reverseChunks hm hlen⟩

/-- Settles O8, from where the byte goes and what `rev8` does to its bits. -/
theorem reverseBitOrderPlacesBits : Obligations.ReverseBitOrderPlacesBits := by
  intro B B' m q b k hm h hchunk hb hk
  obtain ⟨hlen, rfl⟩ := (reverseBitOrder_bytes_eq_ok_iff hm).1 h
  have hq : q < B.length / m := by
    rwa [← Nat.succ_le_iff, Nat.le_div_iff_mul_le hm, Nat.succ_mul]
  exact ⟨reverseChunks_length B m hlen, by rw [reverseChunks_get_mirror B hb hq, rev8_bit _ k hk]⟩

end Sys2Proof.Machine
end

section
/-! The line primitives (41_phy.md) and the host's PULSE_RESET: what each leaves when every access succeeds,
and where it stops when one fails. -/

namespace Sys2Proof.Machine

/-! ### One access -/

theorem pulse_done {s : State} (h : failsAt s 0 = false) (tdi tms : Bit) :
    pulse tdi tms s = .done (tdoAt s 0) (pulsed tdi tms s) := by
  simp [pulse, h]

theorem pulse_stopped {s : State} (h : failsAt s 0 = true) (tdi tms : Bit) :
    pulse tdi tms s = .stopped (failAccess s) := by
  simp [pulse, h]

/-- Settles O12, from the closed forms of a pulse and of a failed access. -/
theorem pulseDrivesAndSamples : Obligations.PulseDrivesAndSamples := by
  intro tdi tms s hf
  refine ⟨rfl, fun h => ?_, fun h => ⟨Config.linesAfterFailure s.ioDraws.taken, ?_⟩⟩
  · rw [pulse_done h, pulsed_eq]
  · rw [pulse_stopped h, failAccess_eq, hf, Option.getD_none]

theorem driveSrst_done {s : State} (h : failsAt s 0 = false) (v : Bit) :
    driveSrst v s = .done () (srstDriven v s) := by
  simp [driveSrst, h]

theorem driveSrst_stopped {s : State} (h : failsAt s 0 = true) (v : Bit) :
    driveSrst v s = .stopped (failAccess s) := by
  simp [driveSrst, h]

/-! ### `PulseReset()` -/

/-- SRST asserted and the wait over: where `PulseReset()` makes its second access (41_phy.md R127). -/
def srstHeld (s : State) : State := delaySettle (srstDriven false s)

theorem srstHeld_eq (s : State) :
    srstHeld s = { s with trace := s.trace ++ [.srst false, .delaySettle],
                          lines := { s.lines with srst := false }, ioDraws := s.ioDraws.skip 1 } := by
  simp [srstHeld, delaySettle, srstDriven, emit, drive, takeAccess]

/-- The wait is no access: the second access of `PulseReset()` is the release. -/
theorem failsAt_srstHeld (s : State) : failsAt (srstHeld s) 0 = failsAt s 1 := by
  simp [srstHeld, failsAt, Draws.peek_skip]

/-- Once SRST is asserted, `PulseReset()` is the release after the wait. -/
theorem pulseReset_asserted {s : State} (h : failsAt s 0 = false) :
    pulseReset s = driveSrst true (srstHeld s) := by
  rw [pulseReset, driveSrst_done h, Phy.andThen_done, srstHeld]

theorem pulseReset_done {s : State} (h : failsAt s 0 = false) (h1 : failsAt s 1 = false) :
    pulseReset s = .done () (srstDriven true (srstHeld s)) := by
  rw [pulseReset_asserted h, driveSrst_done ((failsAt_srstHeld s).trans h1)]

theorem pulseReset_stopped_assert {s : State} (h : failsAt s 0 = true) :
    pulseReset s = .stopped (failAccess s) := by
  rw [pulseReset, driveSrst_stopped h, Phy.andThen_stopped]

theorem pulseReset_stopped_release {s : State} (h : failsAt s 0 = false) (h1 : failsAt s 1 = true) :
    pulseReset s = .stopped (failAccess (srstHeld s)) := by
  rw [pulseReset_asserted h, driveSrst_stopped ((failsAt_srstHeld s).trans h1)]

/-! ### PULSE_RESET -/

/-- Between calls and without a fault, PULSE_RESET replies the fault register where `PulseReset()` ends. -/
theorem hostAction_pulseReset_of_done {s u : State} (hc : s.call = none) (hf : s.fault = none)
    (h : pulseReset s = .done () u) :
    hostAction .pulseReset s = .next (reply (.resetPulsed u.fault) u) := by
  simp [hostAction, hc, pulseResetOp, hf, h]

theorem hostAction_pulseReset_of_stopped {s u : State} (hc : s.call = none) (hf : s.fault = none)
    (h : pulseReset s = .stopped u) :
    hostAction .pulseReset s = .next (reply (.resetPulsed u.fault) u) := by
  simp [hostAction, hc, pulseResetOp, hf, h]

/-- Settles O13: assert, wait and release, each in closed form. -/
theorem pulseResetSequence : Obligations.PulseResetSequence := by
  intro s hc hf h h1
  rw [hostAction_pulseReset_of_done hc hf (pulseReset_done h h1), srstHeld_eq]
  simp [srstDriven, emit, drive, takeAccess, reply, hf]

/-- Settles O14: the first access fails where PULSE_RESET starts, the second where SRST is held low. -/
theorem pulseResetStopsAtFailedAccess : Obligations.PulseResetStopsAtFailedAccess := by
  intro s hc hf
  refine ⟨fun h => ⟨Config.linesAfterFailure s.ioDraws.taken, ?_⟩,
    fun h h1 => ⟨Config.linesAfterFailure (s.ioDraws.skip 1).taken, ?_⟩⟩
  · rw [hostAction_pulseReset_of_stopped hc hf (pulseReset_stopped_assert h), failAccess_eq, hf]
    rfl
  · rw [hostAction_pulseReset_of_stopped hc hf (pulseReset_stopped_release h h1), failAccess_eq, srstHeld_eq]
    simp [reply, hf]

end Sys2Proof.Machine
end

section
/-! The single `Step()` of 42_tap_step.md: each branch in closed form, the ways a step can end and the pulses
it makes (R155, R156); and the run of a leg, which ends within a bound from every TAP state (R154). -/

namespace Sys2Proof.Machine

/-! ### Branches of one pulse (R141, R144, R145, R147 to R149) -/

/-- A step is what its branch is known to end with. -/
theorem tapStep_of_done {s t : State} {c : Bool} (hf : s.fault = none) (h : stepBranch s = .done c t) :
    tapStep s = (t, c) := by
  rw [tapStep_live hf, h, Phy.finish_done]

/-- A step of one pulse that succeeds. -/
theorem tapStep_onePulse {b m c : Bit} {s : State} {f : State → State} (hf : s.fault = none)
    (h0 : failsAt s 0 = false) (hb : stepBranch s = (pulseW b m s).andThen fun _ u => .done c (f u)) :
    tapStep s = (f (afterPulses [(b, m)] s), c) := by
  rw [pulseW_done h0, Phy.andThen_done, pulsed_eq_afterPulses] at hb
  exact tapStep_of_done hf hb

/-- Settles O15: each of the five branches is one pulse and a move. -/
theorem onePulseSteps : Obligations.OnePulseSteps := by
  intro s hf h0
  refine ⟨fun ht => ?_, fun ht => ?_, fun ht => ?_, fun ht => ?_, fun ht => ?_⟩
  · exact tapStep_onePulse (f := goTo .idle) hf h0 (stepBranch_at ht)
  · exact tapStep_onePulse (f := goTo .capture) hf h0 (stepBranch_at ht)
  · exact tapStep_onePulse (f := fun u => goTo .shift { u with acc := [] }) hf h0 (stepBranch_at ht)
  · exact tapStep_onePulse (f := goTo .exit2) hf h0 (stepBranch_at ht)
  · exact tapStep_onePulse (f := goTo .update) hf h0 (stepBranch_at ht)

/-- The branch that EXIT1 takes is that of the pause flag. -/
theorem stepBranch_exit1 {s : State} (ht : s.tap = TapState.exit1.code) :
    stepBranch s = if s.pause then
        (pulseW false false s).andThen fun _ u => .done false (clearPause (goTo .pause u))
      else (pulseW false true s).andThen fun _ u => .done false (goTo .update u) :=
  stepBranch_at ht

/-- Settles O19: each branch of EXIT1 is one pulse and a move. -/
theorem exit1Branches : Obligations.Exit1Branches := by
  intro s hf ht h0
  refine ⟨fun hp => ?_, fun hp => ?_⟩
  · exact tapStep_onePulse (f := fun u => clearPause (goTo .pause u)) hf h0
      ((stepBranch_exit1 ht).trans (if_pos hp))
  · exact tapStep_onePulse (f := goTo .update) hf h0 ((stepBranch_exit1 ht).trans (by simp [hp]))

/-! ### IDLE (R142, R143, R153) -/

theorem stepBranch_idle_shift {s : State} {i : Instr} {r : ShiftRow} (ht : s.tap = TapState.idle.code)
    (hc : s.cur = some i) (hr : kindRow i.kind = .shift r) : stepBranch s = enterFromIdle r s := by
  rw [stepBranch_at ht]
  simp only [stepIdle, hc, hr]

theorem stepBranch_idle_control {s : State} {i : Instr} {c : ControlAction} (ht : s.tap = TapState.idle.code)
    (hc : s.cur = some i) (hr : kindRow i.kind = .control c) : stepBranch s = controlStep c s := by
  rw [stepBranch_at ht]
  simp only [stepIdle, hc, hr]

theorem stepBranch_idle_none {s : State} (ht : s.tap = TapState.idle.code) (hc : s.cur = none) :
    stepBranch s = idleNoLeg s := by
  rw [stepBranch_at ht]
  simp only [stepIdle, hc]

/-- The step that enters a shift leg from IDLE, when its pulses succeed. -/
theorem tapStep_enter {s : State} {i : Instr} {r : ShiftRow} (hf : s.fault = none)
    (ht : s.tap = TapState.idle.code) (hc : s.cur = some i) (hr : kindRow i.kind = .shift r)
    (ha : accessesSucceed r.entryPulses s = true) :
    tapStep s = (goTo .select (flagsOnIdleEntry r
      (afterPulses (List.replicate r.entryPulses (false, true)) s)), false) :=
  tapStep_of_done hf ((stepBranch_idle_shift ht hc hr).trans (enterFromIdle_done ha))

theorem isReadback_eq (k : Kind) :
    k.isReadback = decide (k = .drConfigReadback ∨ k = .drRecoveryReadback) := by
  cases k <;> rfl

/-- The row of a DR kind: one entry pulse, the readback flag written and the pause flag kept. -/
theorem kindRow_of_isDr {k : Kind} (h : k.isDr = true) : ∃ r, kindRow k = .shift r ∧ r.entryPulses = 1 ∧
    r.pauseOnEntry = none ∧ r.readbackOnEntry = some k.isReadback := by
  cases k <;> simp [Kind.isDr, Kind.isReadback, kindRow] at h ⊢

/-- The row of an IR kind: two entry pulses, the pause flag written and the readback flag kept. -/
theorem kindRow_of_ir {k : Kind} (h : k = .ir ∨ k = .irDirect ∨ k = .irPause) :
    ∃ r, kindRow k = .shift r ∧ r.entryPulses = 2 ∧ r.pauseOnEntry = some (decide (k = .irPause)) ∧
      r.readbackOnEntry = none := by
  rcases h with rfl | rfl | rfl <;> simp [kindRow]

/-- Settles O16, from the row of a DR kind. -/
theorem idleEntryOfDrKinds : Obligations.IdleEntryOfDrKinds := by
  intro s i hf ht hc hk ha
  obtain ⟨r, hr, hentry, hpause, hreadback⟩ := kindRow_of_isDr hk
  rw [tapStep_enter hf ht hc hr (hentry ▸ ha), hentry]
  simp only [flagsOnIdleEntry, hpause, hreadback, isReadback_eq]
  rfl

/-- Settles O17, from the row of an IR kind. -/
theorem idleEntryOfIrKinds : Obligations.IdleEntryOfIrKinds := by
  intro s i hf ht hc hk ha
  obtain ⟨r, hr, hentry, hpause, hreadback⟩ := kindRow_of_ir hk
  rw [tapStep_enter hf ht hc hr (hentry ▸ ha), hentry]
  simp only [flagsOnIdleEntry, hpause, hreadback]
  rfl

/-- Settles O18: with no leg pending IDLE pops a queued leg, or makes the pulse of the hold. -/
theorem idleWithoutLeg : Obligations.IdleWithoutLeg := by
  intro s hf ht hc
  have hb := stepBranch_idle_none ht hc
  refine ⟨fun i q hq => ?_, fun hq h0 => ?_⟩
  · rw [← qPop_cons hq]
    exact tapStep_of_done hf (by simp [hb, idleNoLeg, hq])
  · exact tapStep_onePulse (f := id) hf h0 (by simp [hb, idleNoLeg, hq])

/-! ### SHIFT (R146) -/

/-- The configuration kinds are those shifted head first. -/
theorem order_of_kindRow {k : Kind} {r : ShiftRow} (h : kindRow k = .shift r) :
    r.order = if isConfig k then .head else .tail := by
  cases k <;> simp [kindRow] at h <;> subst h <;> rfl

theorem takeBit_of_kindRow {k : Kind} {r : ShiftRow} {p rest : Bits} {b : Bit} (hr : kindRow k = .shift r)
    (hp : if isConfig k then p = b :: rest else p = rest ++ [b]) : takeBit r.order p = some (b, rest) := by
  rw [order_of_kindRow hr]
  cases hk : isConfig k <;> simp only [hk, Bool.false_eq_true, if_false, if_true] at hp ⊢ <;> rw [hp]
  · exact takeBit_tail b rest
  · exact takeBit_head b rest

/-- SHIFT with a bit to shift. -/
theorem stepBranch_shift {s : State} {i : Instr} {r : ShiftRow} {b : Bit} {rest : Bits}
    (ht : s.tap = TapState.shift.code) (hc : s.cur = some i) (hr : kindRow i.kind = .shift r)
    (hb : takeBit r.order i.payload = some (b, rest)) : stepBranch s = shiftBit r i b rest s :=
  (stepBranch_at ht).trans (stepShift_some hc hr hb)

/-- Settles O20: the bit is taken at the end that the kind's order names, and the payload's length says
whether it is the last. -/
theorem shiftStepMovesOneBit : Obligations.ShiftStepMovesOneBit := by
  intro s i b rest hf ht hc hs h0 hp
  obtain ⟨r, hr⟩ := (kindRow_isShift _).1 hs
  obtain ⟨hfinal, hnonFinal, -⟩ := kindRow_facts hr
  have htake := takeBit_of_kindRow hr hp
  have hlen : i.payload.length = rest.length + 1 := (takeBit_spec htake).2
  have hb := stepBranch_shift ht hc hr htake
  refine ⟨fun hrest => ?_, fun hrest => ?_⟩
  · have hmore : i.payload.length ≠ 1 := by simpa [hlen] using hrest
    rw [tapStep_of_done hf (hb.trans (shiftBit_more h0 hmore)), pulsed_eq_afterPulses, hnonFinal]
    by_cases hk : i.kind = .drConfig <;> simp [keepSample, hk, Instr.withPayload]
  · have hlast : i.payload.length = 1 := by simp [hlen, hrest]
    rw [tapStep_of_done hf (hb.trans (shiftBit_last h0 hlast)), pulsed_eq_afterPulses, hfinal]
    rfl

/-! ### UPDATE (R150, R151) -/

/-! Retiring the capture leaves the fault register, the trace and the draws, and what decides how UPDATE is
left. -/

@[simp] theorem retire_fault (s : State) : (retire s).fault = s.fault := by rw [retire_eq]

@[simp] theorem retire_trace (s : State) : (retire s).trace = s.trace := by rw [retire_eq]

@[simp] theorem failsAt_retire (s : State) (k : Nat) : failsAt (retire s) k = failsAt s k :=
  failsAt_congr (by rw [retire_eq]) k

@[simp] theorem headShortcut_retire (s : State) : headShortcut (retire s) = headShortcut s := by
  rw [retire_eq]; rfl

@[simp] theorem leaveDrives_retire (s : State) : leaveDrives (retire s) = leaveDrives s := by
  simp only [leaveDrives, headShortcut_retire]

/-- UPDATE with room in the Result Store: complete, or stopped at an access that fails. -/
theorem stepUpdate_cases {s : State} (hr : resultsFull s = false) :
    stepUpdate s = .done true (leftUpdate (retire s)) ∨
      ∃ k < (leaveDrives s).length, failsAt s k = true ∧
        stepUpdate s = .stopped (failAccess (leavingUpdate (retire s) k)) := by
  have hu : stepUpdate s = leaveUpdate (retire s) := by simp [stepUpdate, hr]
  rw [hu]
  rcases leaveUpdate_cases (retire s) with ⟨-, e⟩ | ⟨k, hk, -, hfail, e⟩
  · exact .inl e
  · exact .inr ⟨k, by simpa using hk, by simpa using hfail, e⟩

theorem stepUpdate_done {s : State} (hr : resultsFull s = false)
    (ha : accessesSucceed (leaveDrives s).length s = true) :
    stepUpdate s = .done true (leftUpdate (retire s)) := by
  rcases stepUpdate_cases hr with e | ⟨k, hk, hfail, -⟩
  · exact e
  · simp [(accessesSucceed_iff _ _).1 ha k hk] at hfail

/-- Settles O21: the capture is retired, and the head of the queue says how UPDATE is left. -/
theorem updateStepRetiresAndLeaves : Obligations.UpdateStepRetiresAndLeaves := by
  intro s hf ht hne hr ha t
  have hb : tapStep s = (leftUpdate (retire s), true) :=
    tapStep_of_done hf ((stepBranch_at ht).trans (stepUpdate_done hr ha))
  rw [hb, leftUpdate, headShortcut_retire, retire_eq, captured_of_ne_nil hne]
  refine ⟨fun hh => ?_, fun j q hq hh => ?_, fun j q hq hh => ?_⟩
  · simp only [t, leaveDrives, hh]
    rfl
  · simp only [t, leaveDrives, hh, hq, ← isReadback_eq]
    rfl
  · have hpause : (if j.kind = .irPause then true else s.pause) = (decide (j.kind = .irPause) || s.pause) := by
      by_cases hk : j.kind = .irPause <;> simp [hk]
    simp only [t, leaveDrives, hh, hq, hpause]
    rfl

end Sys2Proof.Machine
end

section
/-! The ways a `Step()` can end and the pulses it makes (42_tap_step.md R155, R156). -/

namespace Sys2Proof.Machine

/-! ### The states of E_INTERNAL (R146, R156) -/

/-- `S.state` holds no TAP state, or SHIFT has no shift leg with a bit left. -/
def InternalState (s : State) : Prop :=
  9 ≤ s.tap.toNat ∨ (s.tap = TapState.shift.code ∧
    ∀ i, s.cur = some i → i.kind.isShift = false ∨ i.payload = [])

theorem TapState.ofCode_eq_none_iff (c : BitVec 4) : TapState.ofCode c = none ↔ 9 ≤ c.toNat := by
  revert c; decide

theorem stepShift_of_no_bit {s : State}
    (h : ∀ i, s.cur = some i → i.kind.isShift = false ∨ i.payload = []) :
    stepShift s = .stopped (raise .internal s) := by
  cases hc : s.cur with
  | none => simp [stepShift, hc]
  | some i =>
    rcases h i hc with hk | hp
    · obtain ⟨c, hr⟩ := (kindRow_isControl _).1 hk
      simp [stepShift, hc, hr]
    · cases hr : kindRow i.kind <;> simp [stepShift, hc, hr, hp, takeBit_nil]

theorem stepBranch_of_internal {s : State} (h : InternalState s) :
    stepBranch s = .stopped (raise .internal s) := by
  rcases h with hcode | ⟨ht, hbit⟩
  · simp [stepBranch, (TapState.ofCode_eq_none_iff _).2 hcode]
  · exact (stepBranch_at ht).trans (stepShift_of_no_bit hbit)

/-- Every other state of SHIFT has a bit to shift. -/
theorem exists_bit_of_not_internal {s : State} (ht : s.tap = TapState.shift.code) (h : ¬ InternalState s) :
    ∃ i r b rest, s.cur = some i ∧ kindRow i.kind = .shift r ∧
      takeBit r.order i.payload = some (b, rest) := by
  simp only [InternalState, ht, true_and, not_or, not_forall, Bool.not_eq_false] at h
  obtain ⟨-, i, hc, hs, hne⟩ := h
  obtain ⟨r, hr⟩ := (kindRow_isShift _).1 hs
  obtain ⟨b, rest, htake⟩ := takeBit_of_ne_nil r.order hne
  exact ⟨i, r, b, rest, hc, hr, htake⟩

/-! ### How a step ends -/

/-- How the branch of state `s` ends, `s` being without a fault: it comes through with the pulses of its row
of R155, or it is stopped by a failed access, by a full Result Store, or by one of the situations of R156. -/
inductive StepEnd (s : State) : Phy Bool → Prop
  | done {c : Bool} {t : State} (es : List LineEvent) (fault : t.fault = none)
      (trace : t.trace = s.trace ++ es) (pulses : pulseCount es = stepPulses s) : StepEnd s (.done c t)
  | ioError {t : State} (fault : t.fault = some .phyIo) : StepEnd s (.stopped t)
  | overflow : StepEnd s (.stopped (raise .resultOverflow s))
  | internal (h : InternalState s) : StepEnd s (.stopped (raise .internal s))

theorem failAccess_fault {s : State} (hf : s.fault = none) : (failAccess s).fault = some .phyIo := by
  rw [failAccess_eq, hf, Option.getD_none]

/-- The pulses of IDLE with a leg pending, by the row of its kind (30_encoding.md R74). -/
def idlePulses : KindRow → Nat
  | .shift r => r.entryPulses
  | .control .resetBurst => 12
  | .control .longDelay => 0
  | .control .idleClock => 1

theorem stepPulses_idle {s : State} {i : Instr} (ht : s.tap = TapState.idle.code) (hc : s.cur = some i) :
    stepPulses s = idlePulses (kindRow i.kind) := by
  cases hk : i.kind <;> simp [stepPulses, ht, hc, hk, kindRow, idlePulses]

/-- Leaving UPDATE makes the pulses of `leaveDrives`, and writes no fault. -/
theorem leftUpdate_fault_trace (s : State) : (leftUpdate s).fault = s.fault ∧
    (leftUpdate s).trace = s.trace ++ pulseEvents s (leaveDrives s) := by
  cases hh : headShortcut s <;> simp only [leftUpdate, leaveDrives, hh] <;> exact ⟨rfl, rfl⟩

theorem leavingUpdate_fault (s : State) (k : Nat) : (leavingUpdate s k).fault = s.fault := by
  unfold leavingUpdate
  split <;> rfl

section ends
variable {s : State} (hf : s.fault = none)
include hf

/-- A failed access after the pulses `ds`. -/
theorem StepEnd.failAccess (ds : List Drive) : StepEnd s (.stopped (failAccess (afterPulses ds s))) :=
  .ioError (failAccess_fault hf)

/-- A step that ends after the pulses `ds`, in a state that keeps their trace and the fault register. -/
theorem StepEnd.afterPulses {c : Bool} {t : State} (ds : List Drive)
    (fault : t.fault = (afterPulses ds s).fault) (trace : t.trace = (afterPulses ds s).trace)
    (pulses : ds.length = stepPulses s) : StepEnd s (.done c t) :=
  .done (pulseEvents s ds) (fault.trans hf) trace ((pulseCount_pulseEvents s ds).trans pulses)

theorem StepEnd.onePulse {b m c : Bit} {f : State → State} (fault : ∀ u, (f u).fault = u.fault)
    (trace : ∀ u, (f u).trace = u.trace) (pulses : 1 = stepPulses s) :
    StepEnd s ((pulseW b m s).andThen fun _ u => .done c (f u)) := by
  rcases onePulse_cases (b := b) (m := m) (s := s) (f := fun _ u => .done c (f u)) with ⟨-, e⟩ | ⟨-, e⟩ <;>
    rw [e]
  · exact .afterPulses hf [(b, m)] (fault _) (trace _) pulses
  · exact .ioError (failAccess_fault hf)

theorem stepEnd_enterFromIdle {r : ShiftRow} (pulses : r.entryPulses = stepPulses s) :
    StepEnd s (enterFromIdle r s) := by
  rcases enterFromIdle_cases r s with ⟨-, e⟩ | ⟨k, -, -, -, e⟩ <;> rw [e]
  · exact .afterPulses hf _ rfl rfl ((List.length_replicate ..).trans pulses)
  · exact .failAccess hf _

theorem stepEnd_controlStep {c : ControlAction} (pulses : idlePulses (.control c) = stepPulses s) :
    StepEnd s (controlStep c s) := by
  cases c with
  | resetBurst =>
    rw [controlStep]
    rcases resetBurst_cases s with ⟨-, e⟩ | ⟨k, -, -, -, e⟩ <;> rw [e]
    · exact .afterPulses hf (List.replicate 12 (false, true)) (qPop_fault _) (qPop_trace _) pulses
    · exact .failAccess hf _
  | longDelay => exact .done [.delayLong] (by simp [hf]) (by simp) pulses
  | idleClock => exact .onePulse hf qPop_fault qPop_trace pulses

theorem stepEnd_idle (ht : s.tap = TapState.idle.code) : StepEnd s (stepBranch s) := by
  cases hc : s.cur with
  | none =>
    rw [stepBranch_idle_none ht hc, idleNoLeg]
    cases hq : s.queue with
    | nil => exact .onePulse (f := id) hf (fun _ => rfl) (fun _ => rfl) (by simp [stepPulses, ht, hc, hq])
    | cons i q => exact .done [] (by simp [hf]) (by simp) (by simp [stepPulses, ht, hc, hq, pulseCount])
  | some i =>
    cases hr : kindRow i.kind with
    | shift r =>
      rw [stepBranch_idle_shift ht hc hr]
      exact stepEnd_enterFromIdle hf (by rw [stepPulses_idle ht hc, hr, idlePulses])
    | control c =>
      rw [stepBranch_idle_control ht hc hr]
      exact stepEnd_controlStep hf (by rw [stepPulses_idle ht hc, hr])

theorem stepEnd_shift (ht : s.tap = TapState.shift.code) : StepEnd s (stepBranch s) := by
  by_cases hi : InternalState s
  · rw [stepBranch_of_internal hi]
    exact .internal hi
  · obtain ⟨i, r, b, rest, hc, hr, htake⟩ := exists_bit_of_not_internal ht hi
    have pulses : 1 = stepPulses s := by simp [stepPulses, ht]
    rw [stepBranch_shift ht hc hr htake]
    rcases shiftBit_cases r i b rest s with ⟨-, e⟩ | ⟨-, e⟩ <;> rw [e]
    · split
      · exact .afterPulses hf [(b, true)] (by simp) (by simp) pulses
      · exact .afterPulses hf [(b, false)] (by simp) (by simp) pulses
    · exact .ioError (failAccess_fault hf)

theorem stepEnd_exit1 (ht : s.tap = TapState.exit1.code) : StepEnd s (stepBranch s) := by
  have pulses : 1 = stepPulses s := by simp [stepPulses, ht]
  rw [stepBranch_exit1 ht]
  split
  · exact .onePulse hf (fun _ => rfl) (fun _ => rfl) pulses
  · exact .onePulse hf (fun _ => rfl) (fun _ => rfl) pulses

theorem stepEnd_update (ht : s.tap = TapState.update.code) : StepEnd s (stepBranch s) := by
  have hfault : (retire s).fault = none := by simpa using hf
  rw [stepBranch_at ht]
  cases hr : resultsFull s with
  | true => simpa [stepUpdate, hr] using .overflow
  | false =>
    rcases stepUpdate_cases hr with e | ⟨k, -, -, e⟩ <;> simp only [e]
    · obtain ⟨hleft, htrace⟩ := leftUpdate_fault_trace (retire s)
      exact .done _ (hleft.trans hfault) (by simpa using htrace) (by simp [stepPulses, ht])
    · exact .ioError (failAccess_fault ((leavingUpdate_fault _ k).trans hfault))

/-- The ways a step ends, for every state. -/
theorem stepEnd_stepBranch : StepEnd s (stepBranch s) := by
  cases hcode : TapState.ofCode s.tap with
  | none =>
    have hi : InternalState s := .inl ((TapState.ofCode_eq_none_iff _).1 hcode)
    rw [stepBranch_of_internal hi]
    exact .internal hi
  | some t =>
    have ht := TapState.code_of_ofCode hcode
    cases t with
    | idle => exact stepEnd_idle hf ht
    | shift => exact stepEnd_shift hf ht
    | exit1 => exact stepEnd_exit1 hf ht
    | update => exact stepEnd_update hf ht
    | reset | select | capture | pause | exit2 =>
      rw [stepBranch_at ht]
      exact .onePulse hf (fun _ => rfl) (fun _ => rfl) (by simp [stepPulses, ht])

/-! ### What follows of a step's end -/

variable {x : Phy Bool} (h : StepEnd s x)
include h

/-- A step that does not fault comes through, with the pulses of its row. -/
theorem StepEnd.pulses_of_live (hlive : x.finish.1.fault = none) :
    ∃ es, x.finish.1.trace = s.trace ++ es ∧ pulseCount es = stepPulses s := by
  cases h with
  | done es _ trace pulses => exact ⟨es, trace, pulses⟩
  | ioError fault => simp [fault] at hlive
  | overflow => simp [hf] at hlive
  | internal => simp [hf] at hlive

/-- Of the ways a step can end only that of R156 raises E_INTERNAL. -/
theorem StepEnd.internalState (hfault : x.finish.1.fault = some .internal) : InternalState s := by
  cases h with
  | done _ fault => simp [fault] at hfault
  | ioError fault => simp [fault] at hfault
  | overflow => simp [hf] at hfault
  | internal hi => exact hi

omit hf in
/-- A step that returns the completion bit 1 does not fault. -/
theorem StepEnd.live_of_completes (hc : x.finish.2 = true) : x.finish.1.fault = none := by
  cases h with
  | done _ fault => exact fault
  | ioError => simp at hc
  | overflow => simp at hc
  | internal => simp at hc

end ends

/-- Settles O23: E_INTERNAL is how a step ends in the situations of R156, and only there. -/
theorem internalFaultsExactly : Obligations.InternalFaultsExactly := by
  intro s hf
  have hto : InternalState s → tapStep s = ({ s with fault := some .internal }, false) := fun hi => by
    rw [tapStep_live hf, stepBranch_of_internal hi, Phy.finish_stopped]
    simp only [raise, hf]
  have hfrom : (tapStep s).1.fault = some .internal → InternalState s := fun h =>
    (stepEnd_stepBranch hf).internalState hf (tapStep_live hf ▸ h)
  exact ⟨⟨hfrom, fun hi => by rw [hto hi]⟩, fun h => hto (hfrom h)⟩

/-- Settles O24: a step that does not fault has made the pulses of its row. -/
theorem pulsesPerStep : Obligations.PulsesPerStep := by
  intro s hf hlive
  rw [tapStep_live hf] at hlive ⊢
  obtain ⟨es, htrace, hpulses⟩ := (stepEnd_stepBranch hf).pulses_of_live hf hlive
  rw [gained, htrace, List.drop_left, hpulses]

end Sys2Proof.Machine
end

section
/-! The run of a leg: from every TAP state it ends within a bound, and how the machine's step takes it up
(42_tap_step.md R153, R154, 43_shift_legs.md R170, 45_sequencer.md R202). -/

namespace Sys2Proof.Machine

/-! ### Runs that end -/

/-- The step from `s` is the last of a run: it completes a leg or faults. -/
def StepEnds (s : State) : Prop := (tapStep s).2 = true ∨ (tapStep s).1.fault ≠ none

/-- The run of steps from `s` has its last step among the first `n`. -/
def EndsWithin (n : Nat) (s : State) : Prop :=
  ∃ k < n, (∀ j < k, (tapStep (tapSteps j s)).2 = false ∧ (tapStep (tapSteps j s)).1.fault = none) ∧
    StepEnds (tapSteps k s)

theorem EndsWithin.mono {m n : Nat} {s : State} (h : EndsWithin m s) (hmn : m ≤ n) : EndsWithin n s := by
  obtain ⟨k, hk, hrun⟩ := h
  exact ⟨k, hk.trans_le hmn, hrun⟩

theorem StepEnds.endsWithin {s : State} (h : StepEnds s) (n : Nat) : EndsWithin (n + 1) s :=
  ⟨0, n.succ_pos, fun _ hj => absurd hj (Nat.not_lt_zero _), h⟩

/-- A step, and then a run that ends. -/
theorem EndsWithin.succ {n : Nat} {s : State} (h : EndsWithin n (tapStep s).1) : EndsWithin (n + 1) s := by
  by_cases hs : StepEnds s
  · exact hs.endsWithin n
  · simp only [StepEnds, not_or, Bool.not_eq_true, not_not] at hs
    obtain ⟨k, hk, hbefore, hend⟩ := h
    refine ⟨k + 1, by omega, fun j hj => ?_, hend⟩
    cases j with
    | zero => exact hs
    | succ j => exact hbefore j (by omega)

/-- A run of steps is the same for every number of steps that it ends within. -/
theorem EndsWithin.runSteps_eq {m n : Nat} {s : State} (h : EndsWithin m s) (hmn : m ≤ n) :
    runSteps n s = runSteps m s := by
  obtain ⟨k, hk, hbefore, hend⟩ := h
  rw [runSteps_first_end (hk.trans_le hmn) hbefore hend, runSteps_first_end hk hbefore hend]

/-! ### How far each TAP state is from the end -/

/-- What the branch ends with decides: the completion bit, a fault, or a state whose run ends. -/
theorem endsWithin_of_finish {n : Nat} {s : State} (h : s.fault = none →
    (stepBranch s).finish.2 = true ∨ (stepBranch s).finish.1.fault ≠ none ∨
      EndsWithin n (stepBranch s).finish.1) : EndsWithin (n + 1) s := by
  cases hf : s.fault with
  | some e =>
    refine StepEnds.endsWithin (.inr ?_) n
    rw [tapStep_faulted (by simp [hf]), hf]
    exact Option.some_ne_none e
  | none =>
    have h := h hf
    rw [← tapStep_live hf] at h
    rcases h with hc | hfault | hrun
    · exact StepEnds.endsWithin (.inl hc) n
    · exact StepEnds.endsWithin (.inr hfault) n
    · exact hrun.succ

theorem failAccess_fault_ne_none (s : State) : (failAccess s).fault ≠ none := by
  rw [failAccess_eq]
  exact Option.some_ne_none _

/-- A branch of one pulse, and a state whose run ends. -/
theorem endsWithin_onePulse {b m : Bit} {n : Nat} {s : State} {f : State → State}
    (hb : stepBranch s = (pulseW b m s).andThen fun _ u => .done false (f u))
    (h : EndsWithin n (f (afterPulses [(b, m)] s))) : EndsWithin (n + 1) s := by
  refine endsWithin_of_finish fun _ => ?_
  rw [hb]
  rcases finish_onePulse b m s fun _ u => .done false (f u) with e | e <;> rw [e]
  · exact .inr (.inr h)
  · exact .inr (.inl (failAccess_fault_ne_none s))

theorem endsWithin_internal {s : State} (h : InternalState s) (n : Nat) : EndsWithin (n + 1) s := by
  refine endsWithin_of_finish fun hf => .inr (.inl ?_)
  simp [stepBranch_of_internal h, hf]

theorem endsWithin_update {s : State} (ht : s.tap = TapState.update.code) : EndsWithin 1 s := by
  refine endsWithin_of_finish fun _ => ?_
  rw [stepBranch_at ht]
  by_cases hlive : (stepUpdate s).finish.1.fault = none
  · exact .inl (stepUpdate_completes hlive)
  · exact .inr (.inl hlive)

theorem endsWithin_exit2 {s : State} (ht : s.tap = TapState.exit2.code) : EndsWithin 2 s :=
  endsWithin_onePulse (stepBranch_at ht) (endsWithin_update (goTo_tap .update _))

theorem endsWithin_pause {s : State} (ht : s.tap = TapState.pause.code) : EndsWithin 3 s :=
  endsWithin_onePulse (stepBranch_at ht) (endsWithin_exit2 (goTo_tap .exit2 _))

theorem endsWithin_exit1 {s : State} (ht : s.tap = TapState.exit1.code) : EndsWithin 4 s := by
  have hb := stepBranch_exit1 ht
  split at hb
  · exact endsWithin_onePulse (f := fun u => clearPause (goTo .pause u)) hb (endsWithin_pause rfl)
  · exact (endsWithin_onePulse hb (endsWithin_update (goTo_tap .update _))).mono (by omega)

/-- SHIFT takes a step for each bit left, and one that faults if there is none. -/
theorem endsWithin_shift (n : Nat) : ∀ {s : State} {i : Instr}, s.tap = TapState.shift.code →
    s.cur = some i → i.payload.length = n → EndsWithin (n + 4) s := by
  induction n with
  | zero =>
    intro s i ht hc hn
    have hi : InternalState s :=
      .inr ⟨ht, fun j hj => .inr (by rw [hc] at hj; cases hj; exact List.length_eq_zero_iff.1 hn)⟩
    exact endsWithin_internal hi 3
  | succ n ih =>
    intro s i ht hc hn
    by_cases hi : InternalState s
    · exact endsWithin_internal hi _
    · obtain ⟨j, r, b, rest, hj, hr, htake⟩ := exists_bit_of_not_internal ht hi
      obtain rfl : i = j := Option.some.inj (hc.symm.trans hj)
      have hlen : rest.length = n := by have := (takeBit_spec htake).2; omega
      refine endsWithin_of_finish (n := n + 4) fun _ => ?_
      rw [stepBranch_shift ht hc hr htake]
      rcases shiftBit_cases r i b rest s with ⟨-, e⟩ | ⟨-, e⟩ <;> rw [e]
      · refine .inr (.inr ?_)
        rw [Phy.finish_done]
        split
        · exact (endsWithin_exit1 (goTo_tap .exit1 _)).mono (by omega)
        · exact ih (by simpa using ht) rfl (by simpa using hlen)
      · exact .inr (.inl (failAccess_fault_ne_none s))

section pending
variable {s : State} {i : Instr} (hc : s.cur = some i)
include hc

theorem endsWithin_capture (ht : s.tap = TapState.capture.code) : EndsWithin (i.payload.length + 5) s :=
  endsWithin_onePulse (f := fun u => goTo .shift { u with acc := [] }) (stepBranch_at ht)
    (endsWithin_shift _ (goTo_tap .shift _) hc rfl)

theorem endsWithin_select (ht : s.tap = TapState.select.code) : EndsWithin (i.payload.length + 6) s :=
  endsWithin_onePulse (stepBranch_at ht) (endsWithin_capture (by exact hc) (goTo_tap .capture _))

/-- IDLE enters a shift leg; the action of a control leg is its whole run. -/
theorem endsWithin_idle (ht : s.tap = TapState.idle.code) : EndsWithin (i.payload.length + 7) s := by
  refine endsWithin_of_finish (n := i.payload.length + 6) fun _ => ?_
  cases hr : kindRow i.kind with
  | shift r =>
    rw [stepBranch_idle_shift ht hc hr]
    rcases enterFromIdle_cases r s with ⟨-, e⟩ | ⟨k, -, -, -, e⟩ <;> rw [e]
    · exact .inr (.inr (endsWithin_select (by exact hc) (goTo_tap .select _)))
    · exact .inr (.inl (failAccess_fault_ne_none _))
  | control c =>
    rw [stepBranch_idle_control ht hc hr]
    cases c with
    | resetBurst =>
      rw [controlStep]
      rcases resetBurst_cases s with ⟨-, e⟩ | ⟨k, -, -, -, e⟩ <;> rw [e]
      · exact .inl rfl
      · exact .inr (.inl (failAccess_fault_ne_none _))
    | longDelay => exact .inl rfl
    | idleClock =>
      rw [controlStep, idleClock]
      rcases finish_onePulse false false s fun _ u => .done true (qPop u) with e | e <;> rw [e]
      · exact .inl rfl
      · exact .inr (.inl (failAccess_fault_ne_none _))

theorem endsWithin_reset (ht : s.tap = TapState.reset.code) : EndsWithin (i.payload.length + 8) s :=
  endsWithin_onePulse (stepBranch_at ht) (endsWithin_idle (by exact hc) (goTo_tap .idle _))

/-- The bound of a leg's run, from every TAP state. -/
theorem endsWithin_legFuel : EndsWithin (legFuel i) s := by
  rw [legFuel]
  cases hcode : TapState.ofCode s.tap with
  | none => exact endsWithin_internal (.inl ((TapState.ofCode_eq_none_iff _).1 hcode)) _
  | some t =>
    have ht := TapState.code_of_ofCode hcode
    cases t with
    | reset => exact endsWithin_reset hc ht
    | idle => exact (endsWithin_idle hc ht).mono (by omega)
    | select => exact (endsWithin_select hc ht).mono (by omega)
    | capture => exact (endsWithin_capture hc ht).mono (by omega)
    | shift => exact (endsWithin_shift _ ht hc rfl).mono (by omega)
    | exit1 => exact (endsWithin_exit1 ht).mono (by omega)
    | pause => exact (endsWithin_pause ht).mono (by omega)
    | exit2 => exact (endsWithin_exit2 ht).mono (by omega)
    | update => exact (endsWithin_update ht).mono (by omega)

end pending

/-! ### Legs -/

/-- Steps that do not fault leave the session without a fault. -/
theorem fault_tapSteps {k : Nat} {s : State} (hf : s.fault = none)
    (hbefore : ∀ j < k, (tapStep (tapSteps j s)).1.fault = none) : (tapSteps k s).fault = none := by
  induction k generalizing s with
  | zero => exact hf
  | succ k ih => exact ih (hbefore 0 k.succ_pos) fun j hj => hbefore (j + 1) (by omega)

/-- A last step completes a leg exactly when it does not fault. -/
theorem StepEnds.completes_iff {s : State} (hf : s.fault = none) (h : StepEnds s) :
    (tapStep s).2 = true ↔ (tapStep s).1.fault = none :=
  ⟨fun hc => tapStep_live hf ▸ (stepEnd_stepBranch hf).live_of_completes (tapStep_live hf ▸ hc),
    fun hlive => h.resolve_right (not_not_intro hlive)⟩

/-- Settles O34: the run ends within the fuel of `exec`, which therefore answers at the run's last step. -/
theorem legRunsToCompletion : Obligations.LegRunsToCompletion := by
  intro i s hf
  obtain ⟨k, hk, hbefore, hend⟩ := endsWithin_legFuel (s := { s with cur := some i }) rfl
  have hlive := fault_tapSteps (s := { s with cur := some i }) hf fun j hj => (hbefore j hj).2
  refine ⟨k, hk, hbefore, _, _, Prod.mk.eta.symm, hend.completes_iff hlive, ?_⟩
  rw [exec_live hf, runSteps_first_end hk hbefore hend]

/-- Settles O28: after the pulse to IDLE the run has a step more than it needs. -/
theorem legPendingInReset : Obligations.LegPendingInReset := by
  intro i s hf ht h0
  have hreset := stepBranch_at (s := { s with cur := some i }) ht
  have hrun := runSteps_onePulse (f := goTo .idle) (by exact hf) hreset h0 hf (i.payload.length + 7)
  have hidle : EndsWithin (i.payload.length + 7)
      (goTo .idle (afterPulses [(false, false)] { s with cur := some i })) := endsWithin_idle rfl rfl
  rw [exec_live hf, exec_live (by exact hf), legFuel, hrun]
  exact congrArg _ (hidle.runSteps_eq (by omega)).symm

/-! ### The leg that the machine's step runs -/

/-- The pending leg is what the engine takes, or in IDLE the leg at the queue head. -/
theorem fetch_of_pending {s u : State} {i : Instr} (h : (s.cur = some i ∧ u = s) ∨
    (∃ q, s.cur = none ∧ s.tap = TapState.idle.code ∧ s.queue = i :: q ∧
      u = { s with cur := some i, queue := q })) : fetch s = some (i, u) := by
  rcases h with ⟨hc, rfl⟩ | ⟨q, hc, ht, hq, rfl⟩
  · simp [fetch, hc]
  · simp [fetch, hc, ht, hq, qPop]

/-- The call ends with the leg at a fault or at rest. -/
theorem afterStep_ends {n : Nat} {s : State} (h : s.fault ≠ none ∨ resting s = true) :
    afterStep n true s = endCall s := by
  rcases h with hf | hr
  · simp [afterStep, Option.isSome_iff_ne_none.2 hf]
  · simp [afterStep, hr]

/-- Elsewhere it goes on with one leg more completed. -/
theorem afterStep_goes_on {n : Nat} {s : State} (hf : s.fault = none) (hr : resting s = false) :
    afterStep n true s = { s with call := some (n + 1) } := by
  simp [afterStep, hf, hr]

/-- Settles O45: the engine takes that leg, and the loop's bookkeeping follows. -/
theorem stepRunsNextLeg : Obligations.StepRunsNextLeg := by
  intro s u t i n hcall hf hpending hexec
  have hstep : step s = .next (afterStep n true t) := by
    simp only [step, turn, hcall]
    exact engineTurn_leg hf (fetch_of_pending hpending) hexec
  refine ⟨fun hend => ?_, fun hlive hidle hreset => ?_⟩
  · rw [hstep, afterStep_ends (hend.imp_right fun h => (resting_iff t).2 h.symm)]
    rfl
  · rw [hstep, afterStep_goes_on hlive (by simp [resting, hidle, hreset])]

end Sys2Proof.Machine
end

section
/-! The meanings of the shift legs (43_shift_legs.md R170 to R178): the closed form from IDLE and from SELECT,
what DR_CONFIG keeps, and the pulses of a leg from IDLE to IDLE. -/

namespace Sys2Proof.Machine

/-! ### The closed form is what a leg means -/

/-- Settles O26: the entry step, the run from SELECT to UPDATE, and the UPDATE step. -/
theorem shiftLegFromIdle : Obligations.ShiftLegFromIdle :=
  fun _ _ hs hne hf ht hp hb hr ha => exec_of_idle hs hne hf ht hp hb hr ha

/-- The closed form does not read the pending leg: it is given the kind and payload of its leg. -/
theorem legEnd_set_cur (k : Kind) (p : Bits) (pre : List Drive) (c : Option Instr) (s : State) :
    legEnd k p pre { s with cur := c } = legEnd k p pre s := by
  have hh : headShortcut { s with cur := c } = headShortcut s := rfl
  simp only [legEnd, hh]
  cases headShortcut s <;> rfl

/-- The steps from SELECT are within the fuel of a leg. -/
theorem bodyDrives_length_lt_legFuel (i : Instr) :
    (bodyDrives i.kind i.payload).length < legFuel i := by
  have := exitDrives_length_le i.kind
  rw [bodyDrives_length, legFuel]
  omega

/-- Settles O27: the run from SELECT, with no entry step before it. -/
theorem shiftLegThroughShortcut : Obligations.ShiftLegThroughShortcut := by
  intro i s hs hne hf ht hp hb hr ha
  rw [exec_live hf, ← legEnd_set_cur _ _ _ (some i) s]
  exact congrArg _ (runSteps_of_select (s := { s with cur := some i }) hs hne hf ht rfl hp hb hr ha
    (bodyDrives_length_lt_legFuel i))

/-! ### What DR_CONFIG keeps -/

/-- Of a DR_CONFIG leg's samples the last alone is kept (43_shift_legs.md R175). -/
theorem val_keptSamples_drConfig {p : Bits} (hne : p ≠ []) (s : State) :
    val (keptSamples .drConfig s (entryDrives .drConfig).length p.length) =
      (tdoAt s (p.length + 2)).toNat := by
  have hlast : 1 + 2 + (p.length - 1) = p.length + 2 := by
    have := List.length_pos_iff.2 hne
    omega
  simp [keptSamples, entryDrives, Kind.isDr, hlast, val_cons]

/-- Settles O35, from the closed form of a leg. -/
theorem drConfigKeepsFinalSample : Obligations.DrConfigKeepsFinalSample := by
  intro p s hne hf ht hp hb hr ha
  have hexec := exec_of_idle (i := .drConfig p) rfl hne hf ht hp hb hr ha
  exact ⟨_, hexec, legEnd_lastReadout .., by
    rw [legEnd_results]
    exact congrArg (s.results ++ [·]) (val_keptSamples_drConfig hne s)⟩

/-! ### The pulses of a leg -/

@[simp] theorem legEnd_trace (k : Kind) (p : Bits) (pre : List Drive) (s : State) :
    (legEnd k p pre s).trace = s.trace ++ pulseEvents s (legDrives k p pre s) := by
  unfold legEnd
  cases headShortcut s <;> rfl

theorem gained_legEnd (k : Kind) (p : Bits) (pre : List Drive) (s : State) :
    gained s (legEnd k p pre s) = pulseEvents s (legDrives k p pre s) := by
  rw [gained, legEnd_trace, List.drop_left]

/-- Without a shortcut a leg ends in IDLE. -/
theorem legEnd_tap_of_never {s : State} (h : headShortcut s = .never) (k : Kind) (p : Bits)
    (pre : List Drive) : (legEnd k p pre s).tap = TapState.idle.code := by
  simp only [legEnd, h]

/-- Without a shortcut a leg makes, besides its entry, the pulses of SELECT, CAPTURE, every bit, the exit and
UPDATE. -/
theorem legDrives_length_of_never {s : State} (h : headShortcut s = .never) (k : Kind) (p : Bits)
    (pre : List Drive) :
    (legDrives k p pre s).length = p.length + (pre.length + (exitDrives k).length + 3) := by
  simp only [legDrives, leaveDrives, h, List.length_append, bodyDrives_length, List.length_singleton]
  omega

/-- The pulses of a kind beside those of its bits (43_shift_legs.md R178): one entry pulse of a DR kind and two
of an IR kind, and the way of IR_PAUSE through PAUSE and EXIT2. -/
theorem entryDrives_exitDrives_length (k : Kind) :
    (entryDrives k).length + (exitDrives k).length + 3 =
      if k.isDr then 5 else if k = .irPause then 8 else 6 := by
  cases k <;> rfl

/-- Settles O37: the pulses are those of the closed form, and these are counted. -/
theorem pulseCountOfShiftLegs : Obligations.PulseCountOfShiftLegs := by
  intro i s hs hne hf ht hp hb hr hnever ha
  refine ⟨_, exec_of_idle hs hne hf ht hp hb hr ha, legEnd_tap_of_never hnever .., ?_⟩
  rw [gained_legEnd, pulseCount_pulseEvents, legDrives_length_of_never hnever,
    entryDrives_exitDrives_length]

end Sys2Proof.Machine
end

section
/-! The control legs (44_control_legs.md R190 to R194): each is one step of pulses, a move and the pop of the
next leg; what they leave; and what a RESET leg makes of the target's controller (70_reset_and_hazards.md
R267). -/

namespace Sys2Proof.Machine

/-! ### The action of a control kind -/

/-- The pop in closed form (20_memory.md R52). -/
theorem qPop_eq (s : State) : qPop s = { s with cur := s.queue.head?, queue := s.queue.tail } := by
  cases h : s.queue <;> simp [qPop, h]

/-- The pulses of a control action, `idlePulses` in number: only the RESET leg's have TMS 1 (R190, R193). -/
def controlDrives (c : ControlAction) : List Drive :=
  List.replicate (idlePulses (.control c)) (false, decide (c = .resetBurst))

/-- What a control action does after its pulses and before the pop. -/
def controlMove : ControlAction → State → State
  | .resetBurst => goTo .reset
  | .longDelay => delayLong
  | .idleClock => id

/-- What a control action that no failed access stops leaves. -/
def controlDone (c : ControlAction) (s : State) : State :=
  qPop (controlMove c (afterPulses (controlDrives c) s))

/-- Each control action is its pulses, its move and the pop. -/
theorem controlStep_eq (c : ControlAction) (s : State) :
    controlStep c s = (pulseTimes false (decide (c = .resetBurst)) (idlePulses (.control c)) s).andThen
      fun _ u => .done true (qPop (controlMove c u)) := by
  cases c with
  | resetBurst => rfl
  | longDelay => rfl
  | idleClock =>
    cases h : pulseW false false s <;>
      simp [controlStep, idleClock, idlePulses, pulseTimes, controlMove, h]

theorem controlStep_done {c : ControlAction} {s : State}
    (ha : accessesSucceed (idlePulses (.control c)) s = true) :
    controlStep c s = .done true (controlDone c s) := by
  rw [controlStep_eq, pulseTimes_done _ _ ha, Phy.andThen_done, controlDone, controlDrives]

/-- Equal pulses in a row stop at the first access that fails. -/
theorem pulseTimes_stopped {n k : Nat} {s : State} (hk : k < n) (ha : accessesSucceed k s = true)
    (h : failsAt s k = true) (b m : Bit) :
    pulseTimes b m n s = .stopped (failAccess (afterPulses (List.replicate k (b, m)) s)) := by
  rw [accessesSucceed_iff] at ha
  rcases pulseTimes_cases b m n s with ⟨ha', -⟩ | ⟨j, -, ha', hj, e⟩ <;> rw [accessesSucceed_iff] at ha'
  · simp [ha' k hk] at h
  · have hkj : ¬ k < j := fun hlt => by simp [ha' k hlt] at h
    have hjk : ¬ j < k := fun hlt => by simp [ha j hlt] at hj
    rw [e, show j = k by omega]

theorem controlStep_stopped {c : ControlAction} {k : Nat} {s : State} (hk : k < idlePulses (.control c))
    (ha : accessesSucceed k s = true) (h : failsAt s k = true) :
    controlStep c s = .stopped (failAccess
      (afterPulses (List.replicate k (false, decide (c = .resetBurst))) s)) := by
  rw [controlStep_eq, pulseTimes_stopped hk ha h, Phy.andThen_stopped]

/-! ### The leg from IDLE -/

/-- A failed access neither reads nor writes the pending leg. -/
theorem failAccess_set_cur (x : Option Instr) (s : State) :
    failAccess { s with cur := x } = { failAccess s with cur := x } := by
  rw [failAccess_eq, failAccess_eq]

/-- A leg whose first step a failed access stops ends there, itself still pending. -/
theorem exec_failAccess {i : Instr} {s u : State} (hf : s.fault = none)
    (hb : stepBranch { s with cur := some i } = .stopped (failAccess { u with cur := some i })) :
    exec i s = .next { failAccess u with cur := some i } := by
  rw [failAccess_set_cur] at hb
  rw [exec_live hf, legFuel, runSteps_succ, tapStep_live (by exact hf), hb]
  simp [Option.isSome_iff_ne_none.2 (failAccess_fault_ne_none u)]

section idle
variable {i : Instr} {c : ControlAction} {s : State} (hr : kindRow i.kind = .control c) (hf : s.fault = none)
  (ht : s.tap = TapState.idle.code)
include hr hf ht

/-- The whole meaning of a control leg in IDLE is its action, which pops the next leg over it. -/
theorem exec_control_done (ha : accessesSucceed (idlePulses (.control c)) s = true) :
    exec i s = .next (controlDone c s) := by
  have hstep := (stepBranch_idle_control (s := { s with cur := some i }) ht rfl hr).trans (controlStep_done ha)
  rw [exec_live hf, legFuel, runSteps_complete (by exact hf) hstep]
  simp only [controlDone, qPop_eq]
  cases c <;> rfl

/-- The first access that fails stops a control leg, itself still pending. -/
theorem exec_control_stopped {k : Nat} (hk : k < idlePulses (.control c)) (ha : accessesSucceed k s = true)
    (h : failsAt s k = true) :
    exec i s = .next { failAccess
      (afterPulses (List.replicate k (false, decide (c = .resetBurst))) s) with cur := some i } :=
  exec_failAccess hf ((stepBranch_idle_control (s := { s with cur := some i }) ht rfl hr).trans
    (controlStep_stopped hk ha h))

end idle

/-- Settles O29: the RESET leg's action in closed form. -/
theorem resetLeg : Obligations.ResetLeg := by
  intro p s hf ht ha
  rw [exec_control_done (c := .resetBurst) rfl hf ht ha, controlDone, qPop_eq]
  rfl

/-- Settles O30: the LONG_DELAY leg's action, of no pulse. -/
theorem longDelayLeg : Obligations.LongDelayLeg := by
  intro p s hf ht
  have hdrives : afterPulses (controlDrives .longDelay) s = s := afterPulses_nil s
  rw [exec_control_done (c := .longDelay) rfl hf ht rfl, controlDone, hdrives, qPop_eq]
  rfl

/-- Settles O31: the IDLE leg's action, of one pulse. -/
theorem idleLeg : Obligations.IdleLeg := by
  intro p s hf ht h0
  have ha : accessesSucceed (idlePulses (.control .idleClock)) s = true := by
    simpa [accessesSucceed_iff, idlePulses] using h0
  rw [exec_control_done rfl hf ht ha, controlDone, qPop_eq]
  rfl

/-! ### What a control leg leaves (R194) -/

/-- From `s` to `t` nothing was captured: the Result Store, the last readout, the flags and the accumulator
are the same. -/
structure KeepsCaptures (s t : State) : Prop where
  results : t.results = s.results
  lastReadout : t.lastReadout = s.lastReadout
  pause : t.pause = s.pause
  readback : t.readback = s.readback
  acc : t.acc = s.acc

theorem KeepsCaptures.trans {s t u : State} (h : KeepsCaptures s t) (h' : KeepsCaptures t u) :
    KeepsCaptures s u :=
  ⟨h'.results.trans h.results, h'.lastReadout.trans h.lastReadout, h'.pause.trans h.pause,
    h'.readback.trans h.readback, h'.acc.trans h.acc⟩

theorem keepsCaptures_afterPulses (ds : List Drive) (s : State) : KeepsCaptures s (afterPulses ds s) :=
  ⟨rfl, rfl, rfl, rfl, rfl⟩

theorem keepsCaptures_failAccess (s : State) : KeepsCaptures s (failAccess s) := by
  rw [failAccess_eq]
  exact ⟨rfl, rfl, rfl, rfl, rfl⟩

theorem keepsCaptures_controlDone (c : ControlAction) (s : State) : KeepsCaptures s (controlDone c s) := by
  rw [controlDone, qPop_eq]
  cases c <;> exact ⟨rfl, rfl, rfl, rfl, rfl⟩

/-- The legs of kind `k`, whatever their payload, end in state `s` in one way: nothing is captured, and only
the leg left pending can tell one payload from another. -/
def EndsAlike (k : Kind) (s : State) : Prop :=
  ∃ w, KeepsCaptures s w ∧ ∀ p, ∃ x, exec (.ofKind k p) s = .next { w with cur := x }

theorem endsAlike_of_idle {k : Kind} {s : State} (hk : k.isShift = false) (hf : s.fault = none)
    (ht : s.tap = TapState.idle.code) : EndsAlike k s := by
  obtain ⟨c, hr⟩ := (kindRow_isControl k).1 hk
  have hrow : ∀ p, kindRow (Instr.ofKind k p).kind = .control c := fun p => by rw [Instr.kind_ofKind, hr]
  rcases pulseTimes_cases false (decide (c = .resetBurst)) (idlePulses (.control c)) s with
    ⟨ha, -⟩ | ⟨n, hn, ha, hfail, -⟩
  · exact ⟨_, keepsCaptures_controlDone c s, fun p => ⟨_, exec_control_done (hrow p) hf ht ha⟩⟩
  · exact ⟨_, (keepsCaptures_afterPulses _ s).trans (keepsCaptures_failAccess _),
      fun p => ⟨_, exec_control_stopped (hrow p) hf ht hn ha hfail⟩⟩

/-- In RESET the pulse to IDLE comes first (R191); where it fails, the leg has done nothing else. -/
theorem endsAlike_of_reset {k : Kind} {s : State} (hk : k.isShift = false) (hf : s.fault = none)
    (ht : s.tap = TapState.reset.code) : EndsAlike k s := by
  cases h0 : failsAt s 0 with
  | false =>
    obtain ⟨w, hw, hend⟩ := endsAlike_of_idle hk
      (s := { afterPulses [(false, false)] s with tap := TapState.idle.code }) hf rfl
    exact ⟨w, ⟨hw.results, hw.lastReadout, hw.pause, hw.readback, hw.acc⟩,
      fun p => by rw [legPendingInReset _ s hf ht h0]; exact hend p⟩
  | true =>
    refine ⟨_, keepsCaptures_failAccess s, fun p => ⟨_, exec_failAccess hf ?_⟩⟩
    have hstep := stepBranch_at (s := { s with cur := some (Instr.ofKind k p) }) ht
    rw [hstep, stepReset, pulseW_stopped (by exact h0), Phy.andThen_stopped]

/-- Settles O32: the leg and its twin of the other payload end alike. -/
theorem controlLegsKeepCaptures : Obligations.ControlLegsKeepCaptures := by
  intro i p s hk hf hrest
  have halike : EndsAlike i.kind s := ((resting_iff s).1 hrest).elim
    (endsAlike_of_reset hk hf) (endsAlike_of_idle hk hf)
  obtain ⟨w, hw, hend⟩ := halike
  obtain ⟨x, hi⟩ := hend i.payload
  obtain ⟨y, hp⟩ := hend p
  rw [Instr.ofKind_kind_payload] at hi
  exact ⟨_, hi, hw.results, hw.lastReadout, hw.pause, hw.readback, hw.acc, _, hp, rfl, rfl, rfl, rfl⟩

/-! ### The target's controller (70_reset_and_hazards.md R267) -/

/-- SRST is driven last in a complete PULSE_RESET, and loses the controller (92 D36). -/
theorem ieeeAfter_pulseReset (q r : IeeeState) :
    ieeeAfter [.srst false, .delaySettle, .srst true] q r := ⟨q, r, rfl⟩

/-- A PULSE_RESET loses the controller: by SRST when it is complete, else by its failed access. -/
theorem targetAfter_pulseReset {s t : State} (hc : s.call = none) (hf : s.fault = none)
    (h : hostAction .pulseReset s = .next t) (q r : IeeeState) : targetAfter s t q r := by
  obtain ⟨hassert, hrelease⟩ := pulseResetStopsAtFailedAccess s hc hf
  cases h0 : failsAt s 0 with
  | true =>
    obtain ⟨l, e⟩ := hassert h0
    obtain rfl := Host.Outcome.next.inj (e.symm.trans h)
    exact targetAfter_failed hf rfl q r
  | false =>
    cases h1 : failsAt s 1 with
    | true =>
      obtain ⟨l, e⟩ := hrelease h0 h1
      obtain rfl := Host.Outcome.next.inj (e.symm.trans h)
      exact targetAfter_failed hf rfl q r
    | false =>
      obtain rfl := Host.Outcome.next.inj ((pulseResetSequence s hc hf h0 h1).symm.trans h)
      refine .inr ?_
      rw [gained, List.drop_left]
      exact ieeeAfter_pulseReset q r

/-- The edges of the RESET burst take the controller to Test-Logic-Reset from every state. -/
theorem resetBurst_edges (q : IeeeState) :
    (controlDrives .resetBurst).foldl (fun q d => ieeeNext d.2 q) q = .testLogicReset := by
  cases q <;> rfl

/-- Settles O59: PULSE_RESET loses the controller, and the RESET leg's trace is its burst alone. -/
theorem resetLegResetsAnyTarget : Obligations.ResetLegResetsAnyTarget := by
  refine ⟨fun s t hc hf h q r => targetAfter_pulseReset hc hf h q r, fun p s hf ht ha => ?_⟩
  refine ⟨_, resetLeg p s hf ht ha, rfl, fun q r => ?_⟩
  have hgained : gained s (afterPulses (controlDrives .resetBurst) s) =
      pulseEvents s (controlDrives .resetBurst) := List.drop_left
  calc targetAfter s _ q r
      _ ↔ ieeeAfter (gained s (afterPulses (controlDrives .resetBurst) s)) q r :=
        targetAfter_iff (by simp [hf]) q r
      _ ↔ r = .testLogicReset := by rw [hgained, ieeeAfter_pulseEvents, resetBurst_edges]

end Sys2Proof.Machine
end

section
/-! The host interface between calls (45_sequencer.md R201, R203, R208, R209): ENQUEUE's checks in their order,
the three reads, the ADVANCE with nothing to do, and the refusal of every action during an ADVANCE. -/

namespace Sys2Proof

/-- The reserved codes are 10 to 15 (30_encoding.md R75). -/
theorem Kind.ofCode_eq_none_iff (c : BitVec 4) : Kind.ofCode c = none ↔ 9 < c.toNat := by
  revert c; decide

/-- The kinds other than RESET, LONG_DELAY and IDLE shift (30_encoding.md R73). -/
theorem Kind.isShift_iff_code (k : Kind) :
    k.isShift = true ↔ k.code.toNat ≠ 2 ∧ k.code.toNat ≠ 3 ∧ k.code.toNat ≠ 4 := by
  cases k <;> decide

/-- Every other code is that of a kind. -/
theorem Kind.exists_of_code_le {c : BitVec 4} (h : c.toNat ≤ 9) : ∃ k, Kind.ofCode c = some k ∧
    k.code.toNat = c.toNat ∧ (k.isShift = true ↔ c.toNat ≠ 2 ∧ c.toNat ≠ 3 ∧ c.toNat ≠ 4) := by
  obtain ⟨k, hk⟩ := Option.ne_none_iff_exists'.1 (mt (Kind.ofCode_eq_none_iff c).1 h.not_gt)
  obtain rfl := Kind.code_of_ofCode hk
  exact ⟨k, hk, rfl, Kind.isShift_iff_code k⟩

/-- Exactly as many payload words as the length calls for are one descriptor, of a leg of any kind. -/
theorem decode_exact {h : Word} {ws : List Word} {k : Kind} (hk : Kind.ofCode (headerKind h) = some k)
    (hw : ws.length = payloadWords (headerLen h)) :
    decode (h :: ws) = .ok (.ofKind k (unpack (headerLen h) fun j => ws.getD j 0#32), []) := by
  rw [decode_cons_eq_ok_iff]
  exact ⟨by rw [hk, Instr.kind_ofKind], hw.ge, Instr.payload_ofKind _ _, List.drop_eq_nil_iff.2 hw.le⟩

end Sys2Proof

namespace Sys2Proof.Machine

/-! ### ENQUEUE (R201) -/

theorem enqueueCheck_empty {k : Kind} (p : Params) (hk : k.isShift = true) :
    enqueueCheck p k 0 = some .emptyPayload := by
  simp [enqueueCheck, hk]

theorem enqueueCheck_too_long {p : Params} {k : Kind} {n : Nat} (h : ¬ (k.isShift = true ∧ n = 0))
    (hn : payloadLimit p < n) : enqueueCheck p k n = some .payloadTooLong := by
  simp [enqueueCheck, h, hn]

theorem enqueueCheck_passes {p : Params} {k : Kind} {n : Nat} (h : ¬ (k.isShift = true ∧ n = 0))
    (hn : n ≤ payloadLimit p) : enqueueCheck p k n = none := by
  simp [enqueueCheck, h, hn]

/-- A leg that passes the checks goes to the tail of the queue. -/
theorem enqueueLeg_accepted {i : Instr} {s : State} (hf : s.fault = none)
    (hcheck : enqueueCheck s.params i.kind i.payload.length = none) : enqueueLeg i s = enqueue i s := by
  simp [enqueueLeg, hf, hcheck]

section descriptor
variable {h : Word} {s : State} (ws : List Word)

theorem enqueueDescriptor_faulted (hf : s.fault ≠ none) :
    enqueueDescriptor h ws s = .next (refuse .faulted s) :=
  if_pos (Option.isSome_iff_ne_none.2 hf)

variable (hf : s.fault = none)
include hf

theorem enqueueDescriptor_bad_kind (hk : Kind.ofCode (headerKind h) = none) :
    enqueueDescriptor h ws s = .next (refuse .badKind s) := by
  simp [enqueueDescriptor, hf, hk]

theorem enqueueDescriptor_refused {k : Kind} {e : ErrorCode} (hk : Kind.ofCode (headerKind h) = some k)
    (hcheck : enqueueCheck s.params k (headerLen h) = some e) :
    enqueueDescriptor h ws s = .next (refuse e s) := by
  simp [enqueueDescriptor, hf, hk, hcheck]

end descriptor

/-- Settles O38: each check is the first that fails, and a descriptor that passes them all decodes to the leg
with its header's kind and length and its words' bits. -/
theorem enqueueFollowsItsChecks : Obligations.EnqueueFollowsItsChecks := by
  intro h ws s hc k n refused shift
  have hrefused : ∀ e, enqueueDescriptor h ws s = .next (refuse e s) → refused e := fun e he =>
    (hostAction_enqueue hc h ws).trans he
  refine ⟨fun hf => hrefused _ (enqueueDescriptor_faulted ws hf), fun hf hk => ?_, fun hf hk hs hn => ?_,
    fun hf hk hbits hlong => ?_, fun hf hk hbits hfits hw => ?_⟩
  · exact hrefused _ (enqueueDescriptor_bad_kind ws hf ((Kind.ofCode_eq_none_iff _).2 hk))
  · obtain ⟨kd, hkd, -, hshift⟩ := Kind.exists_of_code_le hk
    refine hrefused _ (enqueueDescriptor_refused ws hf hkd ?_)
    rw [show headerLen h = 0 from hn]
    exact enqueueCheck_empty _ (hshift.2 hs)
  · obtain ⟨kd, hkd, -, hshift⟩ := Kind.exists_of_code_le hk
    exact hrefused _ (enqueueDescriptor_refused ws hf hkd (enqueueCheck_too_long (by rwa [hshift]) hlong))
  · obtain ⟨kd, hkd, hcode, hshift⟩ := Kind.exists_of_code_le hk
    have hd := decode_exact hkd hw
    obtain ⟨-, hlen⟩ := kind_length_of_decode hd
    refine ⟨_, by rw [Instr.kind_ofKind, hcode], hlen, fun j hj => ?_, ?_⟩
    · rw [Instr.payload_ofKind]
      exact getElem?_unpack _ hj
    · rw [hostAction_enqueue hc, enqueueDescriptor_of_decode hd, enqueueLeg_accepted hf]
      · rfl
      · rw [Instr.kind_ofKind, hlen]
        exact enqueueCheck_passes (by rwa [hshift]) hfits

/-! ### During an ADVANCE (R209) -/

/-- Settles O42: the call in progress is what the host's turn looks at first. -/
theorem busyBeforeEveryCheck : Obligations.BusyBeforeEveryCheck :=
  fun a _ _ hc => hostAction_busy (Option.isSome_of_eq_some hc) a

/-! ### The reads (R208) -/

theorem drained_iff (s : State) :
    drained s = true ↔ s.queue = [] ∧ s.cur = none ∧ s.tap = TapState.idle.code := by
  simp [drained, and_assoc]

/-- Settles O43: each read replies what its register holds. -/
theorem readsReturnRegisters : Obligations.ReadsReturnRegisters := by
  intro s hc
  refine ⟨?_, fun hl => ?_, fun v hl => ?_, ?_⟩
  · simp [hostAction, hc, readResults, reply]
  · simp [hostAction, hc, readLastReadout, hl, refuse, reply]
  · simp [hostAction, hc, readLastReadout, hl, reply]
  · have hpending : s.cur.isSome = decide (s.cur ≠ none) := by
      rw [Bool.eq_iff_iff, decide_eq_true_iff, Option.isSome_iff_ne_none]
    have hdrained : drained s = decide (s.queue = [] ∧ s.cur = none ∧ s.tap = TapState.idle.code) := by
      rw [Bool.eq_iff_iff, decide_eq_true_iff, drained_iff]
    simp only [hostAction, hc, readStatus, reply, hpending, hdrained]
    rfl

/-! ### ADVANCE called (R202, R203) -/

theorem hostAction_advance {s : State} (hc : s.call = none) : hostAction .advance s = .next (advance s) := by
  simp [hostAction, hc]

/-- With nothing pending and nothing queued ADVANCE is one step and back. -/
theorem advance_nothing {s : State} (hf : s.fault = none) (hr : resting s = true) (hc : s.cur = none)
    (hq : s.queue = []) : advance s = endCall (tapStep s).1 := by
  simp [advance, hf, hr, hc, hq]

/-- With something to do its loop begins. -/
theorem advance_begins {s : State} (hf : s.fault = none) (hwork : ¬ (s.cur = none ∧ s.queue = [])) :
    advance s = { s with call := some 0 } := by
  have hwork : ¬ (resting s && s.cur.isNone && s.queue.isEmpty) = true := fun h => hwork (by simp_all)
  rw [advance, hf, if_neg hwork]
  rfl

/-- Settles O44: in IDLE the step is the hold, in RESET the move to IDLE, and each makes one pulse. -/
theorem noOpAdvance : Obligations.NoOpAdvance := by
  intro s hcall hf hc hq ht h0
  have hstep : (tapStep s).1 = { afterPulses [(false, false)] s with tap := TapState.idle.code } := by
    rcases ht with ht | ht
    · rw [(idleWithoutLeg s hf ht hc).2 hq h0, ← ht]
      rfl
    · rw [(onePulseSteps s hf h0).1 ht]
  rw [hostAction_advance hcall, advance_nothing hf ((resting_iff s).2 ht.symm) hc hq, hstep]
  simp [endCall, reply, hf, hcall]

end Sys2Proof.Machine
end

section
/-! Runs of the machine: ENQUEUE and ADVANCE of one leg (45_sequencer.md R201, R202). -/

namespace Sys2Proof.Machine

/-! ### Steps and runs -/

/-- Between calls the step is the host's turn. -/
theorem step_of_no_call {s : State} (hc : s.call = none) : step s = hostTurn s := by
  simp only [step, turn, hc]

/-- In a call in progress it is the engine's. -/
theorem step_of_call {s : State} {n : Nat} (hc : s.call = some n) : step s = engineTurn n s := by
  simp only [step, turn, hc]

/-- A step, and a run from where it leads. -/
theorem run_step {s t : State} {k : Nat} {o : Host.Outcome State Fault Refusal} (h : step s = .next t)
    (hrun : Sys2Proof.core.run k t = o) : Sys2Proof.core.run (k + 1) s = o := by
  simp only [Host.Core.run, core, h]
  exact hrun

/-- A run, and a run from where it ends. -/
theorem run_run {j k : Nat} {s t : State} {o : Host.Outcome State Fault Refusal}
    (h : Sys2Proof.core.run j s = .next t) (hrun : Sys2Proof.core.run k t = o) :
    Sys2Proof.core.run (k + j) s = o := by
  induction j generalizing s with
  | zero =>
    obtain rfl : s = t := Host.Outcome.next.inj h
    exact hrun
  | succ j ih =>
    cases hs : step s with
    | next u => exact run_step hs (ih ((run_step hs rfl).symm.trans h))
    | fault r => simp [Host.Core.run, core, hs] at h
    | refused r => simp [Host.Core.run, core, hs] at h

/-! ### ENQUEUE, then ADVANCE -/

/-- ENQUEUE's checks let every well-formed leg through (30_encoding.md R76, R77). -/
theorem enqueueCheck_of_wf {p : Params} {i : Instr} (h : i.wf (payloadLimit p) = true) :
    enqueueCheck p i.kind i.payload.length = none := by
  simp only [Instr.wf, Instr.hasBits, Instr.fits, Bool.and_eq_true, decide_eq_true_eq] at h
  obtain ⟨hbits, hfits⟩ := h
  refine enqueueCheck_passes (fun ⟨hs, hn⟩ => ?_) hfits
  simp [hs, List.length_eq_zero_iff.1 hn] at hbits

/-- The host's turn enqueues the leg that its words decode to. -/
theorem step_enqueue {s : State} {h : Word} {ws : List Word} {rest : List HostAction} {i : Instr}
    (hhost : s.host = .enqueue h ws :: rest) (hc : s.call = none) (hf : s.fault = none)
    (hd : decode (h :: ws) = .ok (i, [])) (hw : i.wf (payloadLimit s.params) = true) :
    step s = .next (enqueue i { s with host := rest }) := by
  have haction := hostAction_enqueue (s := { s with host := rest }) hc h ws
  rw [enqueueDescriptor_of_decode hd, enqueueLeg_accepted (s := { s with host := rest }) hf
    (enqueueCheck_of_wf hw)] at haction
  rw [step_of_no_call hc, hostTurn, hhost]
  exact haction

/-- The host's turn begins the loop of an ADVANCE with something to do. -/
theorem step_advance {s : State} {rest : List HostAction} (hhost : s.host = .advance :: rest)
    (hc : s.call = none) (hf : s.fault = none) (hwork : ¬ (s.cur = none ∧ s.queue = [])) :
    step s = .next { s with host := rest, call := some 0 } := by
  have haction := hostAction_advance (s := { s with host := rest }) hc
  rw [advance_begins (s := { s with host := rest }) hf hwork] at haction
  rw [step_of_no_call hc, hostTurn, hhost]
  exact haction

/-- Settles O47: the host enqueues the leg, the host begins the call, and the engine in IDLE fetches the leg
at the queue head. -/
theorem enqueueAdvanceRunsLeg : Obligations.EnqueueAdvanceRunsLeg := by
  intro s h ws rest i hhost hcall hf ht hc hq hd hw
  refine ⟨_, exec_live hf, ?_⟩
  have hqueue : (enqueue i { s with host := .advance :: rest }).queue = [i] := by simp [hq]
  refine run_step (step_enqueue hhost hcall hf hd hw)
    (run_step (step_advance (enqueue_host ..) hcall hf (by simp)) (run_step ?_ rfl))
  refine (step_of_call rfl).trans (engineTurn_leg hf (fetch_of_pending (.inr ⟨[], hc, ht, hqueue, ?_⟩))
    (exec_live hf))
  rw [← hq]
  rfl

end Sys2Proof.Machine
end

section
/-! The host's list under the engine: no step of the engine takes up or drops an action of the host
(45_sequencer.md R209). -/

namespace Sys2Proof.Machine

/-- Wherever this piece of a step ends, the host has the actions `l` ahead. -/
def Phy.HostIs {α : Type} (l : List HostAction) : Phy α → Prop
  | .done _ s => s.host = l
  | .stopped s => s.host = l

/-- A piece that keeps the host's list, and a rest that does. -/
theorem Phy.HostIs.andThen {α β : Type} {l : List HostAction} {x : Phy α} {f : α → State → Phy β}
    (hx : x.HostIs l) (hf : ∀ a u, u.host = l → (f a u).HostIs l) : (x.andThen f).HostIs l := by
  cases x with
  | done a u => exact hf a u hx
  | stopped u => exact hx

theorem Phy.HostIs.finish {l : List HostAction} {x : Phy Bool} (hx : x.HostIs l) :
    x.finish.1.host = l := by
  cases x <;> exact hx

section pieces
variable {l : List HostAction} {s : State} (h : s.host = l)
include h

theorem hostIs_raise {α : Type} (e : ErrorCode) : (Phy.stopped (raise e s) : Phy α).HostIs l :=
  (raise_host e s).trans h

theorem hostIs_pulse (b m : Bit) : (pulse b m s).HostIs l := by
  rcases pulse_cases b m s with ⟨-, e⟩ | ⟨-, e⟩ <;> rw [e]
  · exact (pulsed_host b m s).trans h
  · rw [failAccess_eq]
    exact h

theorem hostIs_pulseW (b m : Bit) : (pulseW b m s).HostIs l :=
  (hostIs_pulse h b m).andThen fun _ _ hu => hu

theorem hostIs_pulseTimes (b m : Bit) (n : Nat) : (pulseTimes b m n s).HostIs l := by
  induction n generalizing s with
  | zero => exact h
  | succ n ih => exact (hostIs_pulseW h b m).andThen fun _ _ hu => ih hu

theorem hostIs_qPop : (qPop s).host = l := (qPop_host s).trans h

theorem hostIs_controlStep (c : ControlAction) : (controlStep c s).HostIs l := by
  cases c with
  | resetBurst => exact (hostIs_pulseTimes h _ _ _).andThen fun _ u hu => hostIs_qPop (s := goTo .reset u) hu
  | longDelay => exact hostIs_qPop (s := delayLong s) h
  | idleClock => exact (hostIs_pulseW h _ _).andThen fun _ _ hu => hostIs_qPop hu

theorem hostIs_stepIdle : (stepIdle s).HostIs l := by
  unfold stepIdle
  split
  · unfold idleNoLeg
    split
    · exact (hostIs_pulseW h _ _).andThen fun _ _ hu => hu
    · exact hostIs_qPop h
  · split
    · exact (hostIs_pulseTimes h _ _ _).andThen fun _ _ hu => hu
    · exact hostIs_controlStep h _

theorem hostIs_shiftBit (r : ShiftRow) (i : Instr) (b : Bit) (rest : Bits) :
    (shiftBit r i b rest s).HostIs l := by
  refine (hostIs_pulse h _ _).andThen fun t u hu => ?_
  dsimp only
  split <;> exact (keepSample_host ..).trans hu

theorem hostIs_stepShift : (stepShift s).HostIs l := by
  unfold stepShift
  split
  · exact hostIs_raise h _
  · split
    · exact hostIs_raise h _
    · split
      · exact hostIs_raise h _
      · exact hostIs_shiftBit h _ _ _ _

theorem hostIs_stepExit1 : (stepExit1 s).HostIs l := by
  unfold stepExit1
  split <;> exact (hostIs_pulseW h _ _).andThen fun _ _ hu => hu

theorem hostIs_leaveUpdate : (leaveUpdate s).HostIs l := by
  have hidle : (returnToIdle s).HostIs l := (hostIs_pulseW h _ _).andThen fun _ _ hu => hu
  unfold leaveUpdate
  split
  · exact hidle
  · split
    · exact hidle
    · exact (hostIs_pulseW (s := readbackOnShortcut _ (qPop s)) (hostIs_qPop h) _ _).andThen fun _ _ hu => hu
    · refine (hostIs_pulseW h _ _).andThen fun _ u hu => ?_
      exact (hostIs_pulseW (hostIs_qPop ((pauseOnShortcut_host _ u).trans hu)) _ _).andThen fun _ _ hw => hw

theorem hostIs_stepUpdate : (stepUpdate s).HostIs l := by
  unfold stepUpdate
  split
  · exact hostIs_raise h _
  · exact hostIs_leaveUpdate (by rw [retire_eq]; exact h)

theorem hostIs_stepBranch : (stepBranch s).HostIs l := by
  cases hcode : TapState.ofCode s.tap with
  | none =>
    simp only [stepBranch, hcode]
    exact hostIs_raise h _
  | some t =>
    rw [stepBranch_at (TapState.code_of_ofCode hcode)]
    cases t with
    | idle => exact hostIs_stepIdle h
    | shift => exact hostIs_stepShift h
    | exit1 => exact hostIs_stepExit1 h
    | update => exact hostIs_stepUpdate h
    | reset | select | capture | pause | exit2 => exact (hostIs_pulseW h _ _).andThen fun _ _ hu => hu

end pieces

@[simp] theorem tapStep_host (s : State) : (tapStep s).1.host = s.host := by
  unfold tapStep
  split
  · rfl
  · exact (hostIs_stepBranch rfl).finish

@[simp] theorem runSteps_host (n : Nat) (s : State) : (runSteps n s).host = s.host := by
  induction n generalizing s with
  | zero => rfl
  | succ n ih =>
    rw [runSteps_succ]
    split
    · exact tapStep_host s
    · rw [ih, tapStep_host]

end Sys2Proof.Machine
end

section
/-! ADVANCE returns and DRAIN ends (45_sequencer.md R202, R204, R206): every turn of the engine completes a leg
or brings the engine nearer to one, and every ADVANCE of DRAIN leaves fewer legs. -/

namespace Sys2Proof.Machine

/-! ### What is left to do -/

/-- The legs not completed: those queued, and the one pending or under way. -/
def legsLeft (s : State) : Nat := s.queue.length + (s.cur.isSome || !resting s).toNat

/-- The steps before the engine takes up a leg or completes the one under way, where none is pending. -/
def stepsToLeg (s : State) : Nat :=
  match TapState.ofCode s.tap with
  | some .reset => 1
  | some .exit1 => 3
  | some .pause => 2
  | some .exit2 => 1
  | _ => 0

theorem legsLeft_pending {s : State} {i : Instr} (hc : s.cur = some i) : legsLeft s = s.queue.length + 1 := by
  simp [legsLeft, hc]

theorem legsLeft_underway {s : State} (hr : resting s = false) : legsLeft s = s.queue.length + 1 := by
  simp [legsLeft, hr]

theorem legsLeft_idle {s : State} (hc : s.cur = none) (hr : resting s = true) :
    legsLeft s = s.queue.length := by
  simp [legsLeft, hc, hr]

theorem stepsToLeg_at {s : State} {t : TapState} (h : s.tap = t.code) : stepsToLeg s =
    match t with | .reset => 1 | .exit1 => 3 | .pause => 2 | .exit2 => 1 | _ => 0 := by
  cases t <;> simp [stepsToLeg, h]

theorem stepsToLeg_le (s : State) : stepsToLeg s ≤ 3 := by
  unfold stepsToLeg
  split <;> omega

theorem legsLeft_le (s : State) : legsLeft s ≤ s.queue.length + 1 :=
  Nat.add_le_add_left (Bool.toNat_le _) _

/-! ### The step that completes a leg -/

/-- A leg popped at the end of another is left with those behind it, as it was in the queue. -/
theorem legsLeft_popped {s t : State} (hc : t.cur = s.queue.head?) (hq : t.queue = s.queue.tail)
    (hr : resting t = true ∨ s.queue ≠ []) : legsLeft t = s.queue.length := by
  cases h : s.queue with
  | nil => simp_all [legsLeft]
  | cons j q => simp [legsLeft, hc, hq, h]

/-- UPDATE leaves the engine in IDLE, or in SELECT with the leg the shortcut popped. -/
theorem leftUpdate_ends {s : State} (hc : s.cur = none) :
    legsLeft (leftUpdate s) = s.queue.length ∧
      (resting (leftUpdate s) = true ∨ stepsToLeg (leftUpdate s) = 0) := by
  cases hh : headShortcut s with
  | never =>
    simp only [leftUpdate, hh]
    have hr : resting { afterPulses [(false, false)] s with tap := TapState.idle.code } = true := by
      simp [resting]
    exact ⟨legsLeft_idle hc hr, .inl hr⟩
  | dr | ir =>
    obtain ⟨j, q, hq⟩ := headShortcut_cons (s := s) (by simp [hh])
    simp only [leftUpdate, hh]
    exact ⟨legsLeft_popped rfl rfl (.inr (by simp [hq])), .inr (stepsToLeg_at (t := .select) rfl)⟩

/-- A control leg leaves the engine at rest. -/
theorem controlDone_ends {c : ControlAction} {s : State} (ht : s.tap = TapState.idle.code) :
    legsLeft (controlDone c s) = s.queue.length ∧ resting (controlDone c s) = true := by
  have hr : resting (controlDone c s) = true := by
    cases c <;> simp [controlDone, controlMove, resting, ht]
  refine ⟨legsLeft_popped (s := s) ?_ ?_ (.inl hr), hr⟩ <;> cases c <;> simp [controlDone, controlMove]

@[simp] theorem onePulse_incomplete (b m : Bit) (s : State) (f : State → State) :
    ((pulseW b m s).andThen fun _ u => .done false (f u)).finish.2 = false := by
  rcases finish_onePulse b m s fun _ u => .done false (f u) with e | e <;> simp [e]

/-- In IDLE a step that completes a leg is the action of a control leg. -/
theorem stepIdle_incomplete_or_control (s : State) : (stepIdle s).finish.2 = false ∨
    ∃ i c, s.cur = some i ∧ (stepIdle s).finish = (controlDone c s, true) := by
  cases hc : s.cur with
  | none =>
    refine .inl ?_
    simp only [stepIdle, hc, idleNoLeg]
    split
    · exact onePulse_incomplete (f := id) ..
    · rfl
  | some i =>
    cases hr : kindRow i.kind with
    | shift r =>
      refine .inl ?_
      simp only [stepIdle, hc, hr]
      rcases enterFromIdle_cases r s with ⟨-, e⟩ | ⟨k, -, -, -, e⟩ <;> rw [e] <;> rfl
    | control c =>
      simp only [stepIdle, hc, hr]
      rcases pulseTimes_cases false (decide (c = .resetBurst)) (idlePulses (.control c)) s with
        ⟨ha, -⟩ | ⟨k, hk, ha, hfail, -⟩
      · exact .inr ⟨i, c, rfl, by rw [controlStep_done ha, Phy.finish_done]⟩
      · exact .inl (by rw [controlStep_stopped hk ha hfail, Phy.finish_stopped])

theorem shiftBit_incomplete (r : ShiftRow) (i : Instr) (b : Bit) (rest : Bits) (s : State) :
    (shiftBit r i b rest s).finish.2 = false := by
  rcases shiftBit_cases r i b rest s with ⟨-, e⟩ | ⟨-, e⟩ <;> simp [e]

@[simp] theorem stepShift_incomplete (s : State) : (stepShift s).finish.2 = false := by
  unfold stepShift
  split
  · rfl
  · split
    · rfl
    · split
      · rfl
      · exact shiftBit_incomplete ..

@[simp] theorem stepExit1_incomplete (s : State) : (stepExit1 s).finish.2 = false := by
  unfold stepExit1
  split
  · exact onePulse_incomplete (f := fun u => clearPause (goTo .pause u)) ..
  · exact onePulse_incomplete (f := goTo .update) ..

/-- UPDATE that completes its leg has retired the capture and left as its second part says (R150, R151). -/
theorem stepUpdate_of_completes {s : State} (h : (stepUpdate s).finish.2 = true) :
    (stepUpdate s).finish.1 = leftUpdate (retire s) := by
  cases hr : resultsFull s with
  | true => simp [stepUpdate, hr] at h
  | false =>
    rcases stepUpdate_cases hr with e | ⟨k, -, -, e⟩ <;> rw [e] at h ⊢
    · rfl
    · cases h

/-- A step returns the completion bit 1 only for a control leg in IDLE, and in UPDATE (42_tap_step.md R154). -/
theorem completes_cases {s : State} (h : (stepBranch s).finish.2 = true) :
    (∃ i c, s.tap = TapState.idle.code ∧ s.cur = some i ∧ (stepBranch s).finish.1 = controlDone c s) ∨
      s.tap = TapState.update.code ∧ (stepBranch s).finish.1 = leftUpdate (retire s) := by
  cases hcode : TapState.ofCode s.tap with
  | none => simp [stepBranch, hcode] at h
  | some t =>
    have ht := TapState.code_of_ofCode hcode
    rw [stepBranch_at ht] at h ⊢
    cases t with
    | idle =>
      rcases stepIdle_incomplete_or_control s with e | ⟨i, c, hc, e⟩
      · exact absurd (e.symm.trans h) Bool.false_ne_true
      · exact .inl ⟨i, c, ht, hc, congrArg Prod.fst e⟩
    | update => exact .inr ⟨ht, stepUpdate_of_completes h⟩
    | reset => simp [stepReset] at h
    | select => simp [stepSelect] at h
    | capture => simp [stepCapture] at h
    | shift => simp at h
    | exit1 => simp at h
    | pause => simp [stepPause] at h
    | exit2 => simp [stepExit2] at h

/-- Once a leg is completed, only those in the queue are left, and the engine is at rest or has the next one
pending. -/
theorem legsLeft_of_completes {s : State} (hl : LiveSound s) (h : (tapStep s).2 = true) :
    legsLeft (tapStep s).1 = s.queue.length ∧ legsLeft s = s.queue.length + 1 ∧
      (resting (tapStep s).1 = true ∨ stepsToLeg (tapStep s).1 = 0) := by
  rw [tapStep_live hl.fault] at h ⊢
  rcases completes_cases h with ⟨i, c, ht, hc, e⟩ | ⟨ht, e⟩ <;> rw [e]
  · obtain ⟨hlegs, hr⟩ := controlDone_ends (c := c) ht
    exact ⟨hlegs, legsLeft_pending hc, .inl hr⟩
  · obtain ⟨hc, -⟩ := (phaseSound_update ht).1 hl.phase
    obtain ⟨hlegs, hend⟩ := leftUpdate_ends (s := retire s) (by rw [retire_eq]; exact hc)
    exact ⟨hlegs.trans (by rw [retire_eq]), legsLeft_underway (by simp [resting, ht]), hend⟩

/-! ### Turns of the engine -/

theorem engineSound_tapSteps {s : State} (h : engineSound s = true) (k : Nat) :
    engineSound (tapSteps k s) = true := by
  induction k generalizing s with
  | zero => exact h
  | succ k ih => exact ih (engineSound_tapStep h)

theorem advances_tapSteps (k : Nat) (s : State) : Advances s (tapSteps k s) := by
  induction k generalizing s with
  | zero => exact .refl s
  | succ k ih => exact (advances_tapStep s).trans (ih _)

/-- A leg that is run leaves only those in the queue, or faults. -/
theorem exec_completes {u v : State} {i : Instr} (hl : LiveSound u) (hc : u.cur = some i)
    (h : exec i u = .next v) (hlive : v.fault = none) :
    legsLeft v < legsLeft u ∧ (resting v = true ∨ stepsToLeg v = 0) := by
  obtain ⟨k, -, hbefore, v', c, hstep, hcompletes, hexec⟩ := legRunsToCompletion i u hl.fault
  obtain rfl : v' = v := Host.Outcome.next.inj (hexec.symm.trans h)
  rw [show { u with cur := some i } = u by rw [← hc]] at hbefore hstep
  have hlast : LiveSound (tapSteps k u) := .of_engineSound (fault_tapSteps hl.fault fun j hj => (hbefore j hj).2)
    (engineSound_tapSteps hl.engineSound k)
  obtain ⟨hlegs, -, hend⟩ := legsLeft_of_completes hlast (by rw [hstep]; exact hcompletes.2 hlive)
  have hqueue := (advances_tapSteps k u).queue.length_le
  simp only [hstep] at hlegs hend
  exact ⟨by rw [legsLeft_pending hc]; omega, hend⟩

/-- Where the engine has no leg to run and the session is not drained: in RESET before the queue, or past the
last bit of a leg. -/
theorem tap_of_no_fetch {s : State} (hl : LiveSound s) (hfetch : fetch s = none)
    (hwork : resting s = true → s.cur = none → s.queue ≠ []) : s.cur = none ∧
      (s.tap = TapState.reset.code ∨ s.tap = TapState.exit1.code ∨ s.tap = TapState.pause.code ∨
        s.tap = TapState.exit2.code ∨ s.tap = TapState.update.code) := by
  obtain ⟨t, ht⟩ := exists_code_of_phaseSound hl.phase
  have hc : s.cur = none := by
    cases hc : s.cur with
    | none => rfl
    | some i => simp [fetch, hc] at hfetch
  have hleg : shiftLegCurrent (payloadLimit s.params) s ≠ true := by simp [shiftLegCurrent, hc]
  refine ⟨hc, ?_⟩
  cases t with
  | idle =>
    have hq : s.queue ≠ [] := hwork ((resting_iff s).2 (.inr ht)) hc
    obtain ⟨i, q, hq⟩ := List.exists_cons_of_ne_nil hq
    simp [fetch, hc, hq, ht] at hfetch
  | select => exact absurd ((phaseSound_select ht).1 hl.phase).1 hleg
  | capture => exact absurd ((phaseSound_capture ht).1 hl.phase).1 hleg
  | shift => exact absurd ((phaseSound_shift ht).symm.trans hl.phase) hleg
  | reset | exit1 | pause | exit2 | update => simp [ht]

/-- Nearer to the next leg or to the end of the one under way, with as many legs left; and at rest only if the
engine was. -/
structure Nearer (s t : State) : Prop where
  legs : legsLeft t = legsLeft s
  steps : stepsToLeg t < stepsToLeg s
  rest : resting t = true → resting s = true

/-- With no leg to run, a step that neither completes a leg nor faults brings the engine nearer. -/
theorem nearer_tapStep {s : State} (hl : LiveSound s) (hfetch : fetch s = none)
    (hwork : resting s = true → s.cur = none → s.queue ≠ []) (hrun : (tapStep s).2 = false)
    (hlive : (tapStep s).1.fault = none) : Nearer s (tapStep s).1 := by
  obtain ⟨hc, htap⟩ := tap_of_no_fetch hl hfetch hwork
  rw [tapStep_live hl.fault] at hrun hlive ⊢
  rcases htap with ht | ht | ht | ht | ht <;> rw [stepBranch_at ht] at hrun hlive ⊢
  · rw [stepReset, finish_onePulse_of_live hlive]
    constructor <;> simp [legsLeft, stepsToLeg, resting, ht, hc]
  · simp only [stepExit1] at hlive ⊢
    split at hlive
    · next hp =>
      rw [if_pos hp, finish_onePulse_of_live hlive]
      constructor <;> simp [legsLeft, stepsToLeg, resting, ht]
    · next hp =>
      rw [if_neg hp, finish_onePulse_of_live hlive]
      constructor <;> simp [legsLeft, stepsToLeg, resting, ht]
  · rw [stepPause, finish_onePulse_of_live hlive]
    constructor <;> simp [legsLeft, stepsToLeg, resting, ht]
  · rw [stepExit2, finish_onePulse_of_live hlive]
    constructor <;> simp [legsLeft, stepsToLeg, resting, ht]
  · exact absurd (hrun.symm.trans (stepUpdate_completes hlive)) Bool.false_ne_true

/-! ### Turns of an ADVANCE -/

/-- How the loop of ADVANCE goes on after a step: it ends at a fault, or at rest once a leg is completed. -/
theorem afterStep_cases (n : Nat) (c : Bool) (s : State) :
    (afterStep n c s = endCall s ∧ (s.fault ≠ none ∨ 1 ≤ n + c.toNat ∧ resting s = true)) ∨
      (afterStep n c s = { s with call := some (n + c.toNat) } ∧ s.fault = none ∧
        (n + c.toNat = 0 ∨ resting s = false)) := by
  unfold afterStep
  split
  · next hf => exact .inl ⟨rfl, .inl (Option.isSome_iff_ne_none.1 hf)⟩
  · next hf =>
    have hf : s.fault = none := by simpa using hf
    split
    · next hr => exact .inl ⟨rfl, .inr (by simpa using hr)⟩
    · next hr =>
      refine .inr ⟨rfl, hf, ?_⟩
      cases hrest : resting s
      · exact .inr rfl
      · exact .inl (by simpa [hrest] using hr)

/-- What a turn of an ADVANCE comes to: the call has ended, with a fault or with fewer legs left, or it goes on
nearer to its end. -/
structure TurnEnds (s t : State) : Prop where
  host : t.host = s.host
  ended : t.call = none → t.fault ≠ none ∨ legsLeft t < legsLeft s
  goesOn : t.call ≠ none → legsLeft t ≤ legsLeft s ∧ legsLeft t + stepsToLeg t < legsLeft s + stepsToLeg s

/-- After a step that completes a leg. -/
theorem turnEnds_completed {s t : State} {n : Nat} (hhost : t.host = s.host)
    (h : t.fault = none → legsLeft t < legsLeft s ∧ (resting t = true ∨ stepsToLeg t = 0)) :
    TurnEnds s (afterStep n true t) := by
  rcases afterStep_cases n true t with ⟨e, hend⟩ | ⟨e, hf, hcount⟩ <;> rw [e]
  · refine ⟨hhost, fun _ => ?_, fun hcall => absurd rfl hcall⟩
    by_cases hf : t.fault = none
    · exact .inr (h hf).1
    · exact .inl hf
  · obtain ⟨hlegs, hrest⟩ := h hf
    have hsteps : stepsToLeg t = 0 := hrest.resolve_left (by simpa using hcount)
    refine ⟨hhost, nofun, fun _ => ⟨hlegs.le, ?_⟩⟩
    show legsLeft t + stepsToLeg t < _
    omega

/-- After one that does not. -/
theorem turnEnds_nearer {s t : State} {n : Nat} (hhost : t.host = s.host)
    (hcount : n = 0 ∨ resting s = false) (h : t.fault = none → Nearer s t) :
    TurnEnds s (afterStep n false t) := by
  rcases afterStep_cases n false t with ⟨e, hend⟩ | ⟨e, hf, -⟩ <;> rw [e]
  · refine ⟨hhost, fun _ => .inl fun hf => ?_, fun hcall => absurd rfl hcall⟩
    obtain ⟨hn, hrest⟩ := hend.resolve_left (not_not_intro hf)
    rcases hcount with rfl | hs
    · cases hn
    · exact absurd (hs.symm.trans ((h hf).rest hrest)) Bool.false_ne_true
  · obtain ⟨hlegs, hsteps, -⟩ := h hf
    exact ⟨hhost, nofun, fun _ => ⟨hlegs.le, Nat.add_lt_add_of_le_of_lt hlegs.le hsteps⟩⟩

theorem legsLeft_fetch {s u : State} {i : Instr} (h : fetch s = some (i, u)) : legsLeft u = legsLeft s := by
  rcases fetch_eq_some h with ⟨-, rfl⟩ | ⟨hc, ht, hq, rfl⟩
  · rfl
  · rw [legsLeft_idle hc ((resting_iff s).2 (.inr ht)), legsLeft_popped (s := s) (qPop_cur s) (qPop_queue s)]
    exact .inr fun hnil => by simp [hnil] at hq

theorem fetch_host {s u : State} {i : Instr} (h : fetch s = some (i, u)) : u.host = s.host := by
  rcases fetch_eq_some h with ⟨-, rfl⟩ | ⟨-, -, -, rfl⟩
  · rfl
  · exact qPop_host s

theorem exec_host {i : Instr} {s t : State} (hf : s.fault = none) (h : exec i s = .next t) :
    t.host = s.host := by
  obtain rfl := Host.Outcome.next.inj ((exec_live hf).symm.trans h)
  exact runSteps_host ..

/-- In a sound session an ADVANCE in progress has a turn. -/
theorem exists_turn {s : State} {n : Nat} (hs : sound s = true) (hcall : s.call = some n) :
    ∃ t, step s = .next t ∧ TurnEnds s t := by
  obtain ⟨he, hcs⟩ := (sound_iff s).1 hs
  obtain ⟨hf, hcount, hwork⟩ := (callSound_of_some hcall).1 hcs
  have hl := LiveSound.of_engineSound hf he
  rw [step_of_call hcall]
  cases hfetch : fetch s with
  | none =>
    refine ⟨afterStep n (tapStep s).2 (tapStep s).1, by simp [engineTurn, hf, hfetch], ?_⟩
    cases hrun : (tapStep s).2 with
    | true =>
      refine turnEnds_completed (tapStep_host s) fun _ => ?_
      obtain ⟨hlegs, hbefore, hend⟩ := legsLeft_of_completes hl hrun
      exact ⟨by omega, hend⟩
    | false => exact turnEnds_nearer (tapStep_host s) hcount (nearer_tapStep hl hfetch hwork hrun)
  | some p =>
    obtain ⟨i, u⟩ := p
    obtain ⟨hu, huc⟩ := liveSound_fetch hl hfetch
    obtain ⟨v, hx, -⟩ := exec_current hu huc
    refine ⟨_, engineTurn_leg hf hfetch hx, turnEnds_completed ((exec_host hu.fault hx).trans (fetch_host hfetch))
      fun hlive => ?_⟩
    rw [← legsLeft_fetch hfetch]
    exact exec_completes hu huc hx hlive

/-- What an ADVANCE of a sound session returns with: the host's list as it was, and a fault or fewer legs
left. -/
structure Returned (s t : State) : Prop where
  call : t.call = none
  sound : sound t = true
  host : t.host = s.host
  legs : t.fault ≠ none ∨ legsLeft t < legsLeft s

/-- Every turn of a call is one nearer to its return. -/
theorem call_returns {s : State} (hs : sound s = true) (hcall : s.call ≠ none) :
    ∃ k t, k ≤ legsLeft s + stepsToLeg s + 1 ∧ Sys2Proof.core.run k s = .next t ∧ Returned s t := by
  induction hm : legsLeft s + stepsToLeg s using Nat.strong_induction_on generalizing s with
  | _ m ih =>
  obtain ⟨n, hn⟩ := Option.ne_none_iff_exists'.1 hcall
  obtain ⟨t, hstep, hturn⟩ := exists_turn hs hn
  have ht := sound_step hs hstep
  by_cases hc : t.call = none
  · exact ⟨1, t, by omega, run_step hstep rfl, hc, ht, hturn.host, hturn.ended hc⟩
  · obtain ⟨hle, hlt⟩ := hturn.goesOn hc
    obtain ⟨k, u, hk, hrun, hret⟩ := ih _ (hm ▸ hlt) ht hc rfl
    exact ⟨k + 1, u, by omega, run_step hstep hrun, hret.call, hret.sound, hret.host.trans hturn.host,
      hret.legs.imp_right fun h => h.trans_le hle⟩

/-- Between calls a sound session is at rest or faulted. -/
theorem fault_or_resting {s : State} (hs : sound s = true) (hc : s.call = none) :
    s.fault ≠ none ∨ resting s = true :=
  ((callSound_of_none hc).1 ((sound_iff s).1 hs).2).imp_left Option.isSome_iff_ne_none.1

/-- Settles O48: no more turns than there are legs left and steps to the next, and one more. -/
theorem advanceReturns : Obligations.AdvanceReturns := by
  intro s n hs hcall
  have hlegs := legsLeft_le s
  have hsteps := stepsToLeg_le s
  obtain ⟨k, t, hk, hrun, hret⟩ := call_returns hs (by simp [hcall])
  exact ⟨k, t, by omega, hrun, hret.call, fault_or_resting hret.sound hret.call⟩

/-! ### DRAIN -/

theorem step_drain {s : State} {rest : List HostAction} (hc : s.call = none) (hh : s.host = .drain :: rest) :
    step s = .next (drainPass rest s) := by
  rw [step_of_no_call hc, hostTurn, hh]

/-- The session runs to the end of DRAIN, faulted or drained, with the actions `rest` ahead of the host. -/
def DrainEnds (rest : List HostAction) (s : State) : Prop :=
  ∃ k t, Sys2Proof.core.run k s = .next t ∧ t.host = rest ∧ t.call = none ∧
    (t.fault ≠ none ∨ drained t = true)

/-- It is enough that DRAIN ends from where a run leads. -/
theorem DrainEnds.of_run {rest : List HostAction} {j : Nat} {s t : State} (h : DrainEnds rest t)
    (hrun : Sys2Proof.core.run j s = .next t) : DrainEnds rest s := by
  obtain ⟨k, u, hrun', hu⟩ := h
  exact ⟨k + j, u, run_run hrun hrun', hu⟩

/-- In a session that is faulted or drained DRAIN is over with its next pass. -/
theorem drainEnds_over {s : State} {rest : List HostAction} (hc : s.call = none)
    (hh : s.host = .drain :: rest) (h : s.fault ≠ none ∨ drained s = true) : DrainEnds rest s := by
  refine ⟨1, { s with host := rest }, run_step ((step_drain hc hh).trans ?_) rfl, rfl, hc, h⟩
  rw [drainPass, if_pos (by simpa [Option.isSome_iff_ne_none] using h)]

/-- Otherwise it calls ADVANCE. -/
theorem step_drain_advance {s : State} {rest : List HostAction} (hc : s.call = none)
    (hh : s.host = .drain :: rest) (hf : s.fault = none) (hd : drained s = false) :
    step s = .next (advance s) := by
  rw [step_drain hc hh, drainPass, if_neg (by simp [hf, hd])]

/-- From RESET the ADVANCE with nothing to do leaves the engine drained, or faults. -/
theorem drained_tapStep {s : State} (hf : s.fault = none) (ht : s.tap = TapState.reset.code)
    (hc : s.cur = none) (hq : s.queue = []) :
    (tapStep s).1.fault ≠ none ∨ drained (tapStep s).1 = true := by
  rw [tapStep_live hf, stepBranch_at ht, stepReset]
  rcases finish_onePulse false false s fun _ u => .done false (goTo .idle u) with e | e <;> rw [e]
  · exact .inr (by simp [drained_iff, hc, hq])
  · exact .inl (failAccess_fault_ne_none s)

/-- Settles O49, by induction on the legs left: each ADVANCE of DRAIN returns with a fault or with fewer, and the
one that finds nothing to do in RESET is the last. -/
theorem drainEndsDrained : Obligations.DrainEndsDrained := by
  intro s rest hs hc hh
  induction hn : legsLeft s using Nat.strong_induction_on generalizing s with
  | _ n ih =>
  by_cases hover : s.fault ≠ none ∨ drained s = true
  · exact drainEnds_over hc hh hover
  obtain ⟨hf, hd⟩ : s.fault = none ∧ drained s = false := by simpa using hover
  have hstep := step_drain_advance hc hh hf hd
  have hr := (fault_or_resting hs hc).resolve_left (not_not_intro hf)
  by_cases hwork : s.cur = none ∧ s.queue = []
  · obtain ⟨hcur, hq⟩ := hwork
    have ht : s.tap = TapState.reset.code := ((resting_iff s).1 hr).resolve_right fun ht => by
      simp [(drained_iff s).2 ⟨hq, hcur, ht⟩] at hd
    rw [advance_nothing hf hr hcur hq] at hstep
    exact (drainEnds_over (s := endCall (tapStep s).1) rfl ((tapStep_host s).trans hh)
      (drained_tapStep hf ht hcur hq)).of_run (run_step (k := 0) hstep rfl)
  · rw [advance_begins hf hwork] at hstep
    obtain ⟨k, t, -, hrun, hret⟩ := call_returns (sound_step hs hstep) (Option.some_ne_none 0)
    have hend : DrainEnds rest t := hret.legs.elim
      (fun hfault => drainEnds_over hret.call (hret.host.trans hh) (.inl hfault))
      (fun hlegs => ih _ (hn ▸ hlegs) t hret.sound hret.call (hret.host.trans hh) rfl)
    exact hend.of_run (run_step hstep hrun)

end Sys2Proof.Machine
end

section
/-! The mnemonic table (46_mnemonic.md): with an admissible P_MNEMONIC, `decode_mnemonic` reads one table, which
holds the two fixed entries and names no code and uses no name twice. -/

namespace Sys2Proof.Machine

variable {T : List (Nat × String)} {c : Nat} {name : String}

/-! ### Reading a table -/

/-- In a table that names no code twice, the name read for a code is the one it is listed with. -/
theorem tableName_eq_some_iff (hT : (T.map Prod.fst).Nodup) : tableName T c = some name ↔ (c, name) ∈ T := by
  have listed {n : String} (h : tableName T c = some n) : (c, n) ∈ T := by
    obtain ⟨before, after, rfl, -⟩ := List.lookup_eq_some_iff.1 h
    simp
  refine ⟨listed, fun h => ?_⟩
  have hsome : (tableName T c).isSome = true := List.lookup_isSome_iff.2 ⟨_, h, beq_self_eq_true c⟩
  obtain ⟨n, hn⟩ := Option.isSome_iff_exists.1 hsome
  cases List.inj_on_of_nodup_map hT (listed hn) h rfl
  exact hn

/-- No name is read for the codes a table does not list, and for no others. -/
theorem tableName_eq_none_iff : tableName T c = none ↔ ∀ name, (c, name) ∉ T := by
  simp only [tableName, List.lookup_eq_none_iff, Prod.forall, bne_iff_ne]
  exact ⟨fun h name hm => h c name hm rfl, fun h a b hm hc => h b (hc ▸ hm)⟩

/-! ### The whole mnemonic table -/

/-- The two fixed entries of R220, then those of P_MNEMONIC. -/
def mnemonicEntries (T : List (Nat × String)) : List (Nat × String) := (9, "IDCODE") :: (63, "BYPASS") :: T

/-- P_MNEMONIC is admissible when its entries are 6-bit codes with names and the whole table lists no code and
no name twice. -/
theorem admissibleMnemonics_iff : admissibleMnemonics T = true ↔
    (∀ e ∈ T, e.1 < 64 ∧ e.2 ≠ "") ∧
      ((mnemonicEntries T).map Prod.fst).Nodup ∧ ((mnemonicEntries T).map Prod.snd).Nodup := by
  simp only [mnemonicEntries, List.map_cons, List.nodup_cons, List.mem_cons, List.mem_map, not_or, not_exists,
    not_and, admissibleMnemonics, Bool.and_eq_true, List.all_eq_true, decide_eq_true_eq, forall_and]
  have hfixed : 9 ≠ 63 ∧ "IDCODE" ≠ "BYPASS" := by decide
  tauto

/-- `decode_mnemonic` reads the whole table: a code of more than 6 bits is in none that is admissible. -/
theorem decodeMnemonic_eq (hT : admissibleMnemonics T = true) :
    decodeMnemonic T c = (tableName (mnemonicEntries T) c).getD "" := by
  obtain ⟨hentry, -⟩ := admissibleMnemonics_iff.1 hT
  have hwide (hc : ¬ c < 64) : tableName T c = none :=
    tableName_eq_none_iff.2 fun _ h => hc (hentry _ h).1
  by_cases h9 : c = 9
  · simp [h9, decodeMnemonic, tableName, mnemonicEntries]
  by_cases h63 : c = 63
  · simp [h63, decodeMnemonic, tableName, mnemonicEntries, List.lookup]
  have hrest : tableName (mnemonicEntries T) c = tableName T c := by
    simp [tableName, mnemonicEntries, List.lookup_cons, beq_false_of_ne h9, beq_false_of_ne h63]
  rw [hrest, decodeMnemonic, if_neg h9, if_neg h63]
  split
  · rfl
  · simp [hwide ‹_›]

theorem decodeMnemonic_of_mem (hT : admissibleMnemonics T = true) (h : (c, name) ∈ mnemonicEntries T) :
    decodeMnemonic T c = name := by
  obtain ⟨-, hcodes, -⟩ := admissibleMnemonics_iff.1 hT
  rw [decodeMnemonic_eq hT, (tableName_eq_some_iff hcodes).2 h, Option.getD_some]

theorem decodeMnemonic_of_not_mem (hT : admissibleMnemonics T = true)
    (h : ∀ name, (c, name) ∉ mnemonicEntries T) : decodeMnemonic T c = "" := by
  rw [decodeMnemonic_eq hT, tableName_eq_none_iff.2 h, Option.getD_none]

/-- A code that has a name is listed with it. -/
theorem mem_of_decodeMnemonic_ne (hT : admissibleMnemonics T = true) (h : decodeMnemonic T c ≠ "") :
    (c, decodeMnemonic T c) ∈ mnemonicEntries T := by
  by_contra hc
  exact h (decodeMnemonic_of_not_mem hT fun name hm => hc (by rwa [decodeMnemonic_of_mem hT hm]))

/-- Settles O10: each clause says where a code stands in the whole table, or that it does not. -/
theorem mnemonicTableEntries : Obligations.MnemonicTableEntries := by
  intro T c hT
  refine ⟨decodeMnemonic_of_mem hT (by simp [mnemonicEntries]),
    decodeMnemonic_of_mem hT (by simp [mnemonicEntries]),
    fun name h => decodeMnemonic_of_mem hT (by simp [mnemonicEntries, h]),
    fun h9 h63 h => decodeMnemonic_of_not_mem hT (by simp [mnemonicEntries, h9, h63, h])⟩

/-- Settles O11: both codes are listed with the name, and the whole table uses no name twice. -/
theorem mnemonicsAreOneToOne : Obligations.MnemonicsAreOneToOne := by
  intro T c d hT hname hne
  obtain ⟨-, -, hnames⟩ := admissibleMnemonics_iff.1 hT
  have hc := mem_of_decodeMnemonic_ne hT hne
  have hd := mem_of_decodeMnemonic_ne hT (hname ▸ hne)
  exact congrArg Prod.fst (List.inj_on_of_nodup_map hnames hc hd hname)

end Sys2Proof.Machine
end

section
/-! The faulted session and the new one (60_exceptions.md R238, R241): what is refused once the fault register
is set, that no step but a new session writes a register then, and what a new session starts with. -/

namespace Sys2Proof.Machine

/-! ### What is refused (R238 point 4, R211) -/

section faulted
variable {s : State} (hf : s.fault ≠ none)
include hf

theorem enqueueLeg_faulted (i : Instr) : enqueueLeg i s = refuse .faulted s :=
  if_pos (Option.isSome_iff_ne_none.2 hf)

theorem advance_faulted : advance s = refuse .faulted s :=
  if_pos (Option.isSome_iff_ne_none.2 hf)

theorem pulseResetOp_faulted : pulseResetOp s = refuse .faulted s :=
  if_pos (Option.isSome_iff_ne_none.2 hf)

/-- In a faulted session the loop of DRAIN is over. -/
theorem drainPass_faulted (rest : List HostAction) : drainPass rest s = { s with host := rest } := by
  simp [drainPass, Option.isSome_iff_ne_none.2 hf]

theorem exec_faulted (i : Instr) : exec i s = .fault .noStepEnabled := by
  rw [exec_eq_runLeg, runLeg, if_pos (Option.isSome_iff_ne_none.2 hf)]

theorem engineTurn_faulted (n : Nat) : engineTurn n s = .next (endCall s) :=
  if_pos (Option.isSome_iff_ne_none.2 hf)

end faulted

theorem hostAction_pulseReset {s : State} (hc : s.call = none) :
    hostAction .pulseReset s = .next (pulseResetOp s) := by
  simp [hostAction, hc]

/-- Settles O41: each of the three operations looks at the fault register first, and so do a leg and
`Step()`. -/
theorem faultedSessionRefuses : Obligations.FaultedSessionRefuses := by
  intro s e i h ws hc hf r
  have hne : s.fault ≠ none := by simp [hf]
  refine ⟨?_, ?_, ?_, ?_, exec_faulted hne i, tapStep_faulted (Option.isSome_iff_ne_none.2 hne)⟩
  · rw [hostAction_enqueueLeg hc, enqueueLeg_faulted hne]
    rfl
  · rw [hostAction_enqueue hc, enqueueDescriptor_faulted ws hne]
    rfl
  · rw [hostAction_advance hc, advance_faulted hne]
    rfl
  · rw [hostAction_pulseReset hc, pulseResetOp_faulted hne]
    rfl

/-! ### What may still change (R238 point 1) -/

/-- From `s` to `t` only the host's list, the replies and the call in progress may have changed: no register
of the session, not the trace, the lines, the parameters or the draws. -/
def Frozen (s t : State) : Prop := ∃ h r c, t = { s with host := h, replies := r, call := c }

theorem Frozen.trans {s t u : State} (h : Frozen s t) (h' : Frozen t u) : Frozen s u := by
  obtain ⟨_, _, _, rfl⟩ := h
  obtain ⟨a, r, c, rfl⟩ := h'
  exact ⟨a, r, c, rfl⟩

theorem frozen_host (rest : List HostAction) (s : State) : Frozen s { s with host := rest } :=
  ⟨rest, s.replies, s.call, rfl⟩

theorem frozen_reply (r : Reply) (s : State) : Frozen s (reply r s) :=
  ⟨s.host, s.replies ++ [r], s.call, rfl⟩

theorem frozen_endCall (s : State) : Frozen s (endCall s) :=
  ⟨s.host, s.replies ++ [.advanced s.fault], none, rfl⟩

theorem frozen_readLastReadout (s : State) : Frozen s (readLastReadout s) := by
  unfold readLastReadout
  split
  · exact frozen_reply _ s
  · exact frozen_reply _ s

/-- An outcome that is a state in which nothing but those has changed. -/
theorem Frozen.of_next {s v t : State} (hv : Frozen s v)
    (h : (.next v : Host.Outcome State Fault Refusal) = .next t) : Frozen s t := by
  cases h; exact hv

/-- An outcome that is a refusal. -/
theorem Frozen.of_refused {s v t : State} {e : ErrorCode} (hv : v = refuse e s)
    (h : (.next v : Host.Outcome State Fault Refusal) = .next t) : Frozen s t := by
  subst hv
  exact (frozen_reply _ s).of_next h

/-- In a faulted session every action of the host but a new session only replies. -/
theorem frozen_hostAction {a : HostAction} {s t : State} (hf : s.fault ≠ none) (ha : a ≠ .newSession)
    (h : hostAction a s = .next t) : Frozen s t := by
  unfold hostAction at h
  split at h
  · exact (frozen_reply _ s).of_next h
  · cases a with
    | enqueueLeg i => exact .of_refused (enqueueLeg_faulted hf i) h
    | enqueue w ws => exact .of_refused rfl ((enqueueDescriptor_faulted ws hf).symm.trans h)
    | advance => exact .of_refused (advance_faulted hf) h
    | pulseReset => exact .of_refused (pulseResetOp_faulted hf) h
    | readResults => exact (frozen_reply _ s).of_next h
    | readLastReadout => exact (frozen_readLastReadout s).of_next h
    | readStatus => exact (frozen_reply _ s).of_next h
    | drain => exact (frozen_host s.host s).of_next ((congrArg _ (drainPass_faulted hf s.host)).symm.trans h)
    | newSession => exact absurd rfl ha

/-- Settles O55: a call in progress ends, and between calls the host's actions only reply. -/
theorem faultedSessionIsFrozen : Obligations.FaultedSessionIsFrozen := by
  intro s t e hf h hnew
  have hne : s.fault ≠ none := by simp [hf]
  show Frozen s t
  cases hc : s.call with
  | some n =>
    rw [step_of_call hc, engineTurn_faulted hne] at h
    exact (frozen_endCall s).of_next h
  | none =>
    obtain ⟨a, rest, hhost, rfl | ha⟩ := hostTurn_cases (hostTurn_of_step hc h)
    · rw [drainPass_faulted hne]
      exact frozen_host rest s
    · have hother : a ≠ .newSession := by simpa [hhost] using hnew hc
      exact (frozen_host rest s).trans (frozen_hostAction (by exact hne) hother ha)

/-! ### A new session (R241, R260) -/

/-- Settles O51: between calls the host's action is the new session, whatever the registers hold. -/
theorem newSessionIsReset : Obligations.NewSessionIsReset := by
  intro s hc
  simp only [hostAction, hc, Option.isSome_none, Bool.false_eq_true, if_false, newSession]

end Sys2Proof.Machine
end

section
/-! Where a failed access stops a step and a leg (60_exceptions.md R238, 41_phy.md R129): which pulses came
before it, and which writes stay. -/

namespace Sys2Proof.Machine

/-! ### The first access that fails -/

/-- A failed access in a session without a fault: E_PHY_IO, any line levels, one draw taken. -/
theorem exists_failAccess_eq {s : State} (hf : s.fault = none) :
    ∃ l, failAccess s = { s with fault := some .phyIo, lines := l, ioDraws := s.ioDraws.skip 1 } :=
  ⟨_, by rw [failAccess_eq, hf, Option.getD_none]⟩

/-- One access is the first to fail. -/
theorem first_failure_unique {s : State} {j k : Nat} (hj : accessesSucceed j s = true)
    (hjf : failsAt s j = true) (hk : accessesSucceed k s = true) (hkf : failsAt s k = true) : j = k := by
  rw [accessesSucceed_iff] at hj hk
  rcases Nat.lt_trichotomy j k with h | h | h
  · simp [hk j h] at hjf
  · exact h
  · simp [hj k h] at hkf

/-- A step that ends with E_PHY_IO was stopped in its branch. -/
theorem exists_stopped_of_phyIo {s : State} (hf : s.fault = none)
    (h : (tapStep s).1.fault = some .phyIo) :
    ∃ t, stepBranch s = .stopped t ∧ tapStep s = (t, false) := by
  have hend := stepEnd_stepBranch hf
  rw [tapStep_live hf] at h ⊢
  cases hb : stepBranch s with
  | stopped t => exact ⟨t, rfl, rfl⟩
  | done c t =>
    rw [hb] at hend h
    cases hend with
    | done _ fault => simp [fault] at h

/-! ### Outside UPDATE -/

/-- If the branch `x` of state `s` is stopped by a failed access, then at the first access that fails, with
the pulses before it made, all of them mode=1, and nothing else written. -/
def StopsAtPulse (s : State) (x : Phy Bool) : Prop :=
  ∀ t, x = .stopped t → t.fault = some .phyIo → ∃ k < stepPulses s, accessesSucceed k s = true ∧
    failsAt s k = true ∧ t = failAccess (afterPulses (List.replicate k (false, true)) s)

section outside
variable {s : State}

theorem stopsAtPulse_done (c : Bool) (t : State) : StopsAtPulse s (.done c t) := by
  intro _ h
  cases h

/-- E_INTERNAL is no failed access. -/
theorem stopsAtPulse_internal (hf : s.fault = none) : StopsAtPulse s (.stopped (raise .internal s)) := by
  intro t h hfault
  cases h
  simp [hf] at hfault

/-- Stopped at its first access, a step has written nothing. -/
theorem stopsAtPulse_first (pulses : 1 = stepPulses s) (h0 : failsAt s 0 = true) :
    StopsAtPulse s (.stopped (failAccess s)) := by
  intro t h _
  cases h
  exact ⟨0, by omega, rfl, h0, by rw [List.replicate_zero, afterPulses_nil]⟩

theorem stopsAtPulse_onePulse {b m c : Bit} {f : State → State} (pulses : 1 = stepPulses s) :
    StopsAtPulse s ((pulseW b m s).andThen fun _ u => .done c (f u)) := by
  rcases onePulse_cases (b := b) (m := m) (s := s) (f := fun _ u => .done c (f u)) with
    ⟨-, e⟩ | ⟨h0, e⟩ <;> rw [e]
  · exact stopsAtPulse_done _ _
  · exact stopsAtPulse_first pulses h0

theorem stopsAtPulse_pulseTimes {n : Nat} {c : Bool} {f : State → State} (pulses : n = stepPulses s) :
    StopsAtPulse s ((pulseTimes false true n s).andThen fun _ u => .done c (f u)) := by
  rcases pulseTimes_cases false true n s with ⟨-, e⟩ | ⟨k, hk, ha, hfail, e⟩ <;> rw [e]
  · exact stopsAtPulse_done _ _
  · intro t h _
    cases h
    exact ⟨k, pulses ▸ hk, ha, hfail, rfl⟩

theorem stopsAtPulse_idle (ht : s.tap = TapState.idle.code) : StopsAtPulse s (stepBranch s) := by
  cases hc : s.cur with
  | none =>
    rw [stepBranch_idle_none ht hc, idleNoLeg]
    cases hq : s.queue with
    | nil => exact stopsAtPulse_onePulse (f := id) (by simp [stepPulses, ht, hc, hq])
    | cons i q => exact stopsAtPulse_done _ _
  | some i =>
    have pulses := stepPulses_idle ht hc
    cases hr : kindRow i.kind with
    | shift r =>
      rw [stepBranch_idle_shift ht hc hr]
      exact stopsAtPulse_pulseTimes (by rw [pulses, hr, idlePulses])
    | control c =>
      rw [stepBranch_idle_control ht hc hr]
      rw [hr] at pulses
      cases c with
      | resetBurst => exact stopsAtPulse_pulseTimes (f := fun u => qPop (goTo .reset u)) pulses.symm
      | longDelay => exact stopsAtPulse_done _ _
      | idleClock => exact stopsAtPulse_onePulse pulses.symm

theorem stopsAtPulse_shift (hf : s.fault = none) (ht : s.tap = TapState.shift.code) :
    StopsAtPulse s (stepBranch s) := by
  by_cases hi : InternalState s
  · rw [stepBranch_of_internal hi]
    exact stopsAtPulse_internal hf
  · obtain ⟨i, r, b, rest, hc, hr, htake⟩ := exists_bit_of_not_internal ht hi
    rw [stepBranch_shift ht hc hr htake]
    rcases shiftBit_cases r i b rest s with ⟨-, e⟩ | ⟨h0, e⟩ <;> rw [e]
    · exact stopsAtPulse_done _ _
    · exact stopsAtPulse_first (by simp [stepPulses, ht]) h0

theorem stopsAtPulse_exit1 (ht : s.tap = TapState.exit1.code) : StopsAtPulse s (stepBranch s) := by
  have pulses : 1 = stepPulses s := by simp [stepPulses, ht]
  rw [stepBranch_exit1 ht]
  split
  · exact stopsAtPulse_onePulse (f := fun u => clearPause (goTo .pause u)) pulses
  · exact stopsAtPulse_onePulse pulses

theorem stopsAtPulse_stepBranch (hf : s.fault = none) (hne : s.tap ≠ TapState.update.code) :
    StopsAtPulse s (stepBranch s) := by
  cases hcode : TapState.ofCode s.tap with
  | none =>
    rw [stepBranch_of_internal (.inl ((TapState.ofCode_eq_none_iff _).1 hcode))]
    exact stopsAtPulse_internal hf
  | some t =>
    have ht := TapState.code_of_ofCode hcode
    cases t with
    | idle => exact stopsAtPulse_idle ht
    | shift => exact stopsAtPulse_shift hf ht
    | exit1 => exact stopsAtPulse_exit1 ht
    | update => exact absurd ht hne
    | reset | select | pause | exit2 =>
      rw [stepBranch_at ht]
      exact stopsAtPulse_onePulse (by simp [stepPulses, ht])
    | capture =>
      rw [stepBranch_at ht]
      exact stopsAtPulse_onePulse (f := fun u => goTo .shift { u with acc := [] }) (by simp [stepPulses, ht])

end outside

/-! ### In UPDATE (R150, R151) -/

/-- UPDATE stopped by a failed access: the capture is retired, and of the shortcut there is what came before
that access. -/
theorem stepUpdate_stopped {s t : State} (hf : s.fault = none) (h : stepUpdate s = .stopped t)
    (hfault : t.fault = some .phyIo) : ∃ k, accessesSucceed k s = true ∧ failsAt s k = true ∧
      t = failAccess (leavingUpdate (retire s) k) := by
  cases hr : resultsFull s with
  | true =>
    simp only [stepUpdate, hr, if_true] at h
    cases h
    simp [hf] at hfault
  | false =>
    simp only [stepUpdate, hr, Bool.false_eq_true, if_false] at h
    rcases leaveUpdate_cases (retire s) with ⟨-, e⟩ | ⟨k, -, ha, hfail, e⟩ <;> rw [e] at h <;> cases h
    refine ⟨k, ?_, by simpa using hfail, rfl⟩
    simpa [accessesSucceed_iff] using ha

/-! What UPDATE has written of leaving it, by the way it leaves and the access about to fail. -/

section leaving
variable {s : State} (k : Nat)

theorem leavingUpdate_never (hh : headShortcut s = .never) : leavingUpdate s k = s := by
  simp only [leavingUpdate, hh]

theorem leavingUpdate_dr {j : Instr} {q : List Instr} (hh : headShortcut s = .dr) (hq : s.queue = j :: q) :
    leavingUpdate s k = { s with cur := some j, queue := q, readback := j.kind.isReadback } := by
  simp only [leavingUpdate, hh, hq]
  rfl

theorem leavingUpdate_ir_zero (hh : headShortcut s = .ir) : leavingUpdate s 0 = s := by
  simp only [leavingUpdate, hh]

theorem leavingUpdate_ir_succ {j : Instr} {q : List Instr} (hh : headShortcut s = .ir)
    (hq : s.queue = j :: q) : leavingUpdate s (k + 1) = { afterPulses [(false, true)] s with
      cur := some j, queue := q, pause := if j.kind = .irPause then true else s.pause } := by
  have hpause : (decide (j.kind = .irPause) || s.pause) = if j.kind = .irPause then true else s.pause := by
    by_cases hk : j.kind = .irPause <;> simp [hk]
  simp only [leavingUpdate, hh, hq, ← hpause]
  rfl

end leaving

@[simp] theorem leavingUpdate_tap (s : State) (k : Nat) : (leavingUpdate s k).tap = s.tap := by
  unfold leavingUpdate
  split <;> rfl

@[simp] theorem retire_tap (s : State) : (retire s).tap = s.tap := by rw [retire_eq]

@[simp] theorem retire_queue (s : State) : (retire s).queue = s.queue := by rw [retire_eq]

/-- Settles O25: outside UPDATE the pulses before the failed access are all there is; in UPDATE the shortcut
says what has been written when its access fails. -/
theorem failedStepKeepsEarlierWrites : Obligations.FailedStepKeepsEarlierWrites := by
  intro s hf hfault
  obtain ⟨u, hb, hstep⟩ := exists_stopped_of_phyIo hf hfault
  rw [hstep] at hfault ⊢
  by_cases ht : s.tap = TapState.update.code
  · rw [stepBranch_at ht] at hb
    obtain ⟨k, ha, hfail, rfl⟩ := stepUpdate_stopped hf hb hfault
    obtain ⟨l, e⟩ := exists_failAccess_eq (s := leavingUpdate (retire s) k)
      (by rw [leavingUpdate_fault, retire_fault, hf])
    rw [e]
    refine ⟨rfl, by simp, absurd ht, fun _ => ⟨fun hh => ⟨l, ?_⟩, fun j q hq hh => ⟨l, ?_⟩,
      fun hh h0 => ⟨l, ?_⟩, fun j q hq hh h0 => ⟨l, ?_⟩⟩⟩ <;>
      rw [← headShortcut_retire] at hh
    · rw [leavingUpdate_never k hh, retire_eq]
    · rw [leavingUpdate_dr k hh ((retire_queue s).trans hq), isReadback_eq, retire_eq]
    · obtain rfl : k = 0 := first_failure_unique ha hfail rfl h0
      rw [leavingUpdate_ir_zero hh, retire_eq]
    · cases k with
      | zero => simp [h0] at hfail
      | succ k =>
        rw [leavingUpdate_ir_succ k hh ((retire_queue s).trans hq), retire_eq]
        simp [afterPulses, pulseEvents, tdoAt]
  · obtain ⟨k, hk, ha, hfail, rfl⟩ := stopsAtPulse_stepBranch hf ht _ hb hfault
    obtain ⟨l, e⟩ := exists_failAccess_eq (s := afterPulses (List.replicate k (false, true)) s) hf
    rw [e]
    refine ⟨rfl, rfl, fun _ => ⟨k, l, hk, ha, hfail, ?_⟩, fun h => absurd h ht⟩
    simp [afterPulses]

end Sys2Proof.Machine
end

section
/-! A shift leg stopped by its first failed access (60_exceptions.md R238, 43_shift_legs.md R170): step by step
from UPDATE back to IDLE, the run of the leg ends at that access with the events of the pulses before it. -/

namespace Sys2Proof.Machine

/-! ### Pulses made, and the access that fails after them -/

/-- From `s` to `u` the pulses `ds` were made: the trace and the draws say so, whatever registers were written
besides, the fault register not among them. -/
structure PulsesMade (ds : List Drive) (s u : State) : Prop where
  fault : u.fault = s.fault
  trace : u.trace = (afterPulses ds s).trace
  tdoDraws : u.tdoDraws = (afterPulses ds s).tdoDraws
  ioDraws : u.ioDraws = (afterPulses ds s).ioDraws

/-- From `s` to `t` the pulses `ds` were made, and then an access failed. -/
structure StoppedAfter (ds : List Drive) (s t : State) : Prop where
  fault : t.fault = some .phyIo
  trace : t.trace = (afterPulses ds s).trace
  ioDraws : t.ioDraws = s.ioDraws.skip (ds.length + 1)

/-- Writes that leave the fault register, the trace and the draws make no pulse. -/
theorem PulsesMade.nil {s u : State} (hf : u.fault = s.fault) (ht : u.trace = s.trace)
    (hd : u.tdoDraws = s.tdoDraws) (hi : u.ioDraws = s.ioDraws) : PulsesMade [] s u := by
  refine ⟨hf, ?_, ?_, ?_⟩ <;> rwa [afterPulses_nil]

theorem pulseEvents_congr {s t : State} (h : t.tdoDraws = s.tdoDraws) (ds : List Drive) :
    pulseEvents t ds = pulseEvents s ds := by
  simp only [pulseEvents, tdoAt_congr h]

theorem pulseEvents_take (s : State) (ds : List Drive) (k : Nat) :
    pulseEvents s (ds.take k) = (pulseEvents s ds).take k := by
  apply List.ext_getElem?
  intro j
  by_cases h : j < k <;> simp [pulseEvents, h]

section made
variable {ds es : List Drive} {s u : State} (h : PulsesMade ds s u)
include h

theorem PulsesMade.failsAt (k : Nat) : failsAt u k = failsAt s (ds.length + k) := by
  rw [failsAt_congr h.ioDraws, failsAt_afterPulses]

/-- More pulses, made from `u` on, are made from where `ds` leave. -/
theorem PulsesMade.trace_afterPulses (es : List Drive) :
    (afterPulses es u).trace = (afterPulses (ds ++ es) s).trace := by
  have hevents : pulseEvents u es = pulseEvents (afterPulses ds s) es := pulseEvents_congr h.tdoDraws es
  calc (afterPulses es u).trace
      _ = (afterPulses ds s).trace ++ pulseEvents (afterPulses ds s) es := by rw [← h.trace, ← hevents]; rfl
      _ = (afterPulses (ds ++ es) s).trace := by rw [afterPulses_append]; rfl

theorem PulsesMade.stoppedAfter (hf : s.fault = none) : StoppedAfter ds s (failAccess u) := by
  rw [failAccess_eq, h.fault, hf]
  exact ⟨rfl, h.trace, by simp [h.ioDraws, afterPulses]⟩

theorem StoppedAfter.of_made {t : State} (ht : StoppedAfter es u t) : StoppedAfter (ds ++ es) s t := by
  refine ⟨ht.fault, ht.trace.trans (h.trace_afterPulses es), ?_⟩
  rw [ht.ioDraws, h.ioDraws, List.length_append, Nat.add_assoc]
  exact Draws.skip_skip _ _ _

end made

/-! ### Runs that stop at their first failed access -/

/-- A run of `n` steps from `s` that is about to make the pulses `ds` stops at the first access among theirs
that fails. -/
def StopsAtFailure (n : Nat) (ds : List Drive) (s : State) : Prop :=
  ∀ k < ds.length, accessesSucceed k s = true → failsAt s k = true →
    StoppedAfter (ds.take k) s (runSteps n s)

theorem runSteps_stopped {n : Nat} {s u : State} (hf : s.fault = none)
    (hb : stepBranch s = .stopped (failAccess u)) : runSteps (n + 1) s = failAccess u := by
  rw [runSteps_succ, tapStep_live hf, hb]
  simp [Option.isSome_iff_ne_none.2 (failAccess_fault_ne_none u)]

/-- A step with the pulses `ds`, and then a run with the pulses `es`. -/
theorem StopsAtFailure.step {n : Nat} {ds es : List Drive} {s u : State} (hf : s.fault = none)
    (hstop : StopsAtFailure (n + 1) ds s)
    (hdone : accessesSucceed ds.length s = true → stepBranch s = .done false u) (hu : PulsesMade ds s u)
    (hrun : StopsAtFailure n es u) : StopsAtFailure (n + 1) (ds ++ es) s := by
  intro k hk ha hfail
  by_cases hlt : k < ds.length
  · rw [List.take_append_of_le_length hlt.le]
    exact hstop k hlt ha hfail
  · obtain ⟨j, rfl⟩ := Nat.exists_eq_add_of_le (not_lt.1 hlt)
    have hj : accessesSucceed j u = true := by
      rw [accessesSucceed_iff] at ha ⊢
      exact fun m hm => (hu.failsAt m).trans (ha _ (by omega))
    have hlive : u.fault = none := hu.fault.trans hf
    rw [List.take_length_add_append, runSteps_more hf (hdone (accessesSucceed_mono ha (by omega))) hlive]
    rw [List.length_append] at hk
    exact .of_made hu (hrun j (by omega) hj ((hu.failsAt j).trans hfail))

/-- A step of one access, and then a run. -/
theorem StopsAtFailure.oneAccess {n : Nat} {d : Drive} {es : List Drive} {s u : State} (hf : s.fault = none)
    (hstop : failsAt s 0 = true → stepBranch s = .stopped (failAccess s))
    (hdone : failsAt s 0 = false → stepBranch s = .done false u) (hu : PulsesMade [d] s u)
    (hrun : StopsAtFailure n es u) : StopsAtFailure (n + 1) (d :: es) s := by
  refine .step (ds := [d]) hf (fun k hk _ hfail => ?_) (fun ha => hdone ?_) hu hrun
  · obtain rfl : k = 0 := by simpa using hk
    rw [runSteps_stopped hf (hstop hfail)]
    exact (PulsesMade.nil rfl rfl rfl rfl).stoppedAfter hf
  · exact (accessesSucceed_iff _ _).1 ha 0 (by simp)

theorem StopsAtFailure.onePulse {n : Nat} {b m : Bit} {es : List Drive} {s : State} {f : State → State}
    (hf : s.fault = none) (hb : stepBranch s = (pulseW b m s).andThen fun _ u => .done false (f u))
    (hu : PulsesMade [(b, m)] s (f (afterPulses [(b, m)] s)))
    (hrun : StopsAtFailure n es (f (afterPulses [(b, m)] s))) : StopsAtFailure (n + 1) ((b, m) :: es) s := by
  refine .oneAccess hf (fun h0 => ?_) (fun h0 => ?_) hu hrun
  · rw [hb, pulseW_stopped h0, Phy.andThen_stopped]
  · rw [hb, pulseW_done h0, Phy.andThen_done, pulsed_eq_afterPulses]

/-! ### From UPDATE back to IDLE -/

/-- UPDATE has made its pulses up to the access that is about to fail. -/
theorem pulsesMade_leavingUpdate {s : State} {k : Nat} (hk : k < (leaveDrives s).length) :
    PulsesMade ((leaveDrives s).take k) s (leavingUpdate s k) := by
  cases hh : headShortcut s <;> simp only [leaveDrives, hh, List.length_cons, List.length_nil] at hk ⊢
  case never =>
    obtain rfl : k = 0 := by omega
    rw [leavingUpdate_never 0 hh]
    exact .nil rfl rfl rfl rfl
  case dr =>
    obtain rfl : k = 0 := by omega
    simp only [leavingUpdate, hh]
    exact .nil rfl rfl rfl rfl
  case ir =>
    obtain rfl | rfl : k = 0 ∨ k = 1 := by omega
    · rw [leavingUpdate_ir_zero hh]
      exact .nil rfl rfl rfl rfl
    · simp only [leavingUpdate, hh]
      exact ⟨rfl, rfl, rfl, rfl⟩

theorem pulsesMade_retire (s : State) : PulsesMade [] s (retire s) := by
  rw [retire_eq]
  exact .nil rfl rfl rfl rfl

theorem stopsAtFailure_update {s : State} (hf : s.fault = none) (hr : resultsFull s = false)
    (ht : s.tap = TapState.update.code) (n : Nat) : StopsAtFailure (n + 1) (leaveDrives s) s := by
  intro k hk ha hfail
  have hretired : accessesSucceed k (retire s) = true := by simpa [accessesSucceed_iff] using ha
  have hretfail : failsAt (retire s) k = true := by simpa using hfail
  rcases leaveUpdate_cases (retire s) with ⟨hall, -⟩ | ⟨j, hj, hja, hjfail, e⟩
  · rw [accessesSucceed_iff] at hall
    simp [hall k (by simpa using hk)] at hretfail
  · obtain rfl : j = k := first_failure_unique hja hjfail hretired hretfail
    have hb : stepBranch s = .stopped (failAccess (leavingUpdate (retire s) j)) := by
      rw [stepBranch_at ht]
      simpa [stepUpdate, hr] using e
    have hlast := (pulsesMade_leavingUpdate hj).stoppedAfter (by simpa using hf)
    rw [leaveDrives_retire] at hlast
    rw [runSteps_stopped hf hb]
    exact .of_made (pulsesMade_retire s) hlast

theorem stopsAtFailure_exit2 {s : State} (hf : s.fault = none) (hr : resultsFull s = false)
    (ht : s.tap = TapState.exit2.code) (n : Nat) :
    StopsAtFailure (n + 2) ((false, true) :: leaveDrives s) s :=
  .onePulse hf (stepBranch_at ht) ⟨rfl, rfl, rfl, rfl⟩
    (stopsAtFailure_update (s := goTo .update (afterPulses [(false, true)] s)) hf hr rfl n)

theorem stopsAtFailure_pause {s : State} (hf : s.fault = none) (hr : resultsFull s = false)
    (ht : s.tap = TapState.pause.code) (n : Nat) :
    StopsAtFailure (n + 3) ((false, true) :: (false, true) :: leaveDrives s) s :=
  .onePulse hf (stepBranch_at ht) ⟨rfl, rfl, rfl, rfl⟩
    (stopsAtFailure_exit2 (s := goTo .exit2 (afterPulses [(false, true)] s)) hf hr rfl n)

/-- A shift leg of kind `k` is under way, up to EXIT1: no fault, room for its capture, and the pause flag of
its kind (42_tap_step.md R143). -/
structure LegUnderway (k : Kind) (s : State) : Prop where
  fault : s.fault = none
  room : resultsFull s = false
  pause : s.pause = decide (k = .irPause)

section underway
variable {k : Kind} {s : State} (h : LegUnderway k s)
include h

theorem stopsAtFailure_exit1 (ht : s.tap = TapState.exit1.code) (n : Nat) :
    StopsAtFailure (n + 4) (exitDrives k ++ leaveDrives s) s := by
  have hb := stepBranch_exit1 ht
  by_cases hk : k = .irPause
  · have hpause : s.pause = true := by simp [h.pause, hk]
    rw [if_pos hpause] at hb
    rw [hk]
    exact .onePulse (f := fun u => clearPause (goTo .pause u)) h.fault hb ⟨rfl, rfl, rfl, rfl⟩
      (stopsAtFailure_pause (s := clearPause (goTo .pause (afterPulses [(false, false)] s)))
        h.fault h.room rfl n)
  · have hpause : ¬ s.pause = true := by simp [h.pause, hk]
    rw [if_neg hpause] at hb
    rw [exitDrives, if_neg hk]
    exact .onePulse (f := goTo .update) h.fault hb ⟨rfl, rfl, rfl, rfl⟩
      (stopsAtFailure_update (s := goTo .update (afterPulses [(false, true)] s)) h.fault h.room rfl (n + 2))

end underway

/-- What a SHIFT step has done before its move: the pulse `d`, its sample kept if `keep` is set, `c` now the
pending leg (42_tap_step.md R146). -/
def shifted (keep : Bool) (d : Drive) (c : Option Instr) (s : State) : State :=
  { keepSample keep (tdoAt s 0) (afterPulses [d] s) with cur := c }

section shifted
variable (keep : Bool) (d : Drive) (c : Option Instr)

theorem pulsesMade_shifted (s : State) : PulsesMade [d] s (shifted keep d c s) := by
  cases keep <;> exact ⟨rfl, rfl, rfl, rfl⟩

theorem LegUnderway.shifted {k : Kind} {s : State} (h : LegUnderway k s) :
    LegUnderway k (shifted keep d c s) := by
  cases keep <;> exact ⟨h.fault, h.room, h.pause⟩

theorem leaveDrives_shifted (s : State) : leaveDrives (shifted keep d c s) = leaveDrives s := by
  cases keep <;> rfl

theorem shifted_tap (s : State) : (shifted keep d c s).tap = s.tap := by
  cases keep <;> rfl

end shifted

theorem leaveDrives_goTo (t : TapState) (s : State) : leaveDrives (goTo t s) = leaveDrives s := rfl

theorem PulsesMade.goTo {ds : List Drive} {s u : State} (h : PulsesMade ds s u) (t : TapState) :
    PulsesMade ds s (goTo t u) := ⟨h.fault, h.trace, h.tdoDraws, h.ioDraws⟩

theorem LegUnderway.goTo {k : Kind} {s : State} (h : LegUnderway k s) (t : TapState) :
    LegUnderway k (goTo t s) := ⟨h.fault, h.room, h.pause⟩

section shiftBit
variable {s : State} {i : Instr} {b : Bit} {rest : Bits} (r : ShiftRow)

theorem shiftBit_stopped (h0 : failsAt s 0 = true) : shiftBit r i b rest s = .stopped (failAccess s) := by
  rw [shiftBit, pulse_stopped h0, Phy.andThen_stopped]

theorem shiftBit_to_exit1 (h0 : failsAt s 0 = false) (hlast : i.payload.length = 1) :
    shiftBit r i b rest s = .done false (goTo .exit1 (shifted r.sampleFinal (b, true) none s)) := by
  rw [shiftBit_last h0 hlast, pulsed_eq_afterPulses, shifted]

theorem shiftBit_stays (h0 : failsAt s 0 = false) (hmore : i.payload.length ≠ 1) :
    shiftBit r i b rest s =
      .done false (shifted r.sampleNonFinal (b, false) (some (i.withPayload rest)) s) := by
  rw [shiftBit_more h0 hmore, pulsed_eq_afterPulses, shifted]

end shiftBit

/-- TMS is 1 on the last bit only. -/
theorem shiftDrives_cons (b : Bit) (bs : Bits) :
    shiftDrives (b :: bs) = (b, bs.isEmpty) :: shiftDrives bs := by
  cases bs <;> rfl

/-- A leg in SHIFT with a bit left makes the first of its pulses with it. -/
theorem exists_shiftBit {r : ShiftRow} {s : State} {i : Instr} (hr : kindRow i.kind = .shift r)
    (ht : s.tap = TapState.shift.code) (hc : s.cur = some i) (hne : i.payload ≠ []) :
    ∃ b rest, stepBranch s = shiftBit r i b rest s ∧ i.payload.length = rest.length + 1 ∧
      shiftDrives (legBits i.kind i.payload) = (b, rest.isEmpty) :: shiftDrives (legBits i.kind rest) := by
  obtain ⟨-, -, horder, -⟩ := kindRow_facts hr
  obtain ⟨b, rest, htake⟩ := takeBit_of_ne_nil r.order hne
  obtain ⟨hseq, hlen⟩ := takeBit_spec htake
  have hempty : (legBits i.kind rest).isEmpty = rest.isEmpty := by
    rw [Bool.eq_iff_iff, List.isEmpty_iff_length_eq_zero, List.isEmpty_iff_length_eq_zero, legBits_length]
  rw [horder, horder] at hseq
  exact ⟨b, rest, stepBranch_shift ht hc hr htake, hlen, by rw [hseq, shiftDrives_cons, hempty]⟩

/-- SHIFT takes a step for each bit left. -/
theorem stopsAtFailure_shift (n l : Nat) : ∀ {s : State} {i : Instr}, i.kind.isShift = true →
    LegUnderway i.kind s → s.tap = TapState.shift.code → s.cur = some i → i.payload.length = l + 1 →
    StopsAtFailure (n + 4 + (l + 1)) (shiftDrives (legBits i.kind i.payload) ++
      (exitDrives i.kind ++ leaveDrives s)) s := by
  induction l with
  | zero =>
    intro s i hs h ht hc hl
    obtain ⟨r, hr⟩ := (kindRow_isShift _).1 hs
    obtain ⟨b, rest, hb, hlen, hd⟩ := exists_shiftBit hr ht hc (List.ne_nil_of_length_eq_add_one hl)
    obtain rfl : rest = [] := by simpa [hl] using hlen.symm
    have hnone : legBits i.kind [] = [] := by simp [legBits]
    have hexit := stopsAtFailure_exit1 (s := goTo .exit1 (shifted r.sampleFinal (b, true) none s))
      ((h.shifted ..).goTo _) rfl n
    rw [leaveDrives_goTo, leaveDrives_shifted] at hexit
    rw [hd, hnone]
    exact .oneAccess h.fault (fun h0 => hb.trans (shiftBit_stopped r h0))
      (fun h0 => hb.trans (shiftBit_to_exit1 r h0 hl)) ((pulsesMade_shifted ..).goTo _) hexit
  | succ l ih =>
    intro s i hs h ht hc hl
    obtain ⟨r, hr⟩ := (kindRow_isShift _).1 hs
    obtain ⟨b, rest, hb, hlen, hd⟩ := exists_shiftBit hr ht hc (List.ne_nil_of_length_eq_add_one hl)
    obtain ⟨c, cs, rfl⟩ : ∃ c cs, rest = c :: cs :=
      List.exists_cons_of_length_eq_add_one (n := l) (by omega)
    have hrun := ih (i := i.withPayload (c :: cs))
      (s := shifted r.sampleNonFinal (b, false) (some (i.withPayload (c :: cs))) s) (by simpa using hs)
      (by simpa using h.shifted ..) ((shifted_tap ..).trans ht) rfl (by simp at hlen ⊢; omega)
    rw [leaveDrives_shifted, Instr.kind_withPayload, Instr.payload_withPayload] at hrun
    rw [hd]
    exact .oneAccess h.fault (fun h0 => hb.trans (shiftBit_stopped r h0))
      (fun h0 => hb.trans (shiftBit_stays r h0 (by omega))) (pulsesMade_shifted ..) hrun

section pending
variable {i : Instr} {s : State} (hs : i.kind.isShift = true) (hne : i.payload ≠ [])
  (h : LegUnderway i.kind s) (hc : s.cur = some i) (n : Nat)
include hs hne h hc

theorem stopsAtFailure_capture (ht : s.tap = TapState.capture.code) :
    StopsAtFailure (n + 4 + i.payload.length + 1)
      ((false, false) :: (shiftDrives (legBits i.kind i.payload) ++ (exitDrives i.kind ++ leaveDrives s))) s := by
  obtain ⟨l, hl⟩ := Nat.exists_eq_succ_of_ne_zero (mt List.length_eq_zero_iff.1 hne)
  rw [hl]
  have hshift := stopsAtFailure_shift n l hs
    (s := goTo .shift { afterPulses [(false, false)] s with acc := [] }) ⟨h.fault, h.room, h.pause⟩ rfl hc hl
  exact .onePulse (f := fun u => goTo .shift { u with acc := [] }) h.fault (stepBranch_at ht)
    ⟨rfl, rfl, rfl, rfl⟩ hshift

theorem stopsAtFailure_select (ht : s.tap = TapState.select.code) :
    StopsAtFailure (n + 4 + i.payload.length + 2) (bodyDrives i.kind i.payload ++ leaveDrives s) s := by
  rw [bodyDrives, List.append_assoc, List.append_assoc]
  have hcapture := stopsAtFailure_capture hs hne (s := goTo .capture (afterPulses [(false, false)] s))
    ⟨h.fault, h.room, h.pause⟩ hc n rfl
  exact .onePulse h.fault (stepBranch_at ht) ⟨rfl, rfl, rfl, rfl⟩ hcapture

end pending

/-- The step that enters a shift leg from IDLE stops at the first entry pulse that fails. -/
theorem stopsAtFailure_enter {r : ShiftRow} {s : State} (hf : s.fault = none)
    (hb : stepBranch s = enterFromIdle r s) (n : Nat) :
    StopsAtFailure (n + 1) (List.replicate r.entryPulses (false, true)) s := by
  intro k hk ha hfail
  rw [List.length_replicate] at hk
  have hstop : enterFromIdle r s =
      .stopped (failAccess (afterPulses (List.replicate k (false, true)) s)) := by
    rw [enterFromIdle, pulseTimes_stopped hk ha hfail, Phy.andThen_stopped]
  rw [runSteps_stopped hf (hb.trans hstop), List.take_replicate, Nat.min_eq_left hk.le]
  exact PulsesMade.stoppedAfter ⟨rfl, rfl, rfl, rfl⟩ hf

/-- IDLE makes the entry pulses in one step, with the flags of the leg's kind. -/
theorem stopsAtFailure_idle {i : Instr} {s : State} (hs : i.kind.isShift = true) (hne : i.payload ≠ [])
    (hf : s.fault = none) (hroom : resultsFull s = false) (ht : s.tap = TapState.idle.code)
    (hc : s.cur = some i) (hp : s.pause = false) (n : Nat) :
    StopsAtFailure (n + 4 + i.payload.length + 3) (legDrives i.kind i.payload (entryDrives i.kind) s) s := by
  obtain ⟨r, hr⟩ := (kindRow_isShift _).1 hs
  obtain ⟨-, -, -, hentry, hpause, -⟩ := kindRow_facts hr
  have hb := stepBranch_idle_shift ht hc hr
  have hdone : accessesSucceed (entryDrives i.kind).length s = true → stepBranch s =
      .done false (goTo .select (flagsOnIdleEntry r (afterPulses (entryDrives i.kind) s))) := fun ha => by
    rw [← hentry, List.length_replicate] at ha
    rw [hb, enterFromIdle_done ha, hentry]
  have hpaused : (flagsOnIdleEntry r (afterPulses (entryDrives i.kind) s)).pause =
      decide (i.kind = .irPause) := by
    rw [← hpause, ← hp]
    rfl
  have hselect := stopsAtFailure_select hs hne
    (s := goTo .select (flagsOnIdleEntry r (afterPulses (entryDrives i.kind) s)))
    ⟨hf, hroom, hpaused⟩ hc n rfl
  rw [legDrives, List.append_assoc]
  exact .step hf (hentry ▸ stopsAtFailure_enter hf hb _) hdone ⟨rfl, rfl, rfl, rfl⟩ hselect

/-- Settles O33: the run of the leg from IDLE stops at that access. -/
theorem legStopsAtFirstFailedAccess : Obligations.LegStopsAtFirstFailedAccess := by
  intro i s k hs hne hf ht hp hb hr hk ha hfail
  have hfuel : legFuel i = 1 + 4 + i.payload.length + 3 := by rw [legFuel]; omega
  obtain ⟨hfault, htrace, hio⟩ : StoppedAfter ((legDrives i.kind i.payload (entryDrives i.kind) s).take k)
      { s with cur := some i } (runSteps (legFuel i) { s with cur := some i }) :=
    hfuel ▸ stopsAtFailure_idle (s := { s with cur := some i }) hs hne hf hr ht rfl hp 1 k hk ha hfail
  refine ⟨_, exec_live hf, hfault, ?_, ?_⟩
  · rw [htrace, ← pulseEvents_take]
    rfl
  · rw [hio, List.length_take_of_le hk.le]

end Sys2Proof.Machine
end

section
/-! The target's controller under the engine's steps (70_reset_and_hazards.md R266): a controller that agrees
with the engine is taken by the line events of a step to one that agrees again. -/

namespace Sys2Proof.Machine

/-! ### Agreement, by the path -/

/-- The pending leg, if there is one, is of the path `dr`: of a DR kind or of another. -/
def OnPath (dr : Bool) (s : State) : Prop := ∀ i, s.cur = some i → i.kind.isDr = dr

theorem onPath_some {s : State} {i : Instr} (hc : s.cur = some i) (dr : Bool) :
    OnPath dr s ↔ i.kind.isDr = dr := by
  simp [OnPath, hc]

theorem onPath_none {s : State} (hc : s.cur = none) (dr : Bool) : OnPath dr s := by
  simp [OnPath, hc]

theorem exists_onPath (s : State) : ∃ dr, OnPath dr s := by
  cases hc : s.cur with
  | none => exact ⟨true, onPath_none hc true⟩
  | some i => exact ⟨i.kind.isDr, (onPath_some hc _).2 rfl⟩

/-- A controller agrees when it is where the engine's state lies on a path of the pending leg. -/
theorem targetAgrees_at {s : State} {t : TapState} (ht : s.tap = t.code) (q : IeeeState) :
    targetAgrees s q ↔ ∃ dr, OnPath dr s ∧ q = ieeeOf dr t := by
  cases hc : s.cur <;> simp [targetAgrees, OnPath, ht, hc]

/-! ### From one state of the engine to another -/

/-- The line events from `s` to `t` take each controller that agrees with `s` to one state, which agrees
with `t`. -/
def TargetFollows (s t : State) : Prop :=
  ∀ q, targetAgrees s q → ∃ r, (∀ r', ieeeAfter (gained s t) q r' ↔ r' = r) ∧ targetAgrees t r

/-- Without a line event the controller stays, and agrees with an engine that stays too. -/
theorem TargetFollows.of_still {s t : State} (trace : t.trace = s.trace) (tap : t.tap = s.tap)
    (cur : t.cur = s.cur) : TargetFollows s t := by
  intro q hq
  refine ⟨q, fun r => ?_, by simpa only [targetAgrees, tap, cur] using hq⟩
  rw [gained, trace, List.drop_length]
  rfl

/-- Events that move a controller by `move` follow the engine from `a` to `b`, if `move` takes the controller
of `a` on each path to that of `b` on a path of the leg then pending. -/
theorem TargetFollows.of_events {s t : State} {a b : TapState} {es : List LineEvent}
    {move : IeeeState → IeeeState} (hs : s.tap = a.code) (ht : t.tap = b.code)
    (trace : t.trace = s.trace ++ es) (edges : ∀ q r, ieeeAfter es q r ↔ r = move q)
    (path : ∀ dr, OnPath dr s → ∃ dr', OnPath dr' t ∧ move (ieeeOf dr a) = ieeeOf dr' b) :
    TargetFollows s t := by
  intro q hq
  obtain ⟨dr, hon, rfl⟩ := (targetAgrees_at hs q).1 hq
  obtain ⟨dr', hon', hmove⟩ := path dr hon
  refine ⟨move (ieeeOf dr a), fun r => ?_, (targetAgrees_at ht _).2 ⟨dr', hon', hmove⟩⟩
  rw [gained, trace, List.drop_left]
  exact edges _ r

/-- The controller state after pulses, edge by edge. -/
def ieeeEdges (ds : List Drive) (q : IeeeState) : IeeeState := ds.foldl (fun q d => ieeeNext d.2 q) q

/-- Pulses move a controller edge by edge. -/
theorem TargetFollows.of_pulses {s t : State} {a b : TapState} (ds : List Drive) (hs : s.tap = a.code)
    (ht : t.tap = b.code) (trace : t.trace = s.trace ++ pulseEvents s ds)
    (path : ∀ dr, OnPath dr s → ∃ dr', OnPath dr' t ∧ ieeeEdges ds (ieeeOf dr a) = ieeeOf dr' b) :
    TargetFollows s t :=
  .of_events hs ht trace (ieeeAfter_pulseEvents s ds) path

/-! ### The branches of `Step()` -/

/-- Where the branch `x` of state `s` ends without a failed access, the controller follows. -/
def StepFollows (s : State) (x : Phy Bool) : Prop :=
  x.finish.1.fault ≠ some .phyIo → TargetFollows s x.finish.1

theorem stepFollows_raise (s : State) (e : ErrorCode) : StepFollows s (.stopped (raise e s)) :=
  fun _ => .of_still (by simp) (by simp) (by simp)

section branches
variable {s : State} (hf : s.fault = none)
include hf

omit hf in
theorem stepFollows_failAccess {u : State} (hu : u.fault = none) : StepFollows s (.stopped (failAccess u)) :=
  fun hlive => absurd (failAccess_fault hu) hlive

/-- A step of one pulse. -/
theorem stepFollows_onePulse {tdi tms c : Bit} {f : State → State}
    (h : TargetFollows s (f (afterPulses [(tdi, tms)] s))) :
    StepFollows s ((pulseW tdi tms s).andThen fun _ u => .done c (f u)) := by
  rcases finish_onePulse tdi tms s fun _ u => .done c (f u) with e | e <;> rw [StepFollows, e]
  · exact fun _ => h
  · exact stepFollows_failAccess hf

/-- A step of one pulse that leaves the pending leg: on either path the edge is that of the move. -/
theorem stepFollows_move {tdi tms c : Bit} {f : State → State} {a b : TapState} (hs : s.tap = a.code)
    (tap : ∀ u, (f u).tap = b.code) (trace : ∀ u, (f u).trace = u.trace) (cur : ∀ u, (f u).cur = u.cur)
    (edge : ∀ dr, ieeeNext tms (ieeeOf dr a) = ieeeOf dr b) :
    StepFollows s ((pulseW tdi tms s).andThen fun _ u => .done c (f u)) := by
  refine stepFollows_onePulse hf (.of_pulses [(tdi, tms)] hs (tap _) (trace _) fun dr hon => ?_)
  exact ⟨dr, fun i hi => hon i ((cur (afterPulses [(tdi, tms)] s)).symm.trans hi), edge dr⟩

/-- A branch that is one pulse and a change of the TAP state. -/
theorem stepFollows_goTo {tdi tms c : Bit} {a b : TapState} (ht : s.tap = a.code)
    (hb : stepBranch s = (pulseW tdi tms s).andThen fun _ u => .done c (goTo b u))
    (edge : ∀ dr, ieeeNext tms (ieeeOf dr a) = ieeeOf dr b) : StepFollows s (stepBranch s) :=
  hb ▸ stepFollows_move hf ht (goTo_tap b) (fun _ => rfl) (fun _ => rfl) edge

/-- The entry pulses, one or two, lead to the path of the leg's kind. -/
theorem stepFollows_enterFromIdle {i : Instr} {r : ShiftRow} (ht : s.tap = TapState.idle.code)
    (hc : s.cur = some i) (hr : kindRow i.kind = .shift r) : StepFollows s (enterFromIdle r s) := by
  obtain ⟨-, -, -, hentry, -⟩ := kindRow_facts hr
  rcases enterFromIdle_cases r s with ⟨-, e⟩ | ⟨k, -, -, -, e⟩ <;> rw [e]
  · refine fun _ => .of_pulses (entryDrives i.kind) ht (goTo_tap .select _) (by rw [← hentry]; rfl) ?_
    refine fun dr _ => ⟨i.kind.isDr, (onPath_some hc _).2 rfl, ?_⟩
    cases hk : i.kind.isDr <;> simp [entryDrives, hk, ieeeEdges, ieeeOf, ieeeNext]
  · exact stepFollows_failAccess (by exact hf)

omit hf in
/-- A control leg ends in RESET or IDLE, which are the same on both paths. -/
theorem targetFollows_controlDone (c : ControlAction) (ht : s.tap = TapState.idle.code) :
    TargetFollows s (controlDone c s) := by
  obtain ⟨dr', hon'⟩ := exists_onPath (controlDone c s)
  cases c with
  | resetBurst =>
    exact .of_pulses (controlDrives .resetBurst) (b := .reset) ht (by simp [controlDone, controlMove])
      (by simp [controlDone, controlMove, afterPulses]) fun dr _ => ⟨dr', hon', resetBurst_edges _⟩
  | longDelay =>
    exact .of_events (es := [.delayLong]) (move := id) (b := .idle) ht
      (by simp [controlDone, controlMove, ht])
      (by simp [controlDone, controlMove, controlDrives, idlePulses, afterPulses_nil])
      (fun _ _ => Iff.rfl) fun dr _ => ⟨dr', hon', rfl⟩
  | idleClock =>
    exact .of_pulses (controlDrives .idleClock) (b := .idle) ht (by simp [controlDone, controlMove, ht])
      (by simp [controlDone, controlMove, afterPulses]) fun dr _ => ⟨dr', hon', rfl⟩

theorem stepFollows_controlStep (c : ControlAction) (ht : s.tap = TapState.idle.code) :
    StepFollows s (controlStep c s) := by
  rcases pulseTimes_cases false (decide (c = .resetBurst)) (idlePulses (.control c)) s with
    ⟨ha, -⟩ | ⟨k, hk, ha, hfail, -⟩
  · rw [controlStep_done ha]
    exact fun _ => targetFollows_controlDone c ht
  · rw [controlStep_stopped hk ha hfail]
    exact stepFollows_failAccess (by exact hf)

theorem stepFollows_idle (ht : s.tap = TapState.idle.code) : StepFollows s (stepBranch s) := by
  cases hc : s.cur with
  | none =>
    rw [stepBranch_idle_none ht hc, idleNoLeg]
    split
    · exact stepFollows_onePulse (f := id) hf (.of_pulses [(false, false)] ht ht rfl
        fun dr _ => ⟨dr, onPath_none hc dr, rfl⟩)
    · obtain ⟨dr', hon'⟩ := exists_onPath (qPop s)
      exact fun _ => .of_pulses [] ht ((qPop_tap s).trans ht) (by simp [pulseEvents])
        fun dr _ => ⟨dr', hon', rfl⟩
  | some i =>
    cases hr : kindRow i.kind with
    | shift r =>
      rw [stepBranch_idle_shift ht hc hr]
      exact stepFollows_enterFromIdle hf ht hc hr
    | control c =>
      rw [stepBranch_idle_control ht hc hr]
      exact stepFollows_controlStep hf c ht

/-- TMS 1 on the last bit leads to EXIT1, TMS 0 on the others keeps SHIFT, with a leg of the same kind. -/
theorem stepFollows_shift (ht : s.tap = TapState.shift.code) : StepFollows s (stepBranch s) := by
  by_cases hi : InternalState s
  · rw [stepBranch_of_internal hi]
    exact stepFollows_raise s _
  · obtain ⟨i, r, b, rest, hc, hr, htake⟩ := exists_bit_of_not_internal ht hi
    rw [stepBranch_shift ht hc hr htake]
    cases h0 : failsAt s 0 with
    | true =>
      rw [shiftBit_stopped r h0]
      exact stepFollows_failAccess hf
    | false =>
      by_cases hlast : i.payload.length = 1
      · rw [shiftBit_to_exit1 r h0 hlast]
        exact fun _ => .of_pulses [(b, true)] ht (goTo_tap .exit1 _)
          ((pulsesMade_shifted ..).goTo .exit1).trace fun dr _ => ⟨dr, onPath_none rfl dr, by cases dr <;> rfl⟩
      · rw [shiftBit_stays r h0 hlast]
        refine fun _ => .of_pulses [(b, false)] ht ((shifted_tap ..).trans ht) (pulsesMade_shifted ..).trace
          fun dr hon => ⟨dr, (onPath_some rfl dr).2 ?_, by cases dr <;> rfl⟩
        rw [Instr.kind_withPayload]
        exact (onPath_some hc dr).1 hon

theorem stepFollows_exit1 (ht : s.tap = TapState.exit1.code) : StepFollows s (stepBranch s) := by
  rw [stepBranch_exit1 ht]
  split
  · exact stepFollows_move (f := fun u => clearPause (goTo .pause u)) (b := .pause) hf ht (fun _ => rfl)
      (fun _ => rfl) (fun _ => rfl) (by decide)
  · exact stepFollows_move hf ht (goTo_tap .update) (fun _ => rfl) (fun _ => rfl) (by decide)

omit hf in
/-- UPDATE is left for IDLE, or by the pulses that lead to the path of the leg that the shortcut starts. -/
theorem targetFollows_leftUpdate (ht : s.tap = TapState.update.code) : TargetFollows s (leftUpdate s) := by
  obtain ⟨-, htrace⟩ := leftUpdate_fault_trace s
  cases hh : headShortcut s with
  | never =>
    simp only [leftUpdate, leaveDrives, hh] at htrace ⊢
    exact .of_pulses _ (b := .idle) ht rfl htrace fun dr hon => ⟨dr, hon, by cases dr <;> rfl⟩
  | dr | ir =>
    obtain ⟨j, q, hq⟩ := headShortcut_cons (s := s) (by simp [hh])
    obtain ⟨-, hdr⟩ := headShortcut_kind hq (by simp [hh])
    simp only [leftUpdate, leaveDrives, hh, hq] at htrace hdr ⊢
    refine .of_pulses _ (b := .select) ht rfl htrace fun dr _ => ⟨j.kind.isDr, (onPath_some rfl _).2 rfl, ?_⟩
    cases hk : j.kind.isDr <;> simp [hk] at hdr
    cases dr <;> rfl

theorem stepFollows_update (ht : s.tap = TapState.update.code) : StepFollows s (stepBranch s) := by
  rw [stepBranch_at ht]
  cases hr : resultsFull s with
  | true => simpa [stepUpdate, hr] using stepFollows_raise s .resultOverflow
  | false =>
    rcases stepUpdate_cases hr with e | ⟨k, -, -, e⟩ <;> simp only [e]
    · have hleft := targetFollows_leftUpdate ((retire_tap s).trans ht)
      rw [retire_eq] at hleft ⊢
      exact fun _ => hleft
    · exact stepFollows_failAccess (by rw [leavingUpdate_fault, retire_fault, hf])

theorem stepFollows_stepBranch : StepFollows s (stepBranch s) := by
  cases hcode : TapState.ofCode s.tap with
  | none =>
    rw [stepBranch_of_internal (.inl ((TapState.ofCode_eq_none_iff _).1 hcode))]
    exact stepFollows_raise s _
  | some t =>
    have ht := TapState.code_of_ofCode hcode
    cases t with
    | idle => exact stepFollows_idle hf ht
    | shift => exact stepFollows_shift hf ht
    | exit1 => exact stepFollows_exit1 hf ht
    | update => exact stepFollows_update hf ht
    | capture =>
      rw [stepBranch_at ht]
      exact stepFollows_move (f := fun u => goTo .shift { u with acc := [] }) hf ht (goTo_tap .shift)
        (fun _ => rfl) (fun _ => rfl) (by decide)
    | reset | select | pause | exit2 => exact stepFollows_goTo hf ht (stepBranch_at ht) (by decide)

end branches

/-- Settles O58: every branch of `Step()` drives the edges of its move, and a failed access loses the
controller. The engine need not be sound: the other faults leave it and the controller where they were. -/
theorem targetFollowsEngine : Obligations.TargetFollowsEngine := by
  intro s q _ hf hq
  refine ⟨fun hlive => ?_, fun hfault r => targetAfter_failed hf hfault q r⟩
  have hbranch := stepFollows_stepBranch hf
  rw [StepFollows, ← tapStep_live hf] at hbranch
  obtain ⟨r, hafter, hagrees⟩ := hbranch hlive q hq
  exact ⟨r, fun r' => (targetAfter_iff hlive q r').trans (hafter r'), hagrees⟩

end Sys2Proof.Machine
end

section
/-! The state after reset (70_reset_and_hazards.md R261), and what a leg does apart from the samples on TDO
(R263): two sessions that differ only in what came of the samples go on alike, step by step. -/

namespace Sys2Proof.Machine

/-- Settles O50: the registers of the one state after reset. -/
theorem registersAfterReset : Obligations.RegistersAfterReset :=
  ⟨rfl, rfl, rfl, rfl, rfl, rfl, rfl, rfl, rfl, rfl, rfl⟩

/-! ### States alike but for the samples -/

/-- The states `s` and `t` agree in every register but those that samples go to (the accumulator, the values
in the Result Store, the last readout), in what the trace drives, in the parameters and in which accesses will
fail. The samples to come and what belongs to the host are not compared. -/
structure AlikeButSamples (s t : State) : Prop where
  tap : t.tap = s.tap
  cur : t.cur = s.cur
  pause : t.pause = s.pause
  readback : t.readback = s.readback
  queue : t.queue = s.queue
  results : t.results.length = s.results.length
  lines : t.lines = s.lines
  fault : t.fault = s.fault
  drives : t.trace.map driven = s.trace.map driven
  params : t.params = s.params
  ioDraws : t.ioDraws = s.ioDraws

/-- How a piece of a step ends for one state and for the other: with the same value or both stopped, in states
that are alike. -/
inductive Phy.Alike {α : Type} : Phy α → Phy α → Prop
  | done (a : α) {s t : State} (h : AlikeButSamples s t) : Alike (.done a s) (.done a t)
  | stopped {s t : State} (h : AlikeButSamples s t) : Alike (.stopped s) (.stopped t)

/-- Pieces that end alike, and rests that do so after them. -/
theorem Phy.Alike.andThen {α β : Type} {x y : Phy α} {f g : α → State → Phy β}
    (hxy : x.Alike y) (hfg : ∀ a u v, AlikeButSamples u v → (f a u).Alike (g a v)) :
    (x.andThen f).Alike (y.andThen g) := by
  cases hxy with
  | done a h => exact hfg a _ _ h
  | stopped h => exact .stopped h

/-- Alike pieces of a step give the same completion bit. -/
theorem Phy.Alike.finish {x y : Phy Bool} (hxy : x.Alike y) :
    y.finish.2 = x.finish.2 ∧ AlikeButSamples x.finish.1 y.finish.1 := by
  cases hxy with
  | done a h => exact ⟨rfl, h⟩
  | stopped h => exact ⟨rfl, h⟩

/-- What pulses drive does not tell the samples. -/
theorem map_driven_pulseEvents (s : State) (ds : List Drive) :
    (pulseEvents s ds).map driven = ds.map fun d => .pulse d.1 d.2 false := by
  apply List.ext_getElem?
  simp [pulseEvents, driven, Function.comp_def]

namespace AlikeButSamples

section updates
variable {s t : State} (h : AlikeButSamples s t)
include h

/-! ### The updates of the state -/

theorem raise (e : ErrorCode) : AlikeButSamples (raise e s) (raise e t) := by
  unfold Machine.raise
  rw [h.fault]
  split
  · exact { h with fault := rfl }
  · exact h

theorem failAccess : AlikeButSamples (failAccess s) (failAccess t) := by
  rw [failAccess_eq, failAccess_eq, h.fault, h.ioDraws]
  exact { h with fault := rfl, lines := rfl, ioDraws := rfl }

theorem goTo (x : TapState) : AlikeButSamples (goTo x s) (goTo x t) := { h with tap := rfl }

theorem qPop : AlikeButSamples (qPop s) (qPop t) := by
  rw [qPop_eq, qPop_eq, h.queue]
  exact { h with cur := rfl, queue := rfl }

theorem delayLong : AlikeButSamples (delayLong s) (delayLong t) :=
  { h with drives := by simp [h.drives] }

theorem readbackOnShortcut (k : Kind) : AlikeButSamples (readbackOnShortcut k s) (readbackOnShortcut k t) :=
  { h with readback := rfl }

theorem flagsOnIdleEntry (r : ShiftRow) : AlikeButSamples (flagsOnIdleEntry r s) (flagsOnIdleEntry r t) :=
  { h with
    pause := congrArg r.pauseOnEntry.getD h.pause
    readback := congrArg r.readbackOnEntry.getD h.readback }

theorem pauseOnShortcut (k : Kind) : AlikeButSamples (pauseOnShortcut k s) (pauseOnShortcut k t) := by
  unfold Machine.pauseOnShortcut
  split
  · exact { h with pause := rfl }
  · exact h

/-- A pulse drives the same whatever it samples. -/
theorem afterPulses (ds : List Drive) : AlikeButSamples (afterPulses ds s) (afterPulses ds t) where
  __ := h
  lines := congrArg (linesAfter · ds) h.lines
  drives := by simp only [Machine.afterPulses, List.map_append, h.drives, map_driven_pulseEvents]
  ioDraws := congrArg (Draws.skip ds.length) h.ioDraws

/-- A sample goes to the accumulator, or nowhere. -/
theorem shifted (keep : Bool) (d : Drive) (c : Option Instr) :
    AlikeButSamples (shifted keep d c s) (shifted keep d c t) := by
  cases keep <;> exact { h.afterPulses [d] with cur := rfl }

/-- The value retired may differ, but it is one value. -/
theorem retire : AlikeButSamples (retire s) (retire t) := by
  rw [retire_eq, retire_eq]
  exact { h with readback := rfl, results := by simp [h.results] }

/-! ### The line primitives -/

theorem failsAt (k : Nat) : failsAt t k = failsAt s k := failsAt_congr h.ioDraws k

theorem pulseW (b m : Bit) : (pulseW b m s).Alike (pulseW b m t) := by
  have h0 := h.failsAt 0
  cases hs : Machine.failsAt s 0 with
  | true =>
    rw [pulseW_stopped hs, pulseW_stopped (h0.trans hs)]
    exact .stopped h.failAccess
  | false =>
    rw [pulseW_done hs, pulseW_done (h0.trans hs), pulsed_eq_afterPulses, pulsed_eq_afterPulses]
    exact .done () (h.afterPulses _)

theorem pulseTimes (b m : Bit) (n : Nat) : (pulseTimes b m n s).Alike (pulseTimes b m n t) := by
  induction n generalizing s t with
  | zero => exact .done () h
  | succ n ih => exact (h.pulseW b m).andThen fun _ _ _ hu => ih hu

/-! ### The branches of `Step()` -/

/-- A branch of one pulse. -/
theorem onePulse (b m c : Bit) {f : State → State}
    (hf : ∀ u v, AlikeButSamples u v → AlikeButSamples (f u) (f v)) :
    ((Machine.pulseW b m s).andThen fun _ u => .done c (f u)).Alike
      ((Machine.pulseW b m t).andThen fun _ u => .done c (f u)) :=
  (h.pulseW b m).andThen fun _ u v hu => .done c (hf u v hu)

theorem controlStep (c : ControlAction) : (controlStep c s).Alike (controlStep c t) := by
  cases c with
  | resetBurst => exact (h.pulseTimes _ _ _).andThen fun _ _ _ hu => .done true (hu.goTo .reset).qPop
  | longDelay => exact .done true h.delayLong.qPop
  | idleClock => exact h.onePulse _ _ _ fun _ _ hu => hu.qPop

theorem stepIdle : (stepIdle s).Alike (stepIdle t) := by
  unfold Machine.stepIdle
  rw [h.cur]
  split
  · unfold idleNoLeg
    rw [h.queue]
    split
    · exact h.onePulse (f := id) _ _ _ fun _ _ hu => hu
    · exact .done false h.qPop
  · split
    · exact (h.pulseTimes _ _ _).andThen fun _ _ _ hu => .done false ((hu.flagsOnIdleEntry _).goTo .select)
    · exact h.controlStep _

theorem shiftBit (r : ShiftRow) (i : Instr) (b : Bit) (rest : Bits) :
    (shiftBit r i b rest s).Alike (shiftBit r i b rest t) := by
  have h0 := h.failsAt 0
  cases hs : Machine.failsAt s 0 with
  | true =>
    rw [shiftBit_stopped r hs, shiftBit_stopped r (h0.trans hs)]
    exact .stopped h.failAccess
  | false =>
    by_cases hlast : i.payload.length = 1
    · rw [shiftBit_to_exit1 r hs hlast, shiftBit_to_exit1 r (h0.trans hs) hlast]
      exact .done false ((h.shifted _ _ _).goTo .exit1)
    · rw [shiftBit_stays r hs hlast, shiftBit_stays r (h0.trans hs) hlast]
      exact .done false (h.shifted _ _ _)

theorem stepShift : (stepShift s).Alike (stepShift t) := by
  unfold Machine.stepShift
  rw [h.cur]
  split
  · exact .stopped (h.raise _)
  · split
    · exact .stopped (h.raise _)
    · split
      · exact .stopped (h.raise _)
      · exact h.shiftBit _ _ _ _

theorem stepExit1 : (stepExit1 s).Alike (stepExit1 t) := by
  unfold Machine.stepExit1
  rw [h.pause]
  split
  · exact h.onePulse _ _ _ fun _ _ hu => { hu.goTo .pause with pause := rfl }
  · exact h.onePulse _ _ _ fun _ _ hu => hu.goTo .update

/-- The queue and the parameters alone decide how UPDATE is left. -/
theorem leaveUpdate : (leaveUpdate s).Alike (leaveUpdate t) := by
  have hidle : (returnToIdle s).Alike (returnToIdle t) := h.onePulse _ _ _ fun _ _ hu => hu.goTo .idle
  have hpeek : qPeekKind t = qPeekKind s := by rw [qPeekKind, h.queue, qPeekKind]
  unfold Machine.leaveUpdate
  rw [hpeek, h.params]
  split
  · exact hidle
  · split
    · exact hidle
    · exact (h.qPop.readbackOnShortcut _).onePulse _ _ _ fun _ _ hu => hu.goTo .select
    · refine (h.pulseW _ _).andThen fun _ _ _ hu => ?_
      exact (hu.pauseOnShortcut _).qPop.onePulse _ _ _ fun _ _ hw => hw.goTo .select

theorem stepUpdate : (stepUpdate s).Alike (stepUpdate t) := by
  have hfull : resultsFull t = resultsFull s := by simp only [resultsFull, h.params, h.results]
  unfold Machine.stepUpdate
  rw [hfull]
  split
  · exact .stopped (h.raise _)
  · exact h.retire.leaveUpdate

theorem stepBranch : (stepBranch s).Alike (stepBranch t) := by
  cases hcode : TapState.ofCode s.tap with
  | none =>
    simp only [Machine.stepBranch, h.tap, hcode]
    exact .stopped (h.raise _)
  | some x =>
    have hs := TapState.code_of_ofCode hcode
    rw [stepBranch_at hs, stepBranch_at (h.tap.trans hs)]
    cases x with
    | idle => exact h.stepIdle
    | shift => exact h.stepShift
    | exit1 => exact h.stepExit1
    | update => exact h.stepUpdate
    | capture =>
      exact h.onePulse (f := fun u => Machine.goTo .shift { u with acc := [] }) _ _ _
        fun _ _ hu => { hu.goTo .shift with }
    | reset | select | pause | exit2 => exact h.onePulse _ _ _ fun _ _ hu => hu.goTo _

/-! ### Steps and runs -/

theorem tapStep : (tapStep t).2 = (tapStep s).2 ∧ AlikeButSamples (tapStep s).1 (tapStep t).1 := by
  unfold Machine.tapStep
  rw [h.fault]
  split
  · exact ⟨rfl, h⟩
  · exact h.stepBranch.finish

theorem runSteps (n : Nat) : AlikeButSamples (runSteps n s) (runSteps n t) := by
  induction n generalizing s t with
  | zero => exact h
  | succ n ih =>
    obtain ⟨hbit, hstep⟩ := h.tapStep
    rw [runSteps_succ, runSteps_succ, hbit, hstep.fault]
    split
    · exact hstep
    · exact ih hstep

/-- A leg that one of the states runs, the other runs too. -/
theorem exec {i : Instr} {u : State} (hu : exec i s = .next u) :
    ∃ v, exec i t = .next v ∧ AlikeButSamples u v := by
  cases hf : s.fault with
  | some e =>
    rw [exec_faulted (by simp [hf])] at hu
    cases hu
  | none =>
    have hcur : AlikeButSamples { s with cur := some i } { t with cur := some i } := { h with cur := rfl }
    obtain rfl := Host.Outcome.next.inj ((exec_live hf).symm.trans hu)
    exact ⟨_, exec_live (h.fault.trans hf), hcur.runSteps _⟩

end updates

end AlikeButSamples

/-- Settles O60: the samples to come are among what alike states may differ in. -/
theorem drivesIgnoreSamples : Obligations.DrivesIgnoreSamples := by
  intro i s t d ht
  have hd : AlikeButSamples s { s with tdoDraws := d } :=
    ⟨rfl, rfl, rfl, rfl, rfl, rfl, rfl, rfl, rfl, rfl, rfl⟩
  obtain ⟨u, hu, halike⟩ := hd.exec ht
  exact ⟨u, hu, halike.drives, halike.tap, halike.cur, halike.queue, halike.pause, halike.readback,
    halike.lines, halike.fault, halike.results⟩

end Sys2Proof.Machine
end
